-- ==== Sys2Proof/Word.lean ====
section
/-! DEFINITION. The plain data the model is written over: bytes, 32-bit words, and the four ways the
reading of an RLE0 RUN token can stop (30_encoding.md R77, R79). -/

namespace Sys2Proof

/-- One byte of a buffer, of a token or of a payload (00_scope.md R12). -/
abbrev Byte := BitVec 8

/-- One host register (10_state.md R23). -/
abbrev Word := BitVec 32

/-- Why the reading of the bit-bytes of a RUN token stopped (30_encoding.md R77 and R79): the closing
`0x40` was met, or one of the three malformed cases was. -/
inductive RunEnd where
  /-- the closing 0x40 was met: the token is well made -/
  | closed
  /-- the input string ended first -/
  | truncated
  /-- the byte `b`, none of 0x00, 0x01, 0x40, stood where a bit-byte or the closing 0x40 should -/
  | badByte (b : Byte)
  /-- a 32nd bit-byte was met; `d` is its bit -/
  | tooLong (d : Bool)
deriving DecidableEq, Repr

end Sys2Proof
end

