-- ==== Sys2Proof/Config.lean ====
section
/-! DEFINITION. What is fixed for one block: the constants of 00_scope.md R9, the open parameter
`BUF_CAP` of R10, and the free byte an unspecified host read returns (20_memory.md R52). -/

namespace Sys2Proof

/-- A buffer capacity `BUF_CAP`, which R10 leaves to the implementation within
1028 ≤ `BUF_CAP` ≤ 2^32 − 2: it is 1028 plus `extra`, and `extra` has 2^32 − 2 − 1028 + 1 values.
Every engine operation takes the capacity as an argument of this type. -/
structure Cap where
  extra : Fin 4294966267
deriving DecidableEq, Repr, Inhabited

/-- The capacity in bytes of `IBUF` and of `OBUF` (R10). -/
def Cap.bytes (c : Cap) : Nat := c.extra.val + 1028

namespace Config

/-- `BUF_CAP` of the block at hand: OPEN in R10, so a constant without a body. -/
opaque bufCap : Cap

/-- The byte that the `t`-th read of an unspecified byte returns (R52, "drawn afresh at each read"):
a free value, a constant without a body. -/
opaque freeByte : Nat → Byte

/-- `ESC` (R9): the RLE0 escape marker. -/
def esc : Byte := 0x40#8
/-- `RUNSYM` (R9): the byte whose runs RLE0 shortens. -/
def runSym : Byte := 0x00#8
/-- `TAG_LIT` (R9): second byte of an escaped literal `0x40`. -/
def tagLit : Byte := 0x00#8
/-- `TAG_RUN` (R9): second byte of a run token. -/
def tagRun : Byte := 0x01#8
/-- `RUN_MIN` (R9): the shortest run that is escape-coded. -/
def runMin : Nat := 6
/-- `NSYM` (R9): alphabet size. -/
def nsym : Nat := 256
/-- `FIELD` (R9): width in bytes of a number field of the payload. -/
def field : Nat := 4
/-- `HDR` (R9): size in bytes of the Huffman payload header. -/
def hdr : Nat := 1028
/-- The largest number of bit-bytes in a RUN token (30_encoding.md R73, R79). -/
def runBitsMax : Nat := 31

end Config
end Sys2Proof
end

