-- ==== Sys2Proof/Syntax.lean ====
section
/-! DEFINITION. The instructions: one constructor per row of spec/opcode_table.json. The first seven
are the values of the command word (30_encoding.md R71, R72), the last three the tokens of an
RLE0-coded string (R73 to R76), which the running `rle0.dec` command executes one after another. -/

namespace Sys2Proof

inductive Instr where
  /-- `rle0.enc`, code 0x01 (R71, 41_rle0.md R112) -/
  | rle0Enc
  /-- `rle0.dec`, code 0x02 (R71, 41_rle0.md R116) -/
  | rle0Dec
  /-- `huff.enc`, code 0x03 (R71, 43_huffman_codec.md R175) -/
  | huffEnc
  /-- `huff.dec`, code 0x04 (R71, 43_huffman_codec.md R180) -/
  | huffDec
  /-- `xchg`, code 0x05 (R71, 44_control.md R206) -/
  | xchg
  /-- `srst`, code 0xFF (R71, 44_control.md R207) -/
  | srst
  /-- a reserved code: 0x00 and 0x06 to 0xFE (R72) -/
  | reserved (op : Byte)
  /-- token COPY: one byte other than 0x40 (R74) -/
  | copy (b : Byte)
  /-- token ESCLIT: `40 00` (R75) -/
  | escLit
  /-- token RUN: `40 01`, the bit-bytes read, most significant first, and how the reading stopped
  (R76, and R79 for the malformed ones) -/
  | run (bits : List Bool) (ending : RunEnd)
deriving DecidableEq, Repr

end Sys2Proof
end

