-- ==== Sys2Proof/WellFormed.lean ====
section
/-! DEFINITION. Which instructions are well formed: those that some command word or some byte string
decodes to (30_encoding.md R72 for reserved codes, R74 for COPY, R76 and R79 for RUN). -/

namespace Sys2Proof

/-- The reserved command codes (R72): 0x00 and 0x06 to 0xFE. -/
def reservedCode (op : Byte) : Bool :=
  op == 0x00#8 || (decide (0x06 ≤ op.toNat) && decide (op.toNat ≤ 0xFE))

/-- The reading of a RUN token with `m` bit-bytes may stop so: at most 31 bit-bytes (R73); a 32nd one
is only met after 31 (R79); an offending byte is none of 0x00, 0x01, 0x40 (R79). -/
def RunEnd.wf (m : Nat) : RunEnd → Bool
  | .closed => decide (m ≤ Config.runBitsMax)
  | .truncated => decide (m ≤ Config.runBitsMax)
  | .badByte b => decide (m ≤ Config.runBitsMax) && (decide (1 < b.toNat) && b != Config.esc)
  | .tooLong _ => m == Config.runBitsMax

/-- An instruction that some encoding decodes to. -/
def Instr.wf : Instr → Bool
  | .rle0Enc => true
  | .rle0Dec => true
  | .huffEnc => true
  | .huffDec => true
  | .xchg => true
  | .srst => true
  | .reserved op => reservedCode op
  | .copy b => b != Config.esc
  | .escLit => true
  | .run bits ending => ending.wf bits.length

end Sys2Proof
end

