-- ==== Sys2Proof/Decode.lean ====
section
/-! DEFINITION. The two decoders of the block and their encoder: the command word (30_encoding.md R71,
R72) and the RLE0 token at the front of a byte string (R73 to R79), with the byte-order and bit-order
helpers they use (20_memory.md R56, R58; 40_numbercodec.md R100, R101). -/

namespace Sys2Proof

/-! ## Byte order and bit order -/

/-- The `k` low bytes of `v`, most significant first (40_numbercodec.md R100; higher bits vanish). -/
def beBytes (v : Nat) : Nat → List Byte
  | 0 => []
  | k + 1 => BitVec.ofNat 8 (v / 2 ^ (8 * k)) :: beBytes v k

/-- The number a byte string spells, most significant byte first (R101). -/
def beNumber (s : List Byte) : Nat :=
  s.foldl (fun v b => v * 256 + b.toNat) 0

/-- The bit-byte of one bit (20_memory.md R58): 0x00 or 0x01. -/
def bitByte (d : Bool) : Byte := if d then 0x01#8 else 0x00#8

/-- The `m`-bit spelling of `v`, most significant bit first (30_encoding.md R76). -/
def bitsOf (v : Nat) : Nat → List Bool
  | 0 => []
  | m + 1 => v.testBit m :: bitsOf v m

/-- The number that bits spell, most significant first: `number <- 2 * number + d` for each
(41_rle0.md R116). -/
def bitsNumber (bits : List Bool) : Nat :=
  bits.foldl (fun v d => 2 * v + d.toNat) 0

/-! ## What an instruction is encoded as -/

/-- The two encodings that carry instructions (30_encoding.md R70): a word written to `CMD`, or the
bytes of one RLE0 token. -/
inductive Encoded where
  | command (w : Word)
  | token (bs : List Byte)
deriving DecidableEq, Repr

/-- Why a byte string starts no token. -/
inductive Reject where
  /-- the byte string is empty -/
  | noBytes
  /-- 0x40 is the last byte (R79, first row) -/
  | escapeAtEnd
  /-- 0x40 is followed by `b`, neither 0x00 nor 0x01 (R79, second row) -/
  | escapeFollower (b : Byte)
deriving DecidableEq, Repr

/-- What a decoder answers: an instruction and the bytes after it, or a rejection by name. -/
inductive Decoded where
  | ok (i : Instr) (rest : List Byte)
  | reject (why : Reject)
deriving DecidableEq, Repr

/-! ## The command word -/

/-- `OP`, bits [7:0] of the command word (R71). -/
def opOf (v : Word) : Byte := v.setWidth 8

/-- The command a word written to `CMD` names (R71, R72); bits [31:8] play no part. -/
def decodeCommand (v : Word) : Instr :=
  if opOf v = 0x01#8 then .rle0Enc
  else if opOf v = 0x02#8 then .rle0Dec
  else if opOf v = 0x03#8 then .huffEnc
  else if opOf v = 0x04#8 then .huffDec
  else if opOf v = 0x05#8 then .xchg
  else if opOf v = 0xFF#8 then .srst
  else .reserved (opOf v)

/-! ## RLE0 tokens -/

/-- Reads the bit-bytes of a RUN token after `40 01`, `room` more of them at most: the bits, why the
reading stopped, and the bytes after the one it stopped at. The checks are made in the order of
41_rle0.md R116: end of input, closing 0x40, non-bit byte, 32nd bit. -/
def readRun : Nat → List Byte → List Bool × RunEnd × List Byte
  | _, [] => ([], .truncated, [])
  | room, d :: ds =>
    if d = Config.esc then ([], .closed, ds)
    else if 1 < d.toNat then ([], .badByte d, ds)
    else
      match room with
      | 0 => ([], .tooLong (d == 0x01#8), ds)
      | room + 1 =>
        let r := readRun room ds
        ((d == 0x01#8) :: r.1, r.2.1, r.2.2)

/-- The token at the front of a byte string (R73, R77). -/
def decodeToken : List Byte → Decoded
  | [] => .reject .noBytes
  | b :: bs =>
    if b = Config.esc then
      match bs with
      | [] => .reject .escapeAtEnd
      | c :: cs =>
        if c = Config.tagLit then .ok .escLit cs
        else if c = Config.tagRun then
          let r := readRun Config.runBitsMax cs
          .ok (.run r.1 r.2.1) r.2.2
        else .reject (.escapeFollower c)
    else .ok (.copy b) bs

/-- The decoder of the block, over both encodings. -/
def decode : Encoded → Decoded
  | .command w => .ok (decodeCommand w) []
  | .token bs => decodeToken bs

/-! ## The encoder, written from R71 to R79 -/

/-- The bytes after the bit-bytes of a RUN token (R76, R79). -/
def runTail : RunEnd → List Byte
  | .closed => [Config.esc]
  | .truncated => []
  | .badByte b => [b]
  | .tooLong d => [bitByte d]

/-- The bytes of a RUN token (R76). -/
def runBytes (bits : List Bool) (ending : RunEnd) : List Byte :=
  Config.esc :: Config.tagRun :: (bits.map bitByte ++ runTail ending)

/-- The words or bytes of an instruction; the ignored bits [31:8] of a command word are 0. -/
def encode : Instr → Encoded
  | .rle0Enc => .command 0x00000001#32
  | .rle0Dec => .command 0x00000002#32
  | .huffEnc => .command 0x00000003#32
  | .huffDec => .command 0x00000004#32
  | .xchg => .command 0x00000005#32
  | .srst => .command 0x000000FF#32
  | .reserved op => .command (op.setWidth 32)
  | .copy b => .token [b]
  | .escLit => .token [Config.esc, Config.tagLit]
  | .run bits ending => .token (runBytes bits ending)

/-! ## The opcode table's numbering -/

/-- The longest byte string a token is read from: `40 01`, 31 bit-bytes and one byte more. -/
def longestToken : Nat := 34

/-- The bytes that a token row's number `w` of `nbits` bits stands for, up to the longest token: the
first byte of the token is the high byte of the row's number (30_encoding.md R92), and the bytes above
`nbits` are 0. -/
def tableBytes (nbits w : Nat) : List Byte :=
  beBytes w (nbits / 8) ++ List.replicate (longestToken - nbits / 8) 0x00#8

/-- The instruction decoded from a row's number: 32 bits are a command word, fewer are the first bytes
of a token. -/
def decodeTableWord (nbits w : Nat) : Option Instr :=
  if nbits = 32 then some (decodeCommand (BitVec.ofNat 32 w))
  else
    match decodeToken (tableBytes nbits w) with
    | .ok i _ => some i
    | .reject _ => none

end Sys2Proof
end

