-- ==== Sys2Proof/Machine/State.lean ====
section
/-! DEFINITION. The state of the block: the six host registers (10_state.md R23 to R29), the two buffers
(R30, R31), the working state of a running command (R32 to R42), and three fields of the model's own for
the host's side (the accesses the host has yet to make, what it got back, the count of free bytes drawn).
`State.reset` is R45. -/

namespace Sys2Proof.Machine

/-- A buffer, `IBUF` or `OBUF`: the (address, byte) pairs of the bytes that hold a defined value,
addresses strictly rising. A byte not listed holds no defined value (R30, R45, 20_memory.md R52). -/
abbrev Memory := List Host.Cell

/-- The field `STATE` of `STATUS` (R25). -/
inductive EngineState where
  | idle
  | busy
  | done
  | fault
deriving DecidableEq, Repr

/-- The fault codes 0 to 10 (60_exceptions.md R231). -/
inductive FaultCode where
  | none
  | badCmd
  | inLen
  | outOvf
  | rle0Esc
  | rle0Trunc
  | rle0Bit
  | rle0Len
  | huffHdr
  | huffTree
  | huffBits
deriving DecidableEq, Repr

/-- An entry of the node arena `NODE` (R37): a leaf with its `sym` and weight, or an internal node with
its weight and the ids of its two children. -/
inductive Node where
  | leaf (sym : Byte) (w : Nat)
  | internal (w : Nat) (left : Nat) (right : Nat)
deriving DecidableEq, Repr

/-- The working state of a running command (R33 to R42). Cursors, counters and weights are natural
numbers: by 40_numbercodec.md R105 no operation wraps at the widths of R33 to R42, so the results are
the same. -/
structure Work where
  /-- `i`: the input cursor (R33) -/
  i : Nat
  /-- `j`: the second input address of `rle0.dec` (R33) -/
  j : Nat
  /-- `K`: run length (R34) -/
  k : Nat
  /-- `M`: number of bit-bytes of a run token (R34) -/
  m : Nat
  /-- `NUMBER`: the value of those bits (R34) -/
  number : Nat
  /-- `HIST[0..255]`: 256 counters (R35) -/
  hist : List Nat
  /-- `N`: the symbol count (R36) -/
  n : Nat
  /-- `NODE`: the arena entries in use; `NNODE` is the length of this list (R37) -/
  node : List Node
  /-- `Q`: the queue of node ids, front first; `QLEN` is the length of this list (R38) -/
  q : List Nat
  /-- `ROOT`: a node id or NONE (R39) -/
  root : Option Nat
  /-- `CODE[0..255]`: the bit strings, first bit first; `CODE[s].len` is the length (R40) -/
  code : List (List Bool)
  /-- `ACC`: the byte being assembled (R41) -/
  acc : Byte
  /-- `NACC`: how many bits stand in `ACC` (R41) -/
  nacc : Nat
  /-- `BP`: the number of payload bits consumed (R42) -/
  bp : Nat
deriving DecidableEq, Repr

/-- The initial value of every item of working state (R33 to R42), which `start_command` gives
(44_control.md R202). -/
def Work.init : Work where
  i := 0
  j := 0
  k := 0
  m := 0
  number := 0
  hist := List.replicate 256 0
  n := 0
  node := []
  q := []
  root := none
  code := List.replicate 256 []
  acc := 0x00#8
  nacc := 0
  bp := 0

/-- One access of the host: the five operations of 20_memory.md R51 and R52, and the reset input of
70_reset_and_hazards.md R260. -/
inductive Access where
  | regRead (n : Nat)
  | regWrite (n : Nat) (v : Word)
  | ibufWrite (a : Nat) (b : Byte)
  | ibufRead (a : Nat)
  | obufRead (a : Nat)
  | reset
deriving DecidableEq, Repr

/-- What a read gave back to the host. -/
inductive Reply where
  | word (v : Word)
  | byte (b : Byte)
deriving DecidableEq, Repr

/-- The whole state. `pending`, `replies` and `draws` are the model's own; everything else is the
spec's. -/
structure State where
  /-- `CMD` bits [7:0] (R24); bits [31:8] read 0 -/
  cmd : Byte
  /-- `STATUS.STATE` (R25) -/
  status : EngineState
  /-- `FAULT` bits [7:0] (R26) -/
  fault : FaultCode
  /-- `FAULT_POS` (R27) -/
  faultPos : Word
  /-- `IN_LEN` (R28) -/
  inLen : Word
  /-- `OUT_LEN` (R29) -/
  outLen : Word
  /-- `IBUF` (R30) -/
  ibuf : Memory
  /-- `OBUF` (R31) -/
  obuf : Memory
  /-- the working state, which exists only while a command runs (R32, R45) -/
  work : Option Work
  /-- the accesses the host has yet to make, next first (20_memory.md R65 (e)) -/
  pending : List Access
  /-- what the host's reads gave back, newest first -/
  replies : List Reply
  /-- how many free bytes have been drawn (R52) -/
  draws : Nat
deriving DecidableEq, Repr

/-- The state right after reset (R45), before the host has made any access. -/
def State.reset : State where
  cmd := 0x00#8
  status := .idle
  fault := .none
  faultPos := 0#32
  inLen := 0#32
  outLen := 0#32
  ibuf := []
  obuf := []
  work := none
  pending := []
  replies := []
  draws := 0

/-- Why the machine stops with a fault of the MODEL (the block's own faults are next states with
`STATE` = FAULT, 60_exceptions.md R233). -/
inductive Fault where
  /-- raised by `emit` when `OUT_LEN` is above `BUF_CAP`, where `OBUF` has no such address
  (20_memory.md R50, R54). Safe; no state that meets the invariant raises it. -/
  | obufAddress
  /-- raised by `decode_symbol` when the walk meets an id that names no node or does not end, which no
  tree of `build_tree` does (44_control.md R212). Safe; no command raises it. -/
  | brokenTree
deriving DecidableEq, Repr

/-- Why the model gives a step no meaning. -/
inductive Refusal where
  /-- raised by `exec` for an instruction that has no meaning yet. Safe. -/
  | notModelled (mnemonic : String)
  /-- raised by a command that reads an `IBUF` byte holding no defined value, a run that
  70_reset_and_hazards.md R263 and 93_implementation_defined.md U5 tell a model to refuse. Safe. -/
  | undefinedByte
  /-- raised by a token that is executed while no command runs, so that no working state exists
  (10_state.md R32). Safe; `step` never does so from a state that meets the invariant. -/
  | noCommand
  /-- raised by `step` in the middle of a command other than `rle0.dec`: the atomic model has no such
  moment (44_control.md R203, 93_implementation_defined.md U8). Safe; no run from reset meets it. -/
  | midCommand
  /-- raised by the token loop of `rle0.dec` for an instruction that is no token, which the token
  decoder never answers. Safe; nothing raises it. -/
  | notAToken
deriving DecidableEq, Repr

end Sys2Proof.Machine
end

