-- ==== Sys2Proof/Machine/Ops.lean ====
section
/-! DEFINITION. The shared operations: buffers (20_memory.md R53, R54), the capacity tests (R55,
44_control.md R201), the flow of a running command, `raise Fault` (60_exceptions.md R233), reset
(44_control.md R207), `emit` (20_memory.md R55), the start and the end of a command (44_control.md R202,
R204), and its issue (R200). -/

namespace Sys2Proof.Machine

/-! ## Buffers -/

/-- The byte at address `a`, or none where it holds no defined value (20_memory.md R52, R53). -/
def Memory.read (m : Memory) (a : Nat) : Option Byte :=
  match m with
  | [] => none
  | (c, b) :: rest => if c = a then some b else Memory.read rest a

/-- Writes byte `b` at address `a`, keeping the addresses strictly rising (R54). -/
def Memory.write (m : Memory) (a : Nat) (b : Byte) : Memory :=
  match m with
  | [] => [(a, b)]
  | (c, x) :: rest =>
    if a < c then (a, b) :: (c, x) :: rest
    else if a = c then (a, b) :: rest
    else (c, x) :: Memory.write rest a b

/-- The canonical form of a buffer: addresses strictly rising. -/
abbrev Memory.wf (m : Memory) : Prop := (m.map Prod.fst).Pairwise (· < ·)

/-- The cells of a byte string that starts at address `a`. -/
def Memory.cellsFrom (a : Nat) : List Byte → Memory
  | [] => []
  | b :: bs => (a, b) :: Memory.cellsFrom (a + 1) bs

/-- The defined bytes at consecutive addresses from `a` on, at most `n` of them, up to the first
address that holds no defined value. -/
def Memory.stretch (m : Memory) (a : Nat) : Nat → List Byte
  | 0 => []
  | n + 1 =>
    match m.read a with
    | some b => b :: Memory.stretch m (a + 1) n
    | none => []

/-- Writes a byte string at consecutive addresses from `a` on. -/
def Memory.writeAll (m : Memory) (a : Nat) : List Byte → Memory
  | [] => m
  | b :: bs => Memory.writeAll (m.write a b) (a + 1) bs

/-! ## The capacity, `BUF_CAP`

The three tests compare with `BUF_CAP` = 1028 + `extra` by looking at the 1028 first, so that a length
below 1028 is decided whatever `BUF_CAP` is. -/

/-- `n = BUF_CAP` (20_memory.md R55). -/
def capFull (c : Cap) (n : Nat) : Bool :=
  decide (1028 ≤ n) && decide (n - 1028 = c.extra.val)

/-- `n < BUF_CAP`: `n` is an address of the buffers (20_memory.md R50). -/
def capHasAddress (c : Cap) (n : Nat) : Bool :=
  decide (n < 1028) || decide (n - 1028 < c.extra.val)

/-- `n ≤ BUF_CAP`: the length check of 44_control.md R201. -/
def capHolds (c : Cap) (n : Nat) : Bool :=
  decide (n ≤ 1028) || decide (n - 1028 ≤ c.extra.val)

/-! ## A running command -/

/-- The block while a command runs: its state and the working state (10_state.md R32). -/
structure Running where
  s : State
  w : Work
deriving DecidableEq, Repr

/-- What an operation of a running command comes to: it goes on with a value, the command ended in
state `s` by a fault of the block, or the model stops. -/
inductive Flow (α : Type) where
  | ok (a : α)
  | ended (s : State)
  | refused (r : Refusal)
  | fault (r : Fault)
deriving DecidableEq, Repr

/-- One operation after another; a stop ends the sequence. -/
def Flow.bind {α β : Type} (x : Flow α) (f : α → Flow β) : Flow β :=
  match x with
  | .ok a => f a
  | .ended s => .ended s
  | .refused r => .refused r
  | .fault r => .fault r

/-- `body`, repeated while the input cursor is below `IN_LEN`, at most `fuel` times. A body that
advances the cursor is repeated to the end of the input with `fuel` = `IN_LEN`. -/
def scanInput : Nat → (Running → Flow Running) → Running → Flow Running
  | 0, _, r => .ok r
  | fuel + 1, body, r =>
    if r.w.i < r.s.inLen.toNat then (body r).bind (scanInput fuel body) else .ok r

/-- "repeat k times". -/
def repeatTimes : Nat → (Running → Flow Running) → Running → Flow Running
  | 0, _, r => .ok r
  | k + 1, body, r => (body r).bind (repeatTimes k body)

/-! ## Faults and reset -/

/-- Taking a fault: `raise Fault(code, pos)` (60_exceptions.md R233). `CMD`, `IN_LEN` and `IBUF` keep
their values; the working state is discarded. -/
def raiseFault (code : FaultCode) (pos : Nat) (s : State) : State :=
  { s with
    status := .fault
    fault := code
    faultPos := BitVec.ofNat 32 pos
    outLen := 0#32
    obuf := []
    work := none }

/-- A fault taken inside a running command. -/
def Running.raise {α : Type} (r : Running) (code : FaultCode) (pos : Nat) : Flow α :=
  .ended (raiseFault code pos r.s)

/-- Reset, by the reset input (70_reset_and_hazards.md R260) and by `srst` (44_control.md R207): the only
way out of the FAULT state (60_exceptions.md R239). What is outside the block stays: the accesses the
host has yet to make, what it got back, and the count of free bytes drawn. -/
def resetBlock (s : State) : State :=
  { State.reset with pending := s.pending, replies := s.replies, draws := s.draws }

/-! ## Engine reads and writes -/

/-- `IBUF[a]` (20_memory.md R53); a byte without a defined value refuses the run (70_reset_and_hazards.md
R263). -/
def Running.input (r : Running) (a : Nat) : Flow Byte :=
  match r.s.ibuf.read a with
  | some b => .ok b
  | none => .refused .undefinedByte

/-- `emit(b)` (20_memory.md R55). -/
def emit (cap : Cap) (b : Byte) (r : Running) : Flow Running :=
  if capFull cap r.s.outLen.toNat then r.raise .outOvf r.w.i
  else if capHasAddress cap r.s.outLen.toNat then
    .ok { r with s := { r.s with
      obuf := r.s.obuf.write r.s.outLen.toNat b
      outLen := r.s.outLen + 1#32 } }
  else .fault .obufAddress

/-- Emits the bytes of a byte string, first byte first. -/
def emitAll (cap : Cap) : List Byte → Running → Flow Running
  | [], r => .ok r
  | b :: bs, r => (emit cap b r).bind (emitAll cap bs)

/-- Moves the input cursor on by `n` bytes. -/
def Running.advance (r : Running) (n : Nat) : Running :=
  { r with w := { r.w with i := r.w.i + n } }

/-! ## The life of a command -/

/-- `start_command` (44_control.md R202). -/
def startCommand (s : State) : Running where
  s := { s with status := .busy, outLen := 0#32, obuf := [], work := none }
  w := Work.init

/-- The end of a command whose rule ran to its last line: `STATE <- DONE`, the working state discarded
(44_control.md R204, 10_state.md R32). -/
def finishCommand (r : Running) : State :=
  { r.s with status := .done, work := none }

/-- The state with the command still running, its working state kept. -/
def suspend (r : Running) : State :=
  { r.s with work := some r.w }

/-- What a whole command comes to, as one transition (44_control.md R203). -/
def endCommand : Flow Running → Host.Outcome State Fault Refusal
  | .ok r => .next (finishCommand r)
  | .ended s => .next s
  | .refused e => .refused e
  | .fault e => .fault e

/-- What one token comes to inside the running command. -/
def endToken : Flow Running → Host.Outcome State Fault Refusal
  | .ok r => .next (suspend r)
  | .ended s => .next s
  | .refused e => .refused e
  | .fault e => .fault e

/-- Command issue (44_control.md R200), the part that every code but 0xFF shares: a write in the FAULT
state is ignored; otherwise `CMD <- op` and `body` runs. -/
def issue (op : Byte) (body : State → Host.Outcome State Fault Refusal) (s : State) :
    Host.Outcome State Fault Refusal :=
  if s.status = .fault then .next s else body { s with cmd := op }

/-- The length check of commands 0x01 to 0x05 (44_control.md R201), then `body`. -/
def checkLength (cap : Cap) (body : State → Host.Outcome State Fault Refusal) (s : State) :
    Host.Outcome State Fault Refusal :=
  if capHolds cap s.inLen.toNat then body s else .next (raiseFault .inLen 0 s)

/-- Commands 0x01 to 0x04 (R200): issue, length check, `start_command`, the coder's rule, the end. -/
def issueCoder (op : Byte) (cap : Cap) (coder : Running → Flow Running) (s : State) :
    Host.Outcome State Fault Refusal :=
  issue op (checkLength cap fun s => endCommand (coder (startCommand s))) s

/-- One token of a running command; without working state there is nothing it could act on
(10_state.md R32). -/
def onRunning (s : State) (token : Running → Flow Running) : Host.Outcome State Fault Refusal :=
  match s.work with
  | some w => endToken (token { s := s, w := w })
  | none => .refused .noCommand

end Sys2Proof.Machine
end

