-- ==== Sys2Proof/Machine/Flags.lean ====
section
/-! DEFINITION. The status fields as software reads them. The block has no condition codes (10_state.md
R43): what a command leaves is `STATE`, the fault code and the fault position, and this file gives the
numbers they read as. -/

namespace Sys2Proof.Machine

/-- `STATUS[1:0]` (10_state.md R25). -/
def EngineState.bits : EngineState → Word
  | .idle => 0#32
  | .busy => 1#32
  | .done => 2#32
  | .fault => 3#32

/-- `FAULT[7:0]` (60_exceptions.md R231). -/
def FaultCode.bits : FaultCode → Word
  | .none => 0#32
  | .badCmd => 1#32
  | .inLen => 2#32
  | .outOvf => 3#32
  | .rle0Esc => 4#32
  | .rle0Trunc => 5#32
  | .rle0Bit => 6#32
  | .rle0Len => 7#32
  | .huffHdr => 8#32
  | .huffTree => 9#32
  | .huffBits => 10#32

end Sys2Proof.Machine
end

