-- ==== Sys2Proof/Machine/Operands.lean ====
section
/-! DEFINITION. The operand forms: the host registers by number (10_state.md R23, 20_memory.md R51), the
input string as the fetch of an RLE0 token sees it (41_rle0.md R116), and four-byte fields of the input
string (20_memory.md R53, R60). -/

namespace Sys2Proof.Machine

/-- `RegRead(n)`: the 32-bit value of register `n`; numbers above 5 read 0 (10_state.md R23). -/
def readRegister (s : State) (n : Nat) : Word :=
  match n with
  | 0 => s.cmd.setWidth 32
  | 1 => s.status.bits
  | 2 => s.fault.bits
  | 3 => s.faultPos
  | 4 => s.inLen
  | 5 => s.outLen
  | _ => 0#32

/-- What the fetch of a token at address `a` of the input string comes to. -/
inductive Fetched where
  /-- a token, a malformed RUN among them -/
  | token (i : Instr)
  /-- 0x40 as the last input byte, or followed by neither 0x00 nor 0x01 -/
  | escape
  /-- a byte without a defined value would have to be read -/
  | undefinedByte
deriving DecidableEq, Repr

/-- Fetches the token at address `a` of the input string. The decoder is given the defined bytes from `a`
on, as far as a token can reach; where it ran out of them before the end of the input string, the byte
after them would have to be read. -/
def fetchToken (s : State) (a : Nat) : Fetched :=
  let want := min longestToken (s.inLen.toNat - a)
  let bytes := s.ibuf.stretch a want
  match decodeToken bytes with
  | .ok (.run bits .truncated) _ =>
    if bytes.length = want then .token (.run bits .truncated) else .undefinedByte
  | .ok i _ => .token i
  | .reject (.escapeFollower _) => .escape
  | .reject .escapeAtEnd => if bytes.length = want then .escape else .undefinedByte
  | .reject .noBytes => .undefinedByte

/-- The `n` input bytes from address `a` on, read one by one. -/
def readInput (r : Running) (a : Nat) : Nat → Flow (List Byte)
  | 0 => .ok []
  | n + 1 => (r.input a).bind fun b => (readInput r (a + 1) n).bind fun bs => .ok (b :: bs)

end Sys2Proof.Machine
end

