-- ==== Sys2Proof/Machine/Control.lean ====
section
/-! DEFINITION. The control family (44_control.md): `xchg` (R206), `srst` (R207) and the reserved codes
(R200, 30_encoding.md R72). -/

namespace Sys2Proof.Machine

/-- The exchange of `xchg` (R206): buffers, definedness and lengths, then `STATE <- DONE`. -/
def exchange (s : State) : State :=
  { s with
    ibuf := s.obuf
    obuf := s.ibuf
    inLen := s.outLen
    outLen := s.inLen
    status := .done }

/-- `xchg` (R206, R200). -/
def execXchg (s : State) : Host.Outcome State Fault Refusal :=
  issue 0x05#8 (checkLength Config.bufCap fun s => .next (exchange s)) s

/-- `srst` (R207): accepted in every state, the FAULT state among them. -/
def execSrst (s : State) : Host.Outcome State Fault Refusal :=
  .next (resetBlock s)

/-- A reserved code (R200): `F_BAD_CMD` at position 0, whatever `IN_LEN` is. -/
def execReserved (op : Byte) (s : State) : Host.Outcome State Fault Refusal :=
  issue op (fun s => .next (raiseFault .badCmd 0 s)) s

end Sys2Proof.Machine
end

