-- ==== Sys2Proof/Machine/NumberCodec.lean ====
section
/-! DEFINITION. NumberCodec (40_numbercodec.md): `be_encode` and `be_decode` for byte counts 1 to 8, and
no meaning for other counts (R103). -/

namespace Sys2Proof.Machine

/-- `be_encode(value, k)` (R100, R103). -/
def beEncode (value : Nat) (k : Nat) : Option (List Byte) :=
  if 1 ≤ k ∧ k ≤ 8 then some (beBytes value k) else none

/-- `be_decode(s)` (R101, R103). -/
def beDecode (s : List Byte) : Option Nat :=
  if 1 ≤ s.length ∧ s.length ≤ 8 then some (beNumber s) else none

/-- A four-byte field of the payload, as written (R104). -/
def fieldBytes (value : Nat) : List Byte := beBytes value Config.field

/-- Cuts a byte string into `n` four-byte fields and reads each as a number (43_huffman_codec.md R181). -/
def fieldNumbers : Nat → List Byte → List Nat
  | 0, _ => []
  | n + 1, bs => beNumber (bs.take Config.field) :: fieldNumbers n (bs.drop Config.field)

end Sys2Proof.Machine
end

