-- ==== Sys2Proof/Machine/HuffmanModel.lean ====
section
/-! DEFINITION. The Huffman model (42_huffman_model.md): `compute_histogram` (R140), `build_tree` (R143 to
R147) and `derive_codes` (R150, R151). -/

namespace Sys2Proof.Machine

/-! ## Histogram -/

/-- One more occurrence of byte value `b`. -/
def countByte (hist : List Nat) (b : Byte) : List Nat :=
  hist.set b.toNat (hist.getD b.toNat 0 + 1)

/-- Counts the input bytes from address `a` on, `n` of them. -/
def countInput (r : Running) (a : Nat) : Nat → List Nat → Flow (List Nat)
  | 0, hist => .ok hist
  | n + 1, hist => (r.input a).bind fun b => countInput r (a + 1) n (countByte hist b)

/-- `compute_histogram` (R140). -/
def computeHistogram (r : Running) : Flow Running :=
  (countInput r 0 r.s.inLen.toNat (List.replicate Config.nsym 0)).bind fun hist =>
    .ok { r with w := { r.w with hist := hist } }

/-! ## Tree builder -/

/-- The weight of a node. -/
def Node.weight : Node → Nat
  | .leaf _ w => w
  | .internal w _ _ => w

/-- The weight of the node with id `x` (10_state.md R37). -/
def nodeWeight (node : List Node) (x : Nat) : Nat :=
  match node[x]? with
  | some n => n.weight
  | none => 0

/-- Step 1 (R143): a leaf for each byte value `s`, `s + 1`, … whose count is not 0, in ascending order. -/
def leavesFrom (s : Nat) : List Nat → List Node
  | [] => []
  | c :: cs =>
    if c = 0 then leavesFrom (s + 1) cs
    else .leaf (BitVec.ofNat 8 s) c :: leavesFrom (s + 1) cs

/-- Inserts id `n` into the queue behind every id of smaller or equal weight (R145 item 3). -/
def insertNode (node : List Node) (n : Nat) (q : List Nat) : List Nat :=
  let p := (q.filter fun x => decide (nodeWeight node x ≤ nodeWeight node n)).length
  q.take p ++ n :: q.drop p

/-- Step 2 (R144): the ids ordered by weight, equal weights in the order they stand in, which is the order
of ascending byte value. -/
def sortIds (node : List Node) (ids : List Nat) : List Nat :=
  ids.foldl (fun q x => insertNode node x q) []

/-- Step 3 (R145): the merge loop over the arena and the queue; each pass shortens the queue by one. -/
def mergeLoop : Nat → List Node → List Nat → List Node × List Nat
  | fuel + 1, node, a :: b :: rest =>
    let node' := node ++ [.internal (nodeWeight node a + nodeWeight node b) a b]
    mergeLoop fuel node' (insertNode node' node.length rest)
  | _, node, q => (node, q)

/-- The arena and the queue that the steps 1 to 3 leave (R143 to R145). -/
def buildArena (hist : List Nat) : List Node × List Nat :=
  let leaves := leavesFrom 0 hist
  mergeLoop leaves.length leaves (sortIds leaves (List.range leaves.length))

/-- `build_tree` (R147): the arena, the queue and, by step 4 (R146), the root. -/
def buildTree (w : Work) : Work :=
  let t := buildArena w.hist
  { w with node := t.1, q := t.2, root := t.2.head? }

/-! ## Code table -/

/-- `walk` (R150): sets the code of every leaf below node `n` to its path. The depth of a tree is below
its number of nodes, which `fuel` is. -/
def walkCodes (node : List Node) : Nat → Nat → List Bool → List (List Bool) → List (List Bool)
  | 0, _, _, code => code
  | fuel + 1, n, path, code =>
    match node[n]? with
    | some (.leaf sym _) => code.set sym.toNat path
    | some (.internal _ l r) =>
      walkCodes node fuel r (path ++ [true]) (walkCodes node fuel l (path ++ [false]) code)
    | none => code

/-- The code table of a tree (R150; R151 for a root that is a leaf; R152 for no tree). -/
def codeTable (node : List Node) (root : Option Nat) : List (List Bool) :=
  let empty := List.replicate Config.nsym []
  match root with
  | none => empty
  | some n =>
    match node[n]? with
    | some (.leaf sym _) => empty.set sym.toNat [false]
    | _ => walkCodes node node.length n [] empty

/-- `derive_codes` (R150). -/
def deriveCodes (w : Work) : Work :=
  { w with code := codeTable w.node w.root }

end Sys2Proof.Machine
end

