-- ==== Sys2Proof/Machine/HuffmanCodec.lean ====
section
/-! DEFINITION. The Huffman codec (43_huffman_codec.md): bit writer and bit reader (R170 to R172),
`huff.enc` (R175 to R177) and `huff.dec` (R180 to R183). -/

namespace Sys2Proof.Machine

/-! ## Bit writer -/

/-- `acc` with its bit number `p` set to `d`. -/
def setBit (acc : Byte) (p : Nat) (d : Bool) : Byte :=
  (acc &&& ~~~(1#8 <<< p)) ||| ((if d then 1#8 else 0#8) <<< p)

/-- The bit writer with `ACC` and `NACC` as given (10_state.md R41). -/
def Running.withAcc (r : Running) (acc : Byte) (nacc : Nat) : Running :=
  { r with w := { r.w with acc := acc, nacc := nacc } }

/-- `put_bit(b)` (R170). -/
def putBit (cap : Cap) (d : Bool) (r : Running) : Flow Running :=
  let acc := setBit r.w.acc (7 - r.w.nacc) d
  if r.w.nacc = 7 then
    (emit cap acc (r.withAcc acc r.w.nacc)).bind fun r => .ok (r.withAcc 0#8 0)
  else .ok (r.withAcc acc (r.w.nacc + 1))

/-- Writes bits, first bit first. -/
def putBits (cap : Cap) : List Bool → Running → Flow Running
  | [], r => .ok r
  | d :: ds, r => (putBit cap d r).bind (putBits cap ds)

/-- `CODE[s].bits` (10_state.md R40). -/
def codeOf (code : List (List Bool)) (s : Byte) : List Bool := code.getD s.toNat []

/-- `put_code(s)` (R171). -/
def putCode (cap : Cap) (s : Byte) (r : Running) : Flow Running :=
  putBits cap (codeOf r.w.code s) r

/-- `flush` (R171). -/
def flush (cap : Cap) (r : Running) : Flow Running :=
  if r.w.nacc = 0 then .ok r
  else (emit cap r.w.acc r).bind fun r => .ok (r.withAcc 0#8 0)

/-! ## huff.enc -/

/-- The 1028 header bytes of a histogram and a symbol count (30_encoding.md R80). -/
def headerBytes (hist : List Nat) (n : Nat) : List Byte :=
  hist.flatMap fieldBytes ++ fieldBytes n

/-- `emit_header` (R176). -/
def emitHeader (cap : Cap) (r : Running) : Flow Running :=
  emitAll cap (headerBytes r.w.hist r.w.n) r

/-- One pass of PACK (R177): the code of the byte under the cursor. -/
def packPass (cap : Cap) (r : Running) : Flow Running :=
  (r.input r.w.i).bind fun b => (putCode cap b r).bind fun r => .ok (r.advance 1)

/-- The working state after HIST, BUILD and CODES (R173, R174). -/
def modelOf (r : Running) : Running :=
  { r with w := deriveCodes (buildTree { r.w with n := r.s.inLen.toNat }) }

/-- `huff_enc` (R175). -/
def huffEncode (cap : Cap) (r : Running) : Flow Running :=
  (computeHistogram r).bind fun r =>
    (emitHeader cap (modelOf r)).bind fun r =>
      (scanInput r.s.inLen.toNat (packPass cap) (r.withAcc 0#8 0)).bind fun r =>
        flush cap { r with w := { r.w with i := r.s.inLen.toNat } }

/-- `huff.enc` (R175, R200). -/
def execHuffEnc (s : State) : Host.Outcome State Fault Refusal :=
  issueCoder 0x03#8 Config.bufCap (huffEncode Config.bufCap) s

/-! ## Bit reader -/

/-- `get_bit` (R172): the bit and the state with `BP` and `i` moved on. -/
def getBit (r : Running) : Flow (Bool × Running) :=
  if 8 * (r.s.inLen.toNat - Config.hdr) ≤ r.w.bp then r.raise .huffBits r.s.inLen.toNat
  else
    (r.input (Config.hdr + r.w.bp / 8)).bind fun b =>
      .ok (b.getLsbD (7 - r.w.bp % 8),
        { r with w := { r.w with bp := r.w.bp + 1, i := Config.hdr + (r.w.bp + 1) / 8 } })

/-! ## huff.dec -/

/-- `parse_header` (R181). -/
def parseHeader (r : Running) : Flow Running :=
  (readInput r 0 Config.hdr).bind fun bs =>
    .ok { r with w := { r.w with
      hist := fieldNumbers Config.nsym bs
      n := beNumber (bs.drop (Config.nsym * Config.field)) } }

/-- The walk of `decode_symbol` from node `n` on (R182): 0 goes left, 1 goes right, a leaf ends it. The
depth of a tree is below its number of nodes, which `fuel` is. -/
def walkTree : Nat → Nat → Running → Flow (Byte × Running)
  | 0, n, r =>
    match r.w.node[n]? with
    | some (.leaf sym _) => .ok (sym, r)
    | _ => .fault .brokenTree
  | fuel + 1, n, r =>
    match r.w.node[n]? with
    | some (.leaf sym _) => .ok (sym, r)
    | some (.internal _ left right) =>
      (getBit r).bind fun p => walkTree fuel (if p.1 then right else left) p.2
    | none => .fault .brokenTree

/-- `decode_symbol` (R182; R183 for a root that is a leaf, where one bit is taken and not looked at). -/
def decodeSymbol (r : Running) : Flow (Byte × Running) :=
  match r.w.root with
  | none => .fault .brokenTree
  | some n =>
    match r.w.node[n]? with
    | some (.leaf sym _) => (getBit r).bind fun p => .ok (sym, p.2)
    | _ => walkTree r.w.node.length n r

/-- `emit(decode_symbol)` (R180). -/
def symbolPass (cap : Cap) (r : Running) : Flow Running :=
  (decodeSymbol r).bind fun p => emit cap p.1 p.2

/-- The symbol loop of `huff_dec`, from BUILD on (R180). -/
def decodeSymbols (cap : Cap) (r : Running) : Flow Running :=
  if r.w.root = none then r.raise .huffTree 1024
  else
    repeatTimes r.w.n (symbolPass cap) { r with w := { r.w with bp := 0, i := Config.hdr } }

/-- `huff_dec` (R180). -/
def huffDecode (cap : Cap) (r : Running) : Flow Running :=
  if r.s.inLen.toNat < Config.hdr then r.raise .huffHdr r.s.inLen.toNat
  else
    (parseHeader r).bind fun r =>
      if r.w.n = 0 then .ok r
      else decodeSymbols cap { r with w := buildTree r.w }

/-- `huff.dec` (R180, R200). -/
def execHuffDec (s : State) : Host.Outcome State Fault Refusal :=
  issueCoder 0x04#8 Config.bufCap (huffDecode Config.bufCap) s

end Sys2Proof.Machine
end

