-- ==== Sys2Proof/Machine/Rle0.lean ====
section
/-! DEFINITION. The RLE0 family (41_rle0.md): `rle0.enc` (R112, R113), the three tokens as the running
`rle0.dec` executes them, and `rle0.dec` itself (R116). -/

namespace Sys2Proof.Machine

/-! ## rle0.enc -/

/-- The scan for the end of a run (R112): counts on from `k` while the byte at `i + k` is 0x00. -/
def scanRun (r : Running) : Nat → Nat → Flow Nat
  | 0, k => .ok k
  | fuel + 1, k =>
    if r.w.i + k < r.s.inLen.toNat then
      (r.input (r.w.i + k)).bind fun b =>
        if b = Config.runSym then scanRun r fuel (k + 1) else .ok k
    else .ok k

/-- `m` of a run of `k` bytes: floor(log2(k + 1)) (R113). -/
def runBits (k : Nat) : Nat := Nat.log2 (k + 1)

/-- `number` of a run of `k` bytes: k + 1 − 2^m (R113). -/
def runNumber (k : Nat) : Nat := k + 1 - 2 ^ runBits k

/-- `emit_run(k)` (R113): the RUN token for `k`. -/
def emitRun (cap : Cap) (k : Nat) (r : Running) : Flow Running :=
  emitAll cap (runBytes (bitsOf (runNumber k) (runBits k)) .closed)
    { r with w := { r.w with m := runBits k, number := runNumber k } }

/-- One pass of the loop of `rle0.enc` (R112). -/
def rle0EncPass (cap : Cap) (r : Running) : Flow Running :=
  (r.input r.w.i).bind fun b =>
    if b = Config.esc then
      (emitAll cap [Config.esc, Config.tagLit] r).bind fun r => .ok (r.advance 1)
    else if b = Config.runSym then
      (scanRun r r.s.inLen.toNat 1).bind fun k =>
        ((if Config.runMin ≤ k then emitRun cap k else repeatTimes k (emit cap Config.runSym))
          { r with w := { r.w with k := k } }).bind fun r => .ok (r.advance k)
    else (emit cap b r).bind fun r => .ok (r.advance 1)

/-- `rle0_enc` (R112). -/
def rle0Encode (cap : Cap) (r : Running) : Flow Running :=
  scanInput r.s.inLen.toNat (rle0EncPass cap) r

/-- `rle0.enc` (R112, R200). -/
def execRle0Enc (s : State) : Host.Outcome State Fault Refusal :=
  issueCoder 0x01#8 Config.bufCap (rle0Encode Config.bufCap) s

/-! ## The tokens -/

/-- COPY (30_encoding.md R74, 41_rle0.md R116). -/
def copyToken (cap : Cap) (b : Byte) (r : Running) : Flow Running :=
  (emit cap b r).bind fun r => .ok (r.advance 1)

/-- ESCLIT (R75, R116). -/
def escLitToken (cap : Cap) (r : Running) : Flow Running :=
  (emit cap Config.esc r).bind fun r => .ok (r.advance 2)

/-- The working registers after the bit-bytes of a RUN token have been read: `j`, `m`, `number`
(R116). -/
def afterBits (bits : List Bool) (r : Running) : Running :=
  { r with w := { r.w with
    j := r.w.i + 2 + bits.length
    m := bits.length
    number := bitsNumber bits } }

/-- The run length a RUN token stands for: 2^m + number − 1 (R76). -/
def runLength (bits : List Bool) : Nat := 2 ^ bits.length + bitsNumber bits - 1

/-- A well-made RUN token after its bits have been read (R116): emits `k` zeros and moves past the
closing 0x40. -/
def emitZeros (cap : Cap) (k : Nat) (r : Running) : Flow Running :=
  (repeatTimes k (emit cap Config.runSym) { r with w := { r.w with k := k } }).bind fun r =>
    .ok { r with w := { r.w with i := r.w.j + 1 } }

/-- RUN (R76, R116), a malformed one (R79) taking its fault with the position R116 gives. -/
def runToken (cap : Cap) (bits : List Bool) (ending : RunEnd) (r : Running) : Flow Running :=
  match ending with
  | .closed => emitZeros cap (runLength bits) (afterBits bits r)
  | .truncated => (afterBits bits r).raise .rle0Trunc r.w.i
  | .badByte _ => (afterBits bits r).raise .rle0Bit (afterBits bits r).w.j
  | .tooLong _ => (afterBits bits r).raise .rle0Len (afterBits bits r).w.j

/-- COPY, executed by the running command. -/
def execCopy (b : Byte) (s : State) : Host.Outcome State Fault Refusal :=
  onRunning s (copyToken Config.bufCap b)

/-- ESCLIT, executed by the running command. -/
def execEscLit (s : State) : Host.Outcome State Fault Refusal :=
  onRunning s (escLitToken Config.bufCap)

/-- RUN, executed by the running command. -/
def execRun (bits : List Bool) (ending : RunEnd) (s : State) : Host.Outcome State Fault Refusal :=
  onRunning s (runToken Config.bufCap bits ending)

/-! ## rle0.dec -/

/-- A token inside the running command. A command is no token, and the token decoder answers none. -/
def tokenMeaning (cap : Cap) (i : Instr) (r : Running) : Flow Running :=
  match i with
  | .copy b => copyToken cap b r
  | .escLit => escLitToken cap r
  | .run bits ending => runToken cap bits ending r
  | .rle0Enc => .refused .notAToken
  | .rle0Dec => .refused .notAToken
  | .huffEnc => .refused .notAToken
  | .huffDec => .refused .notAToken
  | .xchg => .refused .notAToken
  | .srst => .refused .notAToken
  | .reserved _ => .refused .notAToken

/-- One pass of the loop of `rle0.dec` (R116): the token under the cursor, or `F_RLE0_ESC`. -/
def rle0DecPass (cap : Cap) (r : Running) : Flow Running :=
  match fetchToken r.s r.w.i with
  | .token i => tokenMeaning cap i r
  | .escape => r.raise .rle0Esc r.w.i
  | .undefinedByte => .refused .undefinedByte

/-- `rle0_dec` (R116). -/
def rle0Decode (cap : Cap) (r : Running) : Flow Running :=
  scanInput r.s.inLen.toNat (rle0DecPass cap) r

/-- `rle0.dec` (R116, R200). -/
def execRle0Dec (s : State) : Host.Outcome State Fault Refusal :=
  issueCoder 0x02#8 Config.bufCap (rle0Decode Config.bufCap) s

end Sys2Proof.Machine
end

