-- ==== Sys2Proof/Machine/Dispatch.lean ====
section
/-! DEFINITION. The meaning of every instruction, one arm per constructor of `Instr`. -/

namespace Sys2Proof.Machine

def exec (i : Instr) (s : State) : Host.Outcome State Fault Refusal :=
  match i with
  -- commands: values of the command word (30_encoding.md R71, R72)
  | .rle0Enc => Sys2Proof.Machine.execRle0Enc s
  | .rle0Dec => Sys2Proof.Machine.execRle0Dec s
  | .huffEnc => Sys2Proof.Machine.execHuffEnc s
  | .huffDec => Sys2Proof.Machine.execHuffDec s
  | .xchg => Sys2Proof.Machine.execXchg s
  | .srst => Sys2Proof.Machine.execSrst s
  | .reserved op => Sys2Proof.Machine.execReserved op s
  -- tokens of the running rle0.dec (30_encoding.md R74 to R76)
  | .copy b => Sys2Proof.Machine.execCopy b s
  | .escLit => Sys2Proof.Machine.execEscLit s
  | .run bits ending => Sys2Proof.Machine.execRun bits ending s

end Sys2Proof.Machine
end

