-- ==== Sys2Proof/Machine/HostAccess.lean ====
section
/-! DEFINITION. The two agents (00_scope.md R7): the host's accesses (20_memory.md R51, R52;
70_reset_and_hazards.md R260) and the engine in the middle of `rle0.dec`, one token at a time. -/

namespace Sys2Proof.Machine

/-- A value goes back to the host. -/
def reply (v : Reply) (s : State) : State := { s with replies := v :: s.replies }

/-- An unspecified byte goes back to the host, a fresh one (R52). -/
def replyUnspecified (s : State) : State :=
  { s with replies := .byte (Config.freeByte s.draws) :: s.replies, draws := s.draws + 1 }

/-- `RegWrite(n, v)` (R51): register 0 issues a command; register 4 takes the value unless `STATE` is
FAULT; any other number is ignored. -/
def regWrite (n : Nat) (v : Word) (s : State) : Host.Outcome State Fault Refusal :=
  match n with
  | 0 => exec (decodeCommand v) s
  | 4 => .next (if s.status = .fault then s else { s with inLen := v })
  | _ => .next s

/-- `IbufWrite(a, b)` (R52). -/
def ibufWrite (cap : Cap) (a : Nat) (b : Byte) (s : State) : State :=
  if s.status = .idle ∨ s.status = .done then
    if capHasAddress cap a then { s with ibuf := s.ibuf.write a b } else s
  else s

/-- `IbufRead(a)` (R52). -/
def ibufRead (cap : Cap) (a : Nat) (s : State) : State :=
  match s.ibuf.read a with
  | some b => if capHasAddress cap a then reply (.byte b) s else replyUnspecified s
  | none => replyUnspecified s

/-- `ObufRead(a)` (R52). -/
def obufRead (a : Nat) (s : State) : State :=
  match s.obuf.read a with
  | some b =>
    if s.status = .done ∧ a < s.outLen.toNat then reply (.byte b) s else replyUnspecified s
  | none => replyUnspecified s

/-- One access of the host. -/
def access (x : Access) (s : State) : Host.Outcome State Fault Refusal :=
  match x with
  | .regRead n => .next (reply (.word (readRegister s n)) s)
  | .regWrite n v => regWrite n v s
  | .ibufWrite a b => .next (ibufWrite Config.bufCap a b s)
  | .ibufRead a => .next (ibufRead Config.bufCap a s)
  | .obufRead a => .next (obufRead a s)
  | .reset => .next (resetBlock s)

/-- The host's next access; with none the block waits (70_reset_and_hazards.md R262). -/
def hostStep (s : State) : Host.Outcome State Fault Refusal :=
  match s.pending with
  | [] => .next s
  | x :: rest => access x { s with pending := rest }

/-- The engine in the middle of `rle0.dec`: the token under the cursor, or the end of the command
(41_rle0.md R116). -/
def engineStep (s : State) : Host.Outcome State Fault Refusal :=
  match s.work with
  | none => .refused .noCommand
  | some w =>
    if s.cmd = 0x02#8 then
      if w.i < s.inLen.toNat then
        match fetchToken s w.i with
        | .token i => exec i s
        | .escape => .next (raiseFault .rle0Esc w.i s)
        | .undefinedByte => .refused .undefinedByte
      else .next (finishCommand { s := s, w := w })
    else .refused .midCommand

/-- Whether the next thing the host does is to apply the reset input. -/
def resetComes (s : State) : Bool :=
  match s.pending with
  | .reset :: _ => true
  | _ => false

/-- One transition of the block and its host. The reset input is taken in every state (R260); while a
command runs the engine moves and the host waits (R266); otherwise the host makes its next access. -/
def transition (s : State) : Host.Outcome State Fault Refusal :=
  if resetComes s then hostStep s
  else if s.status = .busy then engineStep s
  else hostStep s

/-! ## Where the next instruction stands -/

/-- The state with a write of `v` to `CMD` as the host's next access and no command in progress. -/
def placeCommand (v : Word) (s : State) : State :=
  let s := if s.status = .busy then { s with status := .idle, work := none } else s
  { s with pending := .regWrite 0 v :: s.pending }

/-- The state in the middle of `rle0.dec` with the byte string `bs` as the rest of the input string. A
state that is in the middle of `rle0.dec` keeps its working state; any other is put at the start of the
command. -/
def placeToken (bs : List Byte) (s : State) : State :=
  let w := if s.status = .busy ∧ s.cmd = 0x02#8 then s.work.getD Work.init else Work.init
  { s with
    cmd := 0x02#8
    status := .busy
    work := some w
    inLen := BitVec.ofNat 32 (w.i + bs.length)
    ibuf := s.ibuf.writeAll w.i bs
    pending := if resetComes s then [] else s.pending }

end Sys2Proof.Machine
end

