-- ==== Sys2Proof/Machine/Step.lean ====
section
/-! DEFINITION. One step of the machine, and where it fetches its next instruction. -/

namespace Sys2Proof.Machine

/-- One step: the reset input, the running engine, or the host's next access. -/
def step (s : State) : Host.Outcome State Fault Refusal := transition s

/-- `s` with the instruction of an opcode-table row as the very next thing `step` runs: a command word is
the host's next access, a token stands under the cursor of a running `rle0.dec`. -/
def State.withFetchWord (s : State) (nbits w : Nat) : State :=
  if nbits = 32 then placeCommand (BitVec.ofNat 32 w) s else placeToken (tableBytes nbits w) s

end Sys2Proof.Machine
end

