-- ==== Sys2Proof/Safety.lean ====
section
/-! DEFINITION. The terms claims are stated in: what the input and the output string of a state are
(00_scope.md R13), the state a finished or a faulted command leaves, the invariant of the machine, and
the transforms of the spec as plain functions on byte strings, written from the rules without the
engine's cursors and buffers. -/

namespace Sys2Proof.Safety

open Sys2Proof.Machine

/-! ## Strings and result states -/

/-- The input string of `s` is `x`: `IN_LEN` is its length and every byte of it is defined (R13, R263). -/
def InputIs (s : State) (x : List Byte) : Prop :=
  s.inLen.toNat = x.length ∧ ∀ a, a < x.length → s.ibuf.read a = x[a]?

/-- The input string of `s` starts with the defined bytes `x`, goes on after them, and its next byte holds
no defined value (R263). -/
structure InputBreaksOff (s : State) (x : List Byte) : Prop where
  defined : ∀ a, a < x.length → s.ibuf.read a = x[a]?
  undefined : s.ibuf.read x.length = none
  goesOn : x.length < s.inLen.toNat

/-- The output string of `s` is `y` (R13). -/
def OutputIs (s : State) (y : List Byte) : Prop :=
  s.outLen.toNat = y.length ∧ ∀ a, a < y.length → s.obuf.read a = y[a]?

/-- The state after command `op` ended without a fault with output string `y`: every byte of `OBUF` at
or above `OUT_LEN` is without a defined value (44_control.md R202, R204). -/
def doneWith (op : Byte) (y : List Byte) (s : State) : State :=
  { s with
    cmd := op
    status := .done
    outLen := BitVec.ofNat 32 y.length
    obuf := Memory.cellsFrom 0 y
    work := none }

/-- The state after command `op` ended with a fault (60_exceptions.md R233). -/
def faultWith (op : Byte) (code : FaultCode) (pos : Nat) (s : State) : State :=
  raiseFault code pos { s with cmd := op }

/-- The state of the block is the same; only what is outside it may differ (the accesses the host has yet
to make, what it got back, the count of free bytes). -/
def SameBlock (s t : State) : Prop :=
  { t with pending := s.pending, replies := s.replies, draws := s.draws } = s

/-! ## The four coders and their codes -/

/-- The coding commands 0x01 to 0x04 with their codes (30_encoding.md R71). -/
def coders : List (Instr × Byte) :=
  [(.rle0Enc, 0x01#8), (.rle0Dec, 0x02#8), (.huffEnc, 0x03#8), (.huffDec, 0x04#8)]

/-- The commands 0x01 to 0x05 with their codes. -/
def lengthChecked : List (Instr × Byte) := coders ++ [(.xchg, 0x05#8)]

/-- The instructions that are RLE0 tokens (30_encoding.md R73). -/
def isToken : Instr → Bool
  | .copy _ => true
  | .escLit => true
  | .run _ _ => true
  | .rle0Enc => false
  | .rle0Dec => false
  | .huffEnc => false
  | .huffDec => false
  | .xchg => false
  | .srst => false
  | .reserved _ => false

/-! ## Invariants -/

/-- R46 (a) to (f), for the capacity of the block. -/
structure HostInv (s : State) : Prop where
  outLenFits : s.outLen.toNat ≤ Config.bufCap.bytes
  faultCode : s.fault = .none ↔ s.status ≠ .fault
  faultPos : s.status ≠ .fault → s.faultPos = 0#32
  notBusy : s.status ≠ .busy
  idleClean : s.status = .idle → s.outLen = 0#32 ∧ s.cmd = 0x00#8
  faultClean : s.status = .fault → s.outLen = 0#32

/-- A buffer in canonical form whose addresses lie below `BUF_CAP` (10_state.md R30, R31). -/
def BufferOk (m : Memory) : Prop := m.wf ∧ ∀ c ∈ m, c.1 < Config.bufCap.bytes

/-- The invariant of the machine, `rle0.dec` in progress included. -/
structure Inv (s : State) : Prop where
  /-- both buffers are in canonical form and inside `BUF_CAP` -/
  ibufOk : BufferOk s.ibuf
  obufOk : BufferOk s.obuf
  /-- R46 (a), (b), (c), (e), (f) -/
  outLenFits : s.outLen.toNat ≤ Config.bufCap.bytes
  faultCode : s.fault = .none ↔ s.status ≠ .fault
  faultPos : s.status ≠ .fault → s.faultPos = 0#32
  idleClean : s.status = .idle → s.outLen = 0#32 ∧ s.cmd = 0x00#8
  faultClean : s.status = .fault → s.outLen = 0#32
  /-- in IDLE and in FAULT no byte of `OBUF` is defined (R45, R233) -/
  obufEmpty : s.status = .idle ∨ s.status = .fault → s.obuf = []
  /-- while a coder runs, and after it, exactly the bytes below `OUT_LEN` are defined (R31, R55) -/
  obufFilled : s.status = .busy ∨ (s.status = .done ∧ s.cmd ≠ 0x05#8) →
    s.obuf.map Prod.fst = List.range s.outLen.toNat
  /-- working state exists exactly while a command runs (R32) -/
  workExists : s.work.isSome ↔ s.status = .busy
  /-- a running command is `rle0.dec`, its length check passed (R201), its cursor inside the input
  string (R33) -/
  running : ∀ w, s.work = some w →
    s.cmd = 0x02#8 ∧ s.inLen.toNat ≤ Config.bufCap.bytes ∧ w.i ≤ s.inLen.toNat

/-! ## RLE0 as functions on byte strings -/

/-- What a maximal run of `k` zeros is coded as (41_rle0.md R112, R113). -/
def codedRun (k : Nat) : List Byte :=
  if k ≤ 5 then List.replicate k 0x00#8
  else
    let m := Nat.log2 (k + 1)
    0x40#8 :: 0x01#8 :: ((bitsOf (k + 1 - 2 ^ m) m).map bitByte ++ [0x40#8])

/-- The RLE0 coding of `x` after `k` zeros that are not coded yet: a run is closed by the next nonzero
byte or by the end (R111). -/
def rle0From : Nat → List Byte → List Byte
  | k, [] => codedRun k
  | k, b :: bs =>
    if b = 0x00#8 then rle0From (k + 1) bs
    else codedRun k ++ (if b = 0x40#8 then [0x40#8, 0x00#8] else [b]) ++ rle0From 0 bs

/-- The RLE0 coding of a byte string (R112). -/
def rle0Of (x : List Byte) : List Byte := rle0From 0 x

/-- Between `a` and `c`, the bytes `u` are what `rle0.enc` codes in one go: one byte other than 0x00, or a
maximal run (41_rle0.md R111, R112). -/
def CodedInOneGo (a u c : List Byte) : Prop :=
  (∃ b, b ≠ 0x00#8 ∧ u = [b]) ∨
  (∃ k, 1 ≤ k ∧ u = List.replicate k 0x00#8 ∧ a.getLast? ≠ some 0x00#8 ∧ c.head? ≠ some 0x00#8)

/-- The number that bits spell, as the sum of 30_encoding.md R76: bit `t` of `m`, from 1 on, counts
2^(m − t). -/
def bitSum : List Bool → Nat
  | [] => 0
  | d :: ds => d.toNat * 2 ^ ds.length + bitSum ds

/-- A well-made token: any COPY or ESCLIT, and a RUN that its closing 0x40 ended (R73). -/
def wellMade (i : Instr) : Bool :=
  match i with
  | .copy _ => i.wf
  | .escLit => true
  | .run _ .closed => i.wf
  | _ => false

/-- The bytes of a token (R74 to R76). -/
def tokenBytes (i : Instr) : List Byte :=
  match encode i with
  | .token bs => bs
  | .command _ => []

/-- What a well-made token stands for (R74 to R76). -/
def tokenOutput (i : Instr) : List Byte :=
  match i with
  | .copy b => [b]
  | .escLit => [0x40#8]
  | .run bits .closed => List.replicate (2 ^ bits.length + bitSum bits - 1) 0x00#8
  | _ => []

/-! ## Huffman coding as functions on byte strings -/

/-- The histogram of a byte string (42_huffman_model.md R140). -/
def histOf (x : List Byte) : List Nat :=
  (List.range 256).map fun s => x.count (BitVec.ofNat 8 s)

/-- The code table of a histogram (R147, R150). -/
def codesOf (hist : List Nat) : List (List Bool) :=
  codeTable (buildArena hist).1 (buildArena hist).2.head?

/-- The number of leaves, L: the byte values with a nonzero count (R143). -/
def leafCount (hist : List Nat) : Nat := (hist.filter fun c => c != 0).length

/-- The leaves of a histogram (R143): ascending byte value, each with its count. -/
def leavesOf (hist : List Nat) : List Node :=
  ((List.range 256).filter fun s => hist.getD s 0 ≠ 0).map
    fun s => Node.leaf (BitVec.ofNat 8 s) (hist.getD s 0)

/-- The byte value of a leaf, by id. -/
def leafSym (node : List Node) (x : Nat) : Nat :=
  match node[x]? with
  | some (.leaf sym _) => sym.toNat
  | some (.internal _ _ _) => 0
  | none => 0

/-- `q` is the initial queue over the leaves `node`: all their ids, ordered by the pair (w, sym) (R144). -/
def InitialQueue (node : List Node) (q : List Nat) : Prop :=
  q.Perm (List.range node.length) ∧
  q.Pairwise fun x y =>
    nodeWeight node x < nodeWeight node y ∨
      (nodeWeight node x = nodeWeight node y ∧ leafSym node x < leafSym node y)

/-- `MergesTo node q node' root`: from the arena `node` and the queue `q`, steps 3 and 4 of the tree builder
end with the arena `node'` and the root `root` (R145, R146). -/
inductive MergesTo : List Node → List Nat → List Node → Option Nat → Prop where
  /-- R146: an empty queue leaves no root -/
  | empty (node : List Node) : MergesTo node [] node none
  /-- R146: one id left is the root -/
  | root (node : List Node) (n : Nat) : MergesTo node [n] node (some n)
  /-- R145: the first two ids `a` and `b` are removed, `a` becomes the left child and `b` the right child of
  a new node of their summed weight, whose id goes behind every id of smaller or equal weight and before
  every id of greater weight -/
  | merge {node node' : List Node} {a b : Nat} {front back : List Nat} {root : Option Nat}
      (lighter : ∀ x ∈ front, nodeWeight node x ≤ nodeWeight node a + nodeWeight node b)
      (heavier : ∀ x ∈ back, nodeWeight node a + nodeWeight node b < nodeWeight node x)
      (rest : MergesTo (node ++ [.internal (nodeWeight node a + nodeWeight node b) a b])
        (front ++ node.length :: back) node' root) :
      MergesTo node (a :: b :: (front ++ back)) node' root

/-- The node that a path leads to from node `n`: false goes left, true goes right (R150). -/
def follow (node : List Node) : Nat → List Bool → Option Nat
  | n, [] => some n
  | n, d :: ds =>
    match node[n]? with
    | some (.internal _ left right) => follow node (if d then right else left) ds
    | some (.leaf _ _) => none
    | none => none

/-- The code bits of a byte string, one code after another (30_encoding.md R83). -/
def codeBits (hist : List Nat) (x : List Byte) : List Bool :=
  x.flatMap (codeOf (codesOf hist))

/-- The byte that at most 8 bits spell, first bit in bit 7, the missing bits 0 (20_memory.md R57, R84). -/
def packByte (ds : List Bool) : Byte :=
  BitVec.ofNat 8 (bitSum (ds ++ List.replicate (8 - ds.length) false))

/-- Packs bits into bytes, first bit in bit 7 of the first byte (R57). -/
def packBytes : List Bool → List Byte
  | a :: b :: c :: d :: e :: f :: g :: h :: rest =>
    packByte [a, b, c, d, e, f, g, h] :: packBytes rest
  | [] => []
  | ds => [packByte ds]

/-- The bits of a byte, bit 7 first. -/
def byteBits (b : Byte) : List Bool :=
  [b.getLsbD 7, b.getLsbD 6, b.getLsbD 5, b.getLsbD 4,
    b.getLsbD 3, b.getLsbD 2, b.getLsbD 1, b.getLsbD 0]

/-- The Huffman payload of a byte string (30_encoding.md R80 to R84). -/
def payloadOf (x : List Byte) : List Byte :=
  (histOf x).flatMap (fun c => beBytes c 4) ++ beBytes x.length 4 ++ packBytes (codeBits (histOf x) x)

/-- The 256 counts of a payload's header (30_encoding.md R81). -/
def headerCounts (p : List Byte) : List Nat :=
  (List.range 256).map fun s => beNumber ((p.drop (4 * s)).take 4)

/-- The symbol count of a payload's header (30_encoding.md R82). -/
def headerSymbols (p : List Byte) : Nat := beNumber ((p.drop 1024).take 4)

/-- The packed bits of a payload (20_memory.md R57). -/
def payloadBits (p : List Byte) : List Bool := (p.drop 1028).flatMap byteBits

end Sys2Proof.Safety
end

