-- ==== Sys2Proof/Certificates/Slice0/Obligations.lean ====
section
/-! DEFINITION. The statements of the model, each a proposition for the provers. Each docstring cites the
rules of spec/ it formalises. -/

open Sys2Proof Sys2Proof.Machine Sys2Proof.Safety

/-! ## Encoding -/

/-- R71, R72, R74 to R76: words and token bytes written out from the encodings decode to what they stand
for (95_test_vectors.md V-C3, V-C4, V-D2, V-D9, V-D18). -/
def Obligations.SpecWordsDecode : Prop :=
  decodeCommand 0xABCDEF01#32 = .rle0Enc ∧
  decodeCommand 0x00000002#32 = .rle0Dec ∧
  decodeCommand 0x00000003#32 = .huffEnc ∧
  decodeCommand 0x00000004#32 = .huffDec ∧
  decodeCommand 0x00000005#32 = .xchg ∧
  decodeCommand 0x000000FF#32 = .srst ∧
  decodeCommand 0x12345606#32 = .reserved 0x06#8 ∧
  decodeToken [0x61#8, 0x40#8] = .ok (.copy 0x61#8) [0x40#8] ∧
  decodeToken [0x40#8, 0x00#8, 0x00#8] = .ok .escLit [0x00#8] ∧
  decodeToken [0x40#8, 0x01#8, 0x01#8, 0x00#8, 0x40#8] = .ok (.run [true, false] .closed) [] ∧
  decodeToken [0x40#8, 0x01#8, 0x01#8, 0x05#8, 0x40#8] =
    .ok (.run [true] (.badByte 0x05#8)) [0x40#8] ∧
  decodeToken [0x40#8, 0x02#8] = .reject (.escapeFollower 0x02#8)

/-- R71 to R79: decoding the encoding of a well-formed instruction gives it back, with every operand at
every value the encoding admits. -/
def Obligations.DecodeInvertsEncode : Prop :=
  ∀ i : Instr, i.wf = true → decode (encode i) = .ok i []

/-- R77, R79, R116: a token's own bytes say where it ends, so decoding it leaves whatever follows it; the one
exception is a RUN that the end of the input string cut off. A RUN ends at its closing 0x40 (R77), at a byte
that is none of 0x00, 0x01, 0x40, or at a 32nd bit-byte (R79, in the order of R116); that the malformed ones
are decoded as tokens is the model's choice (log entry 9). -/
def Obligations.TokenDecodeLeavesTheRest : Prop :=
  ∀ (i : Instr) (bs rest : List Byte), i.wf = true → encode i = .token bs →
    (∀ bits, i ≠ .run bits .truncated) → decodeToken (bs ++ rest) = .ok i rest

/-- R73 to R79: what the token decoder answers is well formed, and the bytes it consumed are that
token's encoding. -/
def Obligations.EncodeInvertsDecodeToken : Prop :=
  ∀ (bs rest : List Byte) (i : Instr), decodeToken bs = .ok i rest →
    i.wf = true ∧ isToken i = true ∧ ∃ cs, encode i = .token cs ∧ bs = cs ++ rest

/-- R71, R72: bits [31:8] of a command word have no effect, and exactly the codes 0x00 and 0x06 to 0xFE
are reserved. -/
def Obligations.CommandWordIsItsLowByte : Prop :=
  (∀ v w : Word, opOf v = opOf w → decodeCommand v = decodeCommand w) ∧
  ∀ v : Word, (∃ op, decodeCommand v = .reserved op) ↔
    (opOf v).toNat = 0 ∨ (6 ≤ (opOf v).toNat ∧ (opOf v).toNat ≤ 0xFE)

/-! ## NumberCodec -/

/-- R102 (with R100, R101, R103): decoding an encoding gives the value modulo 2^(8k), and encoding what a
byte string spells gives it back. -/
def Obligations.NumberCodecContract : Prop :=
  (∀ v k : Nat, 1 ≤ k → k ≤ 8 →
    ∃ bs, beEncode v k = some bs ∧ bs.length = k ∧ beDecode bs = some (v % 2 ^ (8 * k))) ∧
  ∀ bs : List Byte, 1 ≤ bs.length → bs.length ≤ 8 →
    ∃ v, beDecode bs = some v ∧ v < 2 ^ (8 * bs.length) ∧ beEncode v bs.length = some bs

/-! ## Reset and invariants -/

/-- R45: the state after reset, and the initial values a starting command gives its working state. -/
def Obligations.ResetLeavesSpecValues : Prop :=
  State.reset.cmd = 0x00#8 ∧ State.reset.status = .idle ∧ State.reset.fault = .none ∧
  State.reset.faultPos = 0#32 ∧ State.reset.inLen = 0#32 ∧ State.reset.outLen = 0#32 ∧
  (∀ a, State.reset.ibuf.read a = none) ∧ (∀ a, State.reset.obuf.read a = none) ∧
  State.reset.work = none ∧
  ∀ s, (startCommand s).w.i = 0 ∧ (startCommand s).w.k = 0 ∧ (startCommand s).w.m = 0 ∧
    (startCommand s).w.number = 0 ∧ (startCommand s).w.hist = List.replicate 256 0 ∧
    (startCommand s).w.n = 0 ∧ (startCommand s).w.node = [] ∧ (startCommand s).w.q = [] ∧
    (startCommand s).w.root = none ∧ (startCommand s).w.code = List.replicate 256 [] ∧
    (startCommand s).w.acc = 0x00#8 ∧ (startCommand s).w.nacc = 0 ∧ (startCommand s).w.bp = 0

/-- The state after reset meets the invariant of the machine and R46 (a) to (f). -/
def Obligations.ResetMeetsInvariants : Prop := Inv State.reset ∧ HostInv State.reset

/-- Every step keeps the invariant of the machine: canonical buffers inside `BUF_CAP`, the registers'
agreement with `STATE`, which bytes of `OBUF` are defined, and working state exactly while a command runs
(R30, R31, R32, R33, R46). -/
def Obligations.StepKeepsInvariant : Prop :=
  ∀ s t : State, Inv s → step s = .next t → Inv t

/-- R46: (a) to (f) hold after reset and after every command and host access. -/
def Obligations.HostInvariantsHold : Prop :=
  HostInv State.reset ∧ ∀ s t : State, HostInv s → step s = .next t → HostInv t

/-! ## The step -/

/-- R65 (e), R200: when the host's next access is a write of `v` to `CMD` and no command is in progress,
a step is the command that `v` names, run in the state with that access made. That the host is a list of
accesses is the model's choice (log entry 3). -/
def Obligations.StepRunsTheIssuedCommand : Prop :=
  ∀ (s : State) (v : Word) (rest : List Access), s.status ≠ .busy →
    s.pending = .regWrite 0 v :: rest →
    step s = exec (decodeCommand v) { s with pending := rest }

/-- R116: in the middle of `rle0.dec`, with a token under the cursor, a step is that token. That one token
is one step is the model's choice (log entry 5). -/
def Obligations.StepRunsTheFetchedToken : Prop :=
  ∀ (s : State) (w : Work) (i : Instr), s.status = .busy → s.work = some w → s.cmd = 0x02#8 →
    w.i < s.inLen.toNat → (∀ rest, s.pending ≠ .reset :: rest) →
    fetchToken s w.i = .token i → step s = exec i s

/-- R77, R116: where the defined bytes of the input string from address `a` on begin with the encoding of
a well-formed token, that token is what is fetched; a RUN cut off by the end of the input string is
fetched where the input string ends with it. -/
def Obligations.FetchReadsTheTokenUnderTheCursor : Prop :=
  ∀ (s : State) (a : Nat) (i : Instr) (bs : List Byte), i.wf = true → encode i = .token bs →
    (∀ t, t < bs.length → s.ibuf.read (a + t) = bs[t]?) → a + bs.length ≤ s.inLen.toNat →
    (∀ bits, i = .run bits .truncated → a + bs.length = s.inLen.toNat) →
    fetchToken s a = .token i

/-- R203, R116: `rle0.dec` as one transition is its tokens executed one step after another. From the
state in which the command has just started, some number of steps comes to exactly what the command
comes to as one transition. That the machine has those steps as well is the model's choice (log entry
5). -/
def Obligations.Rle0DecIsItsTokensOneByOne : Prop :=
  ∀ s : State, s.status ≠ .fault → s.inLen.toNat ≤ Config.bufCap.bytes →
    (∀ rest, s.pending ≠ .reset :: rest) →
    ∃ n, core.run n (suspend (startCommand { s with cmd := 0x02#8 })) = exec .rle0Dec s

/-! ## Host accesses -/

/-- R51, R23, R25, R26, R231: register reads return the value R23 gives, `STATE` and the fault code as the
numbers of R25 and R231 with every other bit 0, and change nothing; a write to `IN_LEN` is taken
unless `STATE` is FAULT; writes to registers 1, 2, 3, 5 and above are ignored. That replies are kept in a
list, newest first, is the model's choice (log entry 3). -/
def Obligations.RegisterAccess : Prop :=
  ∀ (s : State) (n : Nat) (v : Word) (rest : List Access), s.status ≠ .busy →
    (s.pending = .regRead n :: rest →
      step s = .next { s with
        pending := rest
        replies := .word (
          if n = 0 then s.cmd.setWidth 32
          else if n = 1 then (match s.status with | .idle => 0 | .busy => 1 | .done => 2 | .fault => 3)
          else if n = 2 then
            (match s.fault with
              | .none => 0 | .badCmd => 1 | .inLen => 2 | .outOvf => 3 | .rle0Esc => 4
              | .rle0Trunc => 5 | .rle0Bit => 6 | .rle0Len => 7 | .huffHdr => 8
              | .huffTree => 9 | .huffBits => 10)
          else if n = 3 then s.faultPos
          else if n = 4 then s.inLen
          else if n = 5 then s.outLen
          else 0#32) :: s.replies }) ∧
    (s.pending = .regWrite n v :: rest →
      step s =
        if n = 0 then exec (decodeCommand v) { s with pending := rest }
        else if n = 4 ∧ s.status ≠ .fault then .next { s with pending := rest, inLen := v }
        else .next { s with pending := rest })

/-- R52: the three buffer operations. The unspecified byte of a read is a free value, a fresh one for
each such read; the order in which the free values are drawn is the model's (log entry 4). -/
def Obligations.BufferAccess : Prop :=
  ∀ (s : State) (a : Nat) (b : Byte) (rest : List Access), s.status ≠ .busy →
    (s.pending = .ibufWrite a b :: rest →
      step s = .next (
        if a < Config.bufCap.bytes ∧ s.status ≠ .fault then
          { s with pending := rest, ibuf := s.ibuf.write a b }
        else { s with pending := rest })) ∧
    (s.pending = .ibufRead a :: rest →
      step s = .next (
        if a < Config.bufCap.bytes ∧ (s.ibuf.read a).isSome then
          { s with pending := rest, replies := .byte ((s.ibuf.read a).getD 0#8) :: s.replies }
        else
          { s with
            pending := rest
            replies := .byte (Config.freeByte s.draws) :: s.replies
            draws := s.draws + 1 })) ∧
    (s.pending = .obufRead a :: rest →
      step s = .next (
        if s.status = .done ∧ a < s.outLen.toNat ∧ (s.obuf.read a).isSome then
          { s with pending := rest, replies := .byte ((s.obuf.read a).getD 0#8) :: s.replies }
        else
          { s with
            pending := rest
            replies := .byte (Config.freeByte s.draws) :: s.replies
            draws := s.draws + 1 }))

/-! ## Faults and reset -/

/-- R233: what taking a fault changes and what it leaves, and that the command and the register write end
there. -/
def Obligations.FaultEntry : Prop :=
  ∀ (r : Running) (code : FaultCode) (pos : Nat) (f : Running → Flow Running),
    endCommand ((r.raise code pos : Flow Running).bind f) = .next (raiseFault code pos r.s) ∧
    (raiseFault code pos r.s).status = .fault ∧
    (raiseFault code pos r.s).fault = code ∧
    (raiseFault code pos r.s).faultPos = BitVec.ofNat 32 pos ∧
    (raiseFault code pos r.s).outLen = 0#32 ∧
    (∀ a, (raiseFault code pos r.s).obuf.read a = none) ∧
    (raiseFault code pos r.s).work = none ∧
    (raiseFault code pos r.s).cmd = r.s.cmd ∧
    (raiseFault code pos r.s).inLen = r.s.inLen ∧
    (raiseFault code pos r.s).ibuf = r.s.ibuf

/-- R261, R207, R260: `srst` and the reset input leave the same state, with the block at its reset values,
and both are taken in every state; the reset input also while a command runs. That a reset leaves the
host's side as it is, and that the reset input is one of the host's accesses, are the model's choices (log
entries 11 and 12). -/
def Obligations.SoftResetIsHardwareReset : Prop :=
  ∀ (s : State) (rest : List Access),
    exec .srst s = .next { State.reset with
      pending := s.pending, replies := s.replies, draws := s.draws } ∧
    (s.pending = .reset :: rest → step s = exec .srst { s with pending := rest })

/-- R209, R239, R240: in the FAULT state a step that is no reset leaves the block as it is; each of the two
resets, the reset input and a write of a word with `OP` = 0xFF to `CMD`, brings it to its reset values. -/
def Obligations.FaultStateIgnoresAllButReset : Prop :=
  ∀ s t : State, s.status = .fault → step s = .next t →
    ((∃ rest, s.pending = .reset :: rest ∨ ∃ v, s.pending = .regWrite 0 v :: rest ∧ opOf v = 0xFF#8) →
      SameBlock State.reset t) ∧
    (¬ (∃ rest, s.pending = .reset :: rest ∨ ∃ v, s.pending = .regWrite 0 v :: rest ∧ opOf v = 0xFF#8) →
      SameBlock s t)

/-- R240: once `STATE` is FAULT, no sequence of host accesses other than reset makes the block look
healthy: `STATE`, the code and the position stay. -/
def Obligations.FaultIsKeptUntilReset : Prop :=
  ∀ (n : Nat) (s t : State), s.status = .fault →
    (∀ x ∈ s.pending, x ≠ .reset ∧ ∀ v, x = .regWrite 0 v → opOf v ≠ 0xFF#8) →
    core.run n s = .next t →
    t.status = .fault ∧ t.fault = s.fault ∧ t.faultPos = s.faultPos ∧ SameBlock s t

/-- R205: there is no transition back to IDLE except reset, and none to BUSY is ever seen by the host. -/
def Obligations.OnlyResetLeadsToIdle : Prop :=
  ∀ s t : State, s.status ≠ .busy → step s = .next t →
    t.status ≠ .busy ∧
    (t.status = .idle → s.status = .idle ∨
      ∃ rest, s.pending = .reset :: rest ∨ ∃ v, s.pending = .regWrite 0 v :: rest ∧ opOf v = 0xFF#8)

/-! ## Commands: issue and control -/

/-- R201: the commands 0x01 to 0x05 fault with `F_IN_LEN` at position 0 when `IN_LEN > BUF_CAP`,
whatever the buffers hold. -/
def Obligations.LengthCheckFaults : Prop :=
  ∀ (s : State) (i : Instr) (op : Byte), (i, op) ∈ lengthChecked → s.status ≠ .fault →
    Config.bufCap.bytes < s.inLen.toNat → exec i s = .next (faultWith op .inLen 0 s)

/-- R72, R200, R235: a reserved code written while `STATE` is not FAULT raises `F_BAD_CMD` at position 0,
whatever `IN_LEN` is. -/
def Obligations.ReservedCodesFault : Prop :=
  (∀ v : Word, ((opOf v).toNat = 0 ∨ (6 ≤ (opOf v).toNat ∧ (opOf v).toNat ≤ 0xFE)) →
    decodeCommand v = .reserved (opOf v)) ∧
  ∀ (s : State) (op : Byte), s.status ≠ .fault →
    exec (.reserved op) s = .next (faultWith op .badCmd 0 s)

/-- R206: `xchg` exchanges the buffers, their definedness and the lengths and sets `STATE` to DONE; it
faults with `F_IN_LEN` when `IN_LEN > BUF_CAP`, is ignored in the FAULT state, leaves `IN_LEN` = 0 from
IDLE, and two in a row restore the buffers and lengths. -/
def Obligations.XchgExchanges : Prop :=
  ∀ s : State,
    (s.status = .fault → exec .xchg s = .next s) ∧
    (s.status ≠ .fault → Config.bufCap.bytes < s.inLen.toNat →
      exec .xchg s = .next (faultWith 0x05#8 .inLen 0 s)) ∧
    (s.status ≠ .fault → s.inLen.toNat ≤ Config.bufCap.bytes →
      exec .xchg s = .next { s with
        cmd := 0x05#8
        ibuf := s.obuf
        obuf := s.ibuf
        inLen := s.outLen
        outLen := s.inLen
        status := .done }) ∧
    (∀ t, s.status ≠ .fault → s.inLen.toNat ≤ Config.bufCap.bytes →
      s.outLen.toNat ≤ Config.bufCap.bytes → exec .xchg s = .next t →
      exec .xchg t = .next { s with cmd := 0x05#8, status := .done }) ∧
    (∀ t, s.status = .idle → HostInv s → exec .xchg s = .next t → t.status = .done → t.inLen = 0#32)

/-! ## emit -/

/-- R55: `emit` appends one byte at `OUT_LEN`, or faults with `F_OUT_OVF` at the input cursor when the
buffer is full; every other byte of `OBUF` stays. -/
def Obligations.EmitAppendsOrOverflows : Prop :=
  ∀ (cap : Cap) (b : Byte) (r : Running),
    (r.s.outLen.toNat = cap.bytes → emit cap b r = .ended (raiseFault .outOvf r.w.i r.s)) ∧
    (r.s.outLen.toNat < cap.bytes → ∃ r', emit cap b r = .ok r' ∧ r'.w = r.w ∧
      r'.s = { r.s with obuf := r'.s.obuf, outLen := r'.s.outLen } ∧
      r'.s.outLen.toNat = r.s.outLen.toNat + 1 ∧
      r'.s.obuf.read r.s.outLen.toNat = some b ∧
      ∀ a, a ≠ r.s.outLen.toNat → r'.s.obuf.read a = r.s.obuf.read a)

/-! ## The tokens -/

/-- R74, R75, R116: COPY emits its byte and moves the cursor by one; ESCLIT emits 0x40 and moves it by
two; nothing else changes. -/
def Obligations.CopyAndEscLitComplete : Prop :=
  ∀ (s : State) (w : Work) (b : Byte), s.work = some w → s.outLen.toNat < Config.bufCap.bytes →
    exec (.copy b) s = .next { s with
      obuf := s.obuf.write s.outLen.toNat b
      outLen := s.outLen + 1#32
      work := some { w with i := w.i + 1 } } ∧
    exec .escLit s = .next { s with
      obuf := s.obuf.write s.outLen.toNat 0x40#8
      outLen := s.outLen + 1#32
      work := some { w with i := w.i + 2 } }

/-- R76, R116: a well-made RUN token of `m` bits emits k = 2^m + number − 1 zeros and moves the cursor
past its m + 3 bytes; `k`, `m`, `number` and `j` take the values the pseudocode gives, and nothing else
changes. With m bits k lies from 2^m − 1 to 2^(m+1) − 2. -/
def Obligations.RunTokenEmitsItsZeros : Prop :=
  ∀ (s : State) (w : Work) (bits : List Bool), s.work = some w →
    s.outLen.toNat + (2 ^ bits.length + bitSum bits - 1) ≤ Config.bufCap.bytes →
    2 ^ bits.length - 1 ≤ 2 ^ bits.length + bitSum bits - 1 ∧
    2 ^ bits.length + bitSum bits - 1 ≤ 2 ^ (bits.length + 1) - 2 ∧
    exec (.run bits .closed) s = .next { s with
      obuf := s.obuf.writeAll s.outLen.toNat
        (List.replicate (2 ^ bits.length + bitSum bits - 1) 0x00#8)
      outLen := s.outLen + BitVec.ofNat 32 (2 ^ bits.length + bitSum bits - 1)
      work := some { w with
        i := w.i + bits.length + 3
        j := w.i + 2 + bits.length
        k := 2 ^ bits.length + bitSum bits - 1
        m := bits.length
        number := bitSum bits } }

/-- R116, R232: a malformed RUN token takes its own fault, at the address of the opening 0x40, of the
offending byte, or of the 32nd bit-byte. -/
def Obligations.MalformedRunFaults : Prop :=
  ∀ (s : State) (w : Work) (bits : List Bool) (b : Byte) (d : Bool), s.work = some w →
    exec (.run bits .truncated) s = .next (raiseFault .rle0Trunc w.i s) ∧
    exec (.run bits (.badByte b)) s = .next (raiseFault .rle0Bit (w.i + 2 + bits.length) s) ∧
    (bits.length = 31 →
      exec (.run bits (.tooLong d)) s = .next (raiseFault .rle0Len (w.i + 33) s))

/-- R55, R232: a token whose bytes do not fit ends the command with `F_OUT_OVF` at the address of its
first byte. -/
def Obligations.TokenOverflowFaults : Prop :=
  ∀ (s : State) (w : Work) (b : Byte) (bits : List Bool), s.work = some w →
    s.outLen.toNat ≤ Config.bufCap.bytes →
    (s.outLen.toNat = Config.bufCap.bytes →
      exec (.copy b) s = .next (raiseFault .outOvf w.i s) ∧
      exec .escLit s = .next (raiseFault .outOvf w.i s)) ∧
    (Config.bufCap.bytes < s.outLen.toNat + (2 ^ bits.length + bitSum bits - 1) →
      exec (.run bits .closed) s = .next (raiseFault .outOvf w.i s))

/-- The frame of the three tokens (R53, R54, R116): the input side, `CMD` and what is outside the block
stay; the command goes on with `STATE`, `FAULT` and `FAULT_POS` as they were and every byte of `OBUF`
outside the bytes from the old to the new `OUT_LEN` as it was; or it ended with a fault. -/
def Obligations.TokenFrame : Prop :=
  ∀ (s t : State) (i : Instr), isToken i = true →
    s.outLen.toNat ≤ Config.bufCap.bytes → exec i s = .next t →
    t.cmd = s.cmd ∧ t.inLen = s.inLen ∧ t.ibuf = s.ibuf ∧
    t.pending = s.pending ∧ t.replies = s.replies ∧ t.draws = s.draws ∧
    ((t.status = s.status ∧ t.fault = s.fault ∧ t.faultPos = s.faultPos ∧ t.work.isSome ∧
        s.outLen.toNat ≤ t.outLen.toNat ∧
        ∀ a, (a < s.outLen.toNat ∨ t.outLen.toNat ≤ a) → t.obuf.read a = s.obuf.read a) ∨
      ∃ code pos, code ≠ FaultCode.none ∧ t = raiseFault code pos s)

/-! ## The four coding commands -/

/-- The frame of the commands 0x01 to 0x04 (R202, R233, R234, R204): ignored in the FAULT state; otherwise
`CMD` takes the code, `IBUF`, `IN_LEN` and what is outside the block stay, no working state is left, and
`STATE` is DONE, with `FAULT` and `FAULT_POS` as they were and no byte of `OBUF` at or above `OUT_LEN`
defined, or FAULT, with `OUT_LEN` = 0 and no byte of `OBUF` defined. -/
def Obligations.CoderFrame : Prop :=
  ∀ (s t : State) (i : Instr) (op : Byte), (i, op) ∈ coders → exec i s = .next t →
    (s.status = .fault ∧ t = s) ∨
    (s.status ≠ .fault ∧
      t.cmd = op ∧ t.inLen = s.inLen ∧ t.ibuf = s.ibuf ∧ t.work = none ∧
      t.pending = s.pending ∧ t.replies = s.replies ∧ t.draws = s.draws ∧
      ((t.status = .done ∧ t.fault = s.fault ∧ t.faultPos = s.faultPos ∧
          t.outLen.toNat ≤ Config.bufCap.bytes ∧
          ∀ a, (t.obuf.read a).isSome ↔ a < t.outLen.toNat) ∨
        (t.status = .fault ∧ t.fault ≠ .none ∧ t.outLen = 0#32 ∧ ∀ a, t.obuf.read a = none)))

/-- R6, R122, R191: the result of a coding command depends only on the command, `IN_LEN`, the first
`IN_LEN` bytes of `IBUF` and `BUF_CAP`: two states that agree on these come to the same end, with the same
output, fault code and position, whatever else they hold. -/
def Obligations.ResultDependsOnTheInputOnly : Prop :=
  ∀ (s₁ s₂ t₁ : State) (i : Instr) (op : Byte), (i, op) ∈ coders →
    s₁.status ≠ .fault → s₂.status ≠ .fault → s₁.inLen = s₂.inLen →
    (∀ a, a < s₁.inLen.toNat → s₁.ibuf.read a = s₂.ibuf.read a) →
    exec i s₁ = .next t₁ →
    ∃ t₂, exec i s₂ = .next t₂ ∧ t₂.status = t₁.status ∧ t₂.outLen = t₁.outLen ∧ t₂.obuf = t₁.obuf ∧
      (t₁.status = .fault → t₂.fault = t₁.fault ∧ t₂.faultPos = t₁.faultPos)

/-- R263: a coding command that must read a byte without a defined value is refused; the spec gives such a
run no meaning. That the run stops with that refusal is the model's choice (log entry 2), which R263
advises. `huff.enc` reads every byte below `IN_LEN`, and `huff.dec` every byte below 1028 (where `IN_LEN` is
that large); the RLE0 coders, and `huff.dec` from 1028 on, read byte after byte, so they are refused at the
first undefined byte `x.length` they come to: `rle0.enc` after the bytes `y` and any zeros of an unfinished
run, `rle0.dec` after well-made tokens and any beginning of a token that needs one more byte, `huff.dec`
after the codes of `y` and any beginning of a code that needs one more bit (with one nonzero count, where
every bit is a symbol, after fewer bits than symbols); in each case where the output before it fits. The
last two are over every `BUF_CAP` that R10 allows, and the command of the block is the one with the `BUF_CAP`
of the block. -/
def Obligations.UndefinedInputIsRefused : Prop :=
  (∀ s : State, s.status ≠ .fault → s.inLen.toNat ≤ Config.bufCap.bytes →
    (∀ a, a < s.inLen.toNat → s.ibuf.read a = none → exec .huffEnc s = .refused .undefinedByte) ∧
    (∀ a, a < 1028 → 1028 ≤ s.inLen.toNat → s.ibuf.read a = none →
      exec .huffDec s = .refused .undefinedByte) ∧
    (∀ (y : List Byte) (k : Nat), InputBreaksOff s (y ++ List.replicate k 0x00#8) →
      y.getLast? ≠ some 0x00#8 → (rle0Of y).length ≤ Config.bufCap.bytes →
      exec .rle0Enc s = .refused .undefinedByte) ∧
    ∀ (ts : List Instr) (part : List Byte), InputBreaksOff s (ts.flatMap tokenBytes ++ part) →
      (∀ i ∈ ts, wellMade i = true) → (ts.flatMap tokenOutput).length ≤ Config.bufCap.bytes →
      (part = [] ∨ part = [0x40#8] ∨
        ∃ bits : List Bool, bits.length ≤ 31 ∧ part = 0x40#8 :: 0x01#8 :: bits.map bitByte) →
      exec .rle0Dec s = .refused .undefinedByte) ∧
  (∀ s : State, exec .huffDec s = issueCoder 0x04#8 Config.bufCap (huffDecode Config.bufCap) s) ∧
  ∀ (cap : Cap) (s : State) (p : List Byte) (b : Byte), s.status ≠ .fault →
    s.inLen.toNat ≤ cap.bytes → InputBreaksOff s p → 1028 ≤ p.length →
    (∀ (y : List Byte) (tail : List Bool),
      y.length < headerSymbols p → y.length ≤ cap.bytes →
      (∀ c ∈ y, codeOf (codesOf (headerCounts p)) c ≠ []) →
      payloadBits p = codeBits (headerCounts p) y ++ tail →
      tail <+: codeOf (codesOf (headerCounts p)) b → tail ≠ codeOf (codesOf (headerCounts p)) b →
      issueCoder 0x04#8 cap (huffDecode cap) s = .refused .undefinedByte) ∧
    ((∀ c : Byte, (headerCounts p).getD c.toNat 0 ≠ 0 ↔ c = b) →
      8 * (p.length - 1028) < headerSymbols p → 8 * (p.length - 1028) ≤ cap.bytes →
      issueCoder 0x04#8 cap (huffDecode cap) s = .refused .undefinedByte)

/-! ## rle0.enc -/

/-- R112, R113, R111: on every input string whose coding fits, `rle0.enc` ends with that coding as its
output string. -/
def Obligations.Rle0EncWritesTheCoding : Prop :=
  ∀ (s : State) (x : List Byte), InputIs s x → s.status ≠ .fault →
    x.length ≤ Config.bufCap.bytes → (rle0Of x).length ≤ Config.bufCap.bytes →
    exec .rle0Enc s = .next (doneWith 0x01#8 (rle0Of x) s)

/-- R112, R55, R232: an input string whose coding does not fit makes `rle0.enc` fault with `F_OUT_OVF`, at
the address of the first input byte of the token in hand: the bytes `a` before it have a coding that fits,
and with the bytes `u` of the token (one byte, or a maximal run) the coding does not fit. -/
def Obligations.Rle0EncOverflows : Prop :=
  ∀ (s : State) (x : List Byte), InputIs s x → s.status ≠ .fault →
    x.length ≤ Config.bufCap.bytes → Config.bufCap.bytes < (rle0Of x).length →
    ∃ a u c, x = a ++ u ++ c ∧ CodedInOneGo a u c ∧
      (rle0Of a).length ≤ Config.bufCap.bytes ∧ Config.bufCap.bytes < (rle0Of (a ++ u)).length ∧
      exec .rle0Enc s = .next (faultWith 0x01#8 .outOvf a.length s)

/-- R124: the output of `rle0.enc` has at most twice the length of its input, with equality exactly when
every input byte is 0x40, and `F_OUT_OVF` cannot arise when `IN_LEN ≤ BUF_CAP div 2`. -/
def Obligations.Rle0EncAtMostDoubles : Prop :=
  (∀ x : List Byte, (rle0Of x).length ≤ 2 * x.length ∧
    ((rle0Of x).length = 2 * x.length ↔ ∀ b ∈ x, b = 0x40#8)) ∧
  ∀ (s : State) (x : List Byte), InputIs s x → s.status ≠ .fault →
    x.length ≤ Config.bufCap.bytes / 2 →
    ∃ t, exec .rle0Enc s = .next t ∧ t.status = .done ∧ OutputIs t (rle0Of x)

/-- R123: a run of exactly 5 zeros is copied, a run of exactly 6 is coded as `40 01 01 01 40`, on any
state that holds it. -/
def Obligations.RunThreshold : Prop :=
  ∀ s : State, s.status ≠ .fault →
    (InputIs s (List.replicate 5 0x00#8) →
      exec .rle0Enc s = .next (doneWith 0x01#8 (List.replicate 5 0x00#8) s)) ∧
    (InputIs s (List.replicate 6 0x00#8) →
      exec .rle0Enc s = .next (doneWith 0x01#8 [0x40#8, 0x01#8, 0x01#8, 0x01#8, 0x40#8] s))

/-- R113, R76: for every run length from 6 to 2^32 − 2 the token that is written has m from 2 to 31 and
m + 3 bytes, number < 2^m, and is read as a RUN of exactly that length. -/
def Obligations.WrittenRunTokenSpellsItsLength : Prop :=
  ∀ k : Nat, 6 ≤ k → k ≤ 2 ^ 32 - 2 →
    2 ≤ runBits k ∧ runBits k ≤ 31 ∧ 2 ^ runBits k ≤ k + 1 ∧ k + 1 < 2 ^ (runBits k + 1) ∧
    runNumber k = k + 1 - 2 ^ runBits k ∧ runNumber k < 2 ^ runBits k ∧
    (codedRun k).length = runBits k + 3 ∧
    ∃ bits, decodeToken (codedRun k) = .ok (.run bits .closed) [] ∧ bits.length = runBits k ∧
      bitSum bits = runNumber k ∧ 2 ^ bits.length + bitSum bits - 1 = k

/-! ## rle0.dec -/

/-- R73 to R76, R78, R116: on every string of well-made tokens whose meaning fits, also of tokens that the
encoder never makes, `rle0.dec` ends with the concatenation of the tokens' meanings. -/
def Obligations.Rle0DecWritesTheMeaning : Prop :=
  ∀ (s : State) (ts : List Instr), (∀ i ∈ ts, wellMade i = true) →
    InputIs s (ts.flatMap tokenBytes) → s.status ≠ .fault →
    (ts.flatMap tokenBytes).length ≤ Config.bufCap.bytes →
    (ts.flatMap tokenOutput).length ≤ Config.bufCap.bytes →
    exec .rle0Dec s = .next (doneWith 0x02#8 (ts.flatMap tokenOutput) s)

/-- R79: each malformed byte sequence, after any well-made tokens whose meaning fits, makes `rle0.dec`
raise the fault the table gives, at the position R232 gives. -/
def Obligations.MalformedStringsFault : Prop :=
  ∀ (s : State) (ts : List Instr) (bits : List Bool) (b : Byte) (d : Bool) (rest : List Byte),
    (∀ i ∈ ts, wellMade i = true) → s.status ≠ .fault →
    s.inLen.toNat ≤ Config.bufCap.bytes →
    (ts.flatMap tokenOutput).length ≤ Config.bufCap.bytes → bits.length ≤ 31 →
    (InputIs s (ts.flatMap tokenBytes ++ [0x40#8]) →
      exec .rle0Dec s =
        .next (faultWith 0x02#8 .rle0Esc (ts.flatMap tokenBytes).length s)) ∧
    (InputIs s (ts.flatMap tokenBytes ++ 0x40#8 :: b :: rest) → b ≠ 0x00#8 → b ≠ 0x01#8 →
      exec .rle0Dec s =
        .next (faultWith 0x02#8 .rle0Esc (ts.flatMap tokenBytes).length s)) ∧
    (InputIs s (ts.flatMap tokenBytes ++ 0x40#8 :: 0x01#8 :: bits.map bitByte) →
      exec .rle0Dec s =
        .next (faultWith 0x02#8 .rle0Trunc (ts.flatMap tokenBytes).length s)) ∧
    (InputIs s (ts.flatMap tokenBytes ++ 0x40#8 :: 0x01#8 :: (bits.map bitByte ++ b :: rest)) →
      b ≠ 0x00#8 → b ≠ 0x01#8 → b ≠ 0x40#8 →
      exec .rle0Dec s =
        .next (faultWith 0x02#8 .rle0Bit ((ts.flatMap tokenBytes).length + 2 + bits.length) s)) ∧
    (InputIs s
        (ts.flatMap tokenBytes ++ 0x40#8 :: 0x01#8 :: (bits.map bitByte ++ bitByte d :: rest)) →
      bits.length = 31 →
      exec .rle0Dec s =
        .next (faultWith 0x02#8 .rle0Len ((ts.flatMap tokenBytes).length + 33) s))

/-- R118: `rle0.dec` applied to the output of `rle0.enc` on `x` ends in DONE with output string `x`. -/
def Obligations.Rle0RoundTrip : Prop :=
  ∀ (s : State) (x : List Byte), InputIs s x → s.status ≠ .fault →
    x.length ≤ Config.bufCap.bytes → (rle0Of x).length ≤ Config.bufCap.bytes →
    ∃ t₁ t₂ t₃, exec .rle0Enc s = .next t₁ ∧ t₁.status = .done ∧ OutputIs t₁ (rle0Of x) ∧
      exec .xchg t₁ = .next t₂ ∧ InputIs t₂ (rle0Of x) ∧
      exec .rle0Dec t₂ = .next t₃ ∧ t₃.status = .done ∧ OutputIs t₃ x

/-! ## The Huffman model -/

/-- R140: the histogram of a defined input string holds, for each byte value, how often it occurs; nothing
else changes, and the counters sum to `IN_LEN`. -/
def Obligations.HistogramCounts : Prop :=
  ∀ (r : Running) (x : List Byte), InputIs r.s x →
    computeHistogram r = .ok { r with w := { r.w with
      hist := (List.range 256).map fun s => x.count (BitVec.ofNat 8 s) } } ∧
    ((List.range 256).map fun s => x.count (BitVec.ofNat 8 s)).sum = x.length

/-- R143 to R146: the tree is built from the leaves in ascending byte value with their counts, from the
initial queue ordered by (w, sym), by merging the two front ids again and again, the first as the left child
and the second as the right child of a node that goes behind its equals, until one id is left, the root. So
with L leaves, L ≥ 1, the arena has 2L − 1 nodes, the ids below L are the leaves, the others are internal
nodes whose children have smaller ids, and the root is 2L − 2; with L = 0 there is no node and no root. The
code table is the one of this tree. -/
def Obligations.TreeShape : Prop :=
  ∀ w : Work, w.hist.length = 256 →
    InitialQueue (leavesOf w.hist)
      (sortIds (leavesOf w.hist) (List.range (leavesOf w.hist).length)) ∧
    MergesTo (leavesOf w.hist) (sortIds (leavesOf w.hist) (List.range (leavesOf w.hist).length))
      (buildTree w).node (buildTree w).root ∧
    (deriveCodes (buildTree w)).code = codesOf w.hist ∧
    (leafCount w.hist = 0 → (buildTree w).node = [] ∧ (buildTree w).root = none) ∧
    (1 ≤ leafCount w.hist →
      (buildTree w).node.length = 2 * leafCount w.hist - 1 ∧
      (buildTree w).root = some (2 * leafCount w.hist - 2) ∧
      (buildTree w).node.take (leafCount w.hist) = leavesOf w.hist ∧
      ∀ id, leafCount w.hist ≤ id → id < 2 * leafCount w.hist - 1 →
        ∃ l r, (buildTree w).node[id]? =
            some (.internal (nodeWeight (buildTree w).node l + nodeWeight (buildTree w).node r) l r) ∧
          l < id ∧ r < id ∧ l ≠ r)

/-- R145 item 3, R148: inserting a node keeps the queue ascending by weight, and places it behind every
queued node of smaller or equal weight and before every node of greater weight. -/
def Obligations.InsertionKeepsTheQueueAscending : Prop :=
  ∀ (node : List Node) (n : Nat) (q : List Nat),
    q.Pairwise (fun x y => nodeWeight node x ≤ nodeWeight node y) →
    ∃ front back, q = front ++ back ∧ insertNode node n q = front ++ n :: back ∧
      (∀ x ∈ front, nodeWeight node x ≤ nodeWeight node n) ∧
      (∀ x ∈ back, nodeWeight node n < nodeWeight node x) ∧
      (insertNode node n q).Pairwise (fun x y => nodeWeight node x ≤ nodeWeight node y)

/-- R37, R105: every weight of the tree fits 40 bits when every count fits 32, so that the natural numbers
of the model give what the widths of R37 give. -/
def Obligations.WeightsFitFortyBits : Prop :=
  ∀ w : Work, w.hist.length = 256 → (∀ c ∈ w.hist, c < 2 ^ 32) →
    ∀ n ∈ (buildTree w).node, n.weight < 2 ^ 40

/-- R156: the arena, the root and the code table of "abracadabra". -/
def Obligations.AbracadabraTree : Prop :=
  ∀ w : Work, w.hist = histOf [0x61#8, 0x62#8, 0x72#8, 0x61#8, 0x63#8, 0x61#8, 0x64#8, 0x61#8,
      0x62#8, 0x72#8, 0x61#8] →
    (buildTree w).node = [.leaf 0x61#8 5, .leaf 0x62#8 2, .leaf 0x63#8 1, .leaf 0x64#8 1,
      .leaf 0x72#8 2, .internal 2 2 3, .internal 4 1 4, .internal 6 5 6, .internal 11 0 7] ∧
    (buildTree w).root = some 8 ∧
    codeOf (deriveCodes (buildTree w)).code 0x61#8 = [false] ∧
    codeOf (deriveCodes (buildTree w)).code 0x62#8 = [true, true, false] ∧
    codeOf (deriveCodes (buildTree w)).code 0x63#8 = [true, false, false] ∧
    codeOf (deriveCodes (buildTree w)).code 0x64#8 = [true, false, true] ∧
    codeOf (deriveCodes (buildTree w)).code 0x72#8 = [true, true, true]

/-- R151, R152: a histogram with one nonzero count gives that byte value the code `0` and no other byte
value a code; an all-zero histogram gives no code. -/
def Obligations.DegenerateCodeTables : Prop :=
  ∀ (hist : List Nat) (s : Byte), hist.length = 256 →
    ((∀ b : Byte, hist.getD b.toNat 0 ≠ 0 ↔ b = s) →
      codeOf (codesOf hist) s = [false] ∧ ∀ b : Byte, b ≠ s → codeOf (codesOf hist) b = []) ∧
    ((∀ b : Byte, hist.getD b.toNat 0 = 0) → codeOf (codesOf hist) s = [])

/-- R150, R153 (a), (b), (d), R87: with L ≥ 2 distinct byte values exactly the byte values that occur have a
code, and it is the path from the root to the leaf of the byte value, 0 for left and 1 for right; no code is
a prefix of another, and every code has 1 to L − 1 bits. -/
def Obligations.CodesArePrefixFree : Prop :=
  ∀ hist : List Nat, hist.length = 256 → 2 ≤ leafCount hist →
    (∀ s : Byte, codeOf (codesOf hist) s ≠ [] ↔ hist.getD s.toNat 0 ≠ 0) ∧
    (∀ s : Byte, hist.getD s.toNat 0 ≠ 0 → ∃ root n, (buildArena hist).2 = [root] ∧
      follow (buildArena hist).1 root (codeOf (codesOf hist) s) = some n ∧
      (buildArena hist).1[n]? = some (.leaf s (hist.getD s.toNat 0))) ∧
    (∀ s : Byte, (codeOf (codesOf hist) s).length ≤ leafCount hist - 1) ∧
    (∀ s t : Byte, s ≠ t → codeOf (codesOf hist) s ≠ [] →
      ¬ (codeOf (codesOf hist) s <+: codeOf (codesOf hist) t))

/-- R153 (c): with L ≥ 2 the code is complete: every bit string of 255 bits or more starts with the code
of some byte value. -/
def Obligations.CodesAreComplete : Prop :=
  ∀ (hist : List Nat) (ds : List Bool), hist.length = 256 → 2 ≤ leafCount hist → 255 ≤ ds.length →
    ∃ s : Byte, codeOf (codesOf hist) s ≠ [] ∧ codeOf (codesOf hist) s <+: ds

/-! ## The Huffman codec -/

/-- R170, R57: from a byte boundary, eight bits are appended as one byte, the first bit in bit 7. -/
def Obligations.EightBitsMakeAByte : Prop :=
  ∀ (cap : Cap) (b : Byte) (r : Running), r.w.acc = 0x00#8 → r.w.nacc = 0 →
    putBits cap (byteBits b) r =
      (emit cap b { r with w := { r.w with acc := b, nacc := 7 } }).bind fun r' =>
        .ok { r' with w := { r'.w with acc := 0x00#8, nacc := 0 } }

/-- R172: `get_bit` takes bit 7 − (`BP` mod 8) of the byte at 1028 + `BP` div 8 and moves both cursors on;
with no bit left it raises `F_HUFF_BITS` at `IN_LEN`. -/
def Obligations.GetBitReadsTheNextBit : Prop :=
  ∀ (r : Running) (b : Byte),
    (8 * (r.s.inLen.toNat - 1028) ≤ r.w.bp →
      getBit r = .ended (raiseFault .huffBits r.s.inLen.toNat r.s)) ∧
    (r.w.bp < 8 * (r.s.inLen.toNat - 1028) → r.s.ibuf.read (1028 + r.w.bp / 8) = some b →
      getBit r = .ok ((byteBits b).getD (r.w.bp % 8) false,
        { r with w := { r.w with bp := r.w.bp + 1, i := 1028 + (r.w.bp + 1) / 8 } }))

/-- R175 to R177, R80 to R84: on every input string whose payload fits, `huff.enc` ends with that payload
as its output string. -/
def Obligations.HuffEncWritesThePayload : Prop :=
  ∀ (s : State) (x : List Byte), InputIs s x → s.status ≠ .fault →
    x.length ≤ Config.bufCap.bytes → (payloadOf x).length ≤ Config.bufCap.bytes →
    exec .huffEnc s = .next (doneWith 0x03#8 (payloadOf x) s)

/-- R175, R57, R232: an input string whose payload does not fit makes `huff.enc` fault with `F_OUT_OVF`, for every
`BUF_CAP` that R10 allows; the command of the block is the one with the `BUF_CAP` of the block. The packed
byte that does not fit is the one after `BUF_CAP` − 1028 others, and its last bit has number
8 (`BUF_CAP` − 1028) + 7. The position is the address of the input byte `b` whose code holds that bit, or, where
the code bits end before it, `IN_LEN`, in `flush`. -/
def Obligations.HuffEncOverflows : Prop :=
  (∀ s : State, exec .huffEnc s = issueCoder 0x03#8 Config.bufCap (huffEncode Config.bufCap) s) ∧
  ∀ (cap : Cap) (s : State) (x : List Byte), InputIs s x → s.status ≠ .fault →
    x.length ≤ cap.bytes → cap.bytes < (payloadOf x).length →
    ((codeBits (histOf x) x).length ≤ 8 * (cap.bytes - 1028) + 7 ∧
      issueCoder 0x03#8 cap (huffEncode cap) s = .next (faultWith 0x03#8 .outOvf x.length s)) ∨
    ∃ a b c, x = a ++ b :: c ∧
      (codeBits (histOf x) a).length ≤ 8 * (cap.bytes - 1028) + 7 ∧
      8 * (cap.bytes - 1028) + 7 < (codeBits (histOf x) (a ++ [b])).length ∧
      issueCoder 0x03#8 cap (huffEncode cap) s = .next (faultWith 0x03#8 .outOvf a.length s)

/-- R187: a payload has 1028 + (T + 7) div 8 bytes, T the number of code bits, and N ≤ T ≤ 255 N. -/
def Obligations.PayloadSize : Prop :=
  ∀ x : List Byte,
    (payloadOf x).length = 1028 + ((codeBits (histOf x) x).length + 7) / 8 ∧
    x.length ≤ (codeBits (histOf x) x).length ∧ (codeBits (histOf x) x).length ≤ 255 * x.length

/-- R185: with a symbol count of 0 the output is empty and `STATE` is DONE, whatever the counts and
whatever follows the header. -/
def Obligations.HuffDecOfZeroSymbols : Prop :=
  ∀ (s : State) (p : List Byte), InputIs s p → s.status ≠ .fault → 1028 ≤ p.length →
    p.length ≤ Config.bufCap.bytes → headerSymbols p = 0 →
    exec .huffDec s = .next (doneWith 0x04#8 [] s)

/-- R180, R182, R184, R85, R232: on a payload whose bits begin with the codes of `y`, as many symbols as the
count says, by the code table of the header's counts, `huff.dec` ends with output string `y`, whatever
bits and bytes follow and whatever the counts sum to. Where the count asks for more symbols than fit, it
faults with `F_OUT_OVF` at 1028 + `BP` div 8, `BP` being the number of bits of the first `BUF_CAP` + 1 symbols,
for every `BUF_CAP` that R10 allows; the command of the block is the one with the `BUF_CAP` of the block. -/
def Obligations.HuffDecWritesTheSymbols : Prop :=
  (∀ (s : State) (p y : List Byte), InputIs s p → s.status ≠ .fault → 1028 ≤ p.length →
    p.length ≤ Config.bufCap.bytes → y.length ≤ Config.bufCap.bytes → headerSymbols p = y.length →
    (∀ b ∈ y, codeOf (codesOf (headerCounts p)) b ≠ []) →
    codeBits (headerCounts p) y <+: payloadBits p →
    exec .huffDec s = .next (doneWith 0x04#8 y s)) ∧
  (∀ s : State, exec .huffDec s = issueCoder 0x04#8 Config.bufCap (huffDecode Config.bufCap) s) ∧
  ∀ (cap : Cap) (s : State) (p y : List Byte), InputIs s p → s.status ≠ .fault → 1028 ≤ p.length →
    p.length ≤ cap.bytes → y.length = cap.bytes + 1 → y.length ≤ headerSymbols p →
    (∀ b ∈ y, codeOf (codesOf (headerCounts p)) b ≠ []) →
    codeBits (headerCounts p) y <+: payloadBits p →
    issueCoder 0x04#8 cap (huffDecode cap) s =
      .next (faultWith 0x04#8 .outOvf (1028 + (codeBits (headerCounts p) y).length / 8) s)

/-- R183, R180, R232: with one nonzero count, for byte value `b`, each symbol takes one bit that is not looked
at: the output is the symbol count times `b`; where that does not fit and the bits last, `F_OUT_OVF` is
raised after `BUF_CAP` + 1 bits, for every `BUF_CAP` that R10 allows; the command of the block is the one with
the `BUF_CAP` of the block. -/
def Obligations.HuffDecOfOneSymbol : Prop :=
  (∀ (s : State) (p : List Byte) (b : Byte), InputIs s p → s.status ≠ .fault → 1028 ≤ p.length →
    p.length ≤ Config.bufCap.bytes → headerSymbols p ≤ Config.bufCap.bytes →
    (∀ c : Byte, (headerCounts p).getD c.toNat 0 ≠ 0 ↔ c = b) →
    headerSymbols p ≤ 8 * (p.length - 1028) →
    exec .huffDec s = .next (doneWith 0x04#8 (List.replicate (headerSymbols p) b) s)) ∧
  (∀ s : State, exec .huffDec s = issueCoder 0x04#8 Config.bufCap (huffDecode Config.bufCap) s) ∧
  ∀ (cap : Cap) (s : State) (p : List Byte) (b : Byte), InputIs s p → s.status ≠ .fault →
    1028 ≤ p.length → p.length ≤ cap.bytes → cap.bytes < headerSymbols p →
    (∀ c : Byte, (headerCounts p).getD c.toNat 0 ≠ 0 ↔ c = b) →
    cap.bytes < 8 * (p.length - 1028) →
    issueCoder 0x04#8 cap (huffDecode cap) s =
      .next (faultWith 0x04#8 .outOvf (1028 + (cap.bytes + 1) / 8) s)

/-- R86, R180: the three malformed payloads with their faults and positions: shorter than the header; a
positive symbol count with no nonzero count; bits that end inside or before a code although symbols are
missing (with one nonzero count, where every bit is a symbol, fewer bits than symbols). -/
def Obligations.MalformedPayloadsFault : Prop :=
  ∀ (s : State) (p : List Byte), InputIs s p → s.status ≠ .fault →
    p.length ≤ Config.bufCap.bytes →
    (p.length < 1028 → exec .huffDec s = .next (faultWith 0x04#8 .huffHdr p.length s)) ∧
    (1028 ≤ p.length → 0 < headerSymbols p → (∀ c ∈ headerCounts p, c = 0) →
      exec .huffDec s = .next (faultWith 0x04#8 .huffTree 1024 s)) ∧
    (∀ (y : List Byte) (tail : List Bool) (b : Byte), 1028 ≤ p.length →
      y.length < headerSymbols p → y.length ≤ Config.bufCap.bytes →
      (∀ c ∈ y, codeOf (codesOf (headerCounts p)) c ≠ []) →
      payloadBits p = codeBits (headerCounts p) y ++ tail →
      tail <+: codeOf (codesOf (headerCounts p)) b → tail ≠ codeOf (codesOf (headerCounts p)) b →
      exec .huffDec s = .next (faultWith 0x04#8 .huffBits p.length s)) ∧
    (∀ b : Byte, 1028 ≤ p.length → (∀ c : Byte, (headerCounts p).getD c.toNat 0 ≠ 0 ↔ c = b) →
      8 * (p.length - 1028) < headerSymbols p → 8 * (p.length - 1028) ≤ Config.bufCap.bytes →
      exec .huffDec s = .next (faultWith 0x04#8 .huffBits p.length s))

/-- R186: `huff.dec` applied to the output of `huff.enc` on `x` ends in DONE with output string `x`. -/
def Obligations.HuffmanRoundTrip : Prop :=
  ∀ (s : State) (x : List Byte), InputIs s x → s.status ≠ .fault →
    x.length ≤ Config.bufCap.bytes →
    1028 + ((codeBits (histOf x) x).length + 7) / 8 ≤ Config.bufCap.bytes →
    ∃ t₁ t₂ t₃, exec .huffEnc s = .next t₁ ∧ t₁.status = .done ∧ OutputIs t₁ (payloadOf x) ∧
      exec .xchg t₁ = .next t₂ ∧ InputIs t₂ (payloadOf x) ∧
      exec .huffDec t₂ = .next t₃ ∧ t₃.status = .done ∧ OutputIs t₃ x

/-- R211: if no command of `compress` (`rle0.enc`, `xchg`, `huff.enc`) faults, it leaves the payload of the
coding of `x`; with that payload loaded, `expand` (`huff.dec`, `xchg`, `rle0.dec`) leaves `x`; after a
fault the later commands of a chain are ignored. -/
def Obligations.CompressThenExpand : Prop :=
  (∀ (s t₁ t₂ t₃ : State) (x : List Byte), InputIs s x → s.status ≠ .fault →
    x.length ≤ Config.bufCap.bytes →
    exec .rle0Enc s = .next t₁ → t₁.status = .done →
    exec .xchg t₁ = .next t₂ → exec .huffEnc t₂ = .next t₃ → t₃.status = .done →
    OutputIs t₃ (payloadOf (rle0Of x)) ∧
    ∀ u : State, InputIs u (payloadOf (rle0Of x)) → u.status ≠ .fault →
      ∃ u₁ u₂ u₃, exec .huffDec u = .next u₁ ∧ u₁.status = .done ∧ exec .xchg u₁ = .next u₂ ∧
        exec .rle0Dec u₂ = .next u₃ ∧ u₃.status = .done ∧ OutputIs u₃ x) ∧
  ∀ t : State, t.status = .fault →
    exec .xchg t = .next t ∧ exec .huffEnc t = .next t ∧ exec .rle0Dec t = .next t
end

