-- ==== Sys2Proof/Laws/Decode.lean ====
section
/-! SUPPORT. What the reading of a RUN token comes to, said once: for the spelling of each ending, and
backwards from any reading. -/

namespace Sys2Proof

theorem readRun_bit (d : Bool) (ds : List Byte) (room : Nat) :
    readRun (room + 1) (bitByte d :: ds) =
      (d :: (readRun room ds).1, (readRun room ds).2.1, (readRun room ds).2.2) := by
  cases d <;> rfl

theorem readRun_closed (bits : List Bool) (rest : List Byte) (room : Nat) (h : bits.length ≤ room) :
    readRun room (bits.map bitByte ++ Config.esc :: rest) = (bits, .closed, rest) := by
  induction bits generalizing room with
  | nil => cases room <;> rfl
  | cons d ds ih =>
    cases room with
    | zero => simp at h
    | succ room => rw [List.map_cons, List.cons_append, readRun_bit, ih room (by simpa using h)]

theorem readRun_truncated (bits : List Bool) (room : Nat) (h : bits.length ≤ room) :
    readRun room (bits.map bitByte) = (bits, .truncated, []) := by
  induction bits generalizing room with
  | nil => cases room <;> rfl
  | cons d ds ih =>
    cases room with
    | zero => simp at h
    | succ room => rw [List.map_cons, readRun_bit, ih room (by simpa using h)]

theorem readRun_badByte (bits : List Bool) (b : Byte) (rest : List Byte) (room : Nat)
    (hb : 1 < b.toNat) (he : b ≠ Config.esc) (h : bits.length ≤ room) :
    readRun room (bits.map bitByte ++ b :: rest) = (bits, .badByte b, rest) := by
  induction bits generalizing room with
  | nil => cases room <;> simp [readRun, he, hb]
  | cons d ds ih =>
    cases room with
    | zero => simp at h
    | succ room => rw [List.map_cons, List.cons_append, readRun_bit, ih room (by simpa using h)]

theorem readRun_tooLong (bits : List Bool) (d : Bool) (rest : List Byte) :
    readRun bits.length (bits.map bitByte ++ bitByte d :: rest) = (bits, .tooLong d, rest) := by
  induction bits with
  | nil => cases d <;> rfl
  | cons d ds ih => rw [List.length_cons, List.map_cons, List.cons_append, readRun_bit, ih]

/-- A byte that is at most 1 is the bit-byte of its bit. -/
theorem bitByte_of_le_one (d : Byte) (h : ¬ 1 < d.toNat) : bitByte (d == 0x01#8) = d := by
  have h' : d.toNat = 0 ∨ d.toNat = 1 := by omega
  rcases h' with h' | h'
  · have e : d = 0#8 := BitVec.eq_of_toNat_eq (by simpa using h')
    subst e; rfl
  · have e : d = 1#8 := BitVec.eq_of_toNat_eq (by simpa using h')
    subst e; rfl

/-- The bits a RUN token has room for. -/
theorem RunEnd.wf_bits {e : RunEnd} {m : Nat} (h : e.wf m = true) : m ≤ Config.runBitsMax := by
  cases e <;> simp [RunEnd.wf] at h <;> omega

/-- Backwards: what was read is the spelling of the bits and of the ending, and nothing is left over after
an end of the input. -/
theorem readRun_inv (bs : List Byte) (room : Nat) :
    (readRun room bs).1.length ≤ room ∧
    (∀ b, (readRun room bs).2.1 = .badByte b → 1 < b.toNat ∧ b ≠ Config.esc) ∧
    (∀ d, (readRun room bs).2.1 = .tooLong d → (readRun room bs).1.length = room) ∧
    ((readRun room bs).2.1 = .truncated → (readRun room bs).2.2 = []) ∧
    bs = (readRun room bs).1.map bitByte ++ runTail (readRun room bs).2.1 ++ (readRun room bs).2.2 := by
  induction bs generalizing room with
  | nil => cases room <;> simp [readRun, runTail]
  | cons d ds ih =>
    unfold readRun
    split
    · rename_i hd; simp [runTail, hd]
    · split
      · rename_i h1 h2; simp [runTail, h1, h2]
      · rename_i h1 h2
        have hd := bitByte_of_le_one d h2
        cases room with
        | zero => simp [runTail, hd]
        | succ room =>
          obtain ⟨h3, h4, h5, h6, h7⟩ := ih room
          refine ⟨by simpa using h3, h4, by simpa using h5, h6, ?_⟩
          simp only [List.map_cons, hd, List.cons_append, List.cons.injEq, true_and]
          exact h7

end Sys2Proof
end

