-- ==== Sys2Proof/Laws/State.lean ====
section
/-! SUPPORT. One lemma per field per update of the state, true by rfl, so that no proof unfolds a record
update. -/

namespace Sys2Proof.Machine

/-! ## raiseFault (60_exceptions.md R233) -/

@[simp] theorem raiseFault_cmd (code : FaultCode) (pos : Nat) (s : State) : (raiseFault code pos s).cmd = s.cmd := rfl
@[simp] theorem raiseFault_status (code : FaultCode) (pos : Nat) (s : State) : (raiseFault code pos s).status = .fault := rfl
@[simp] theorem raiseFault_fault (code : FaultCode) (pos : Nat) (s : State) : (raiseFault code pos s).fault = code := rfl
@[simp] theorem raiseFault_faultPos (code : FaultCode) (pos : Nat) (s : State) : (raiseFault code pos s).faultPos = BitVec.ofNat 32 pos := rfl
@[simp] theorem raiseFault_inLen (code : FaultCode) (pos : Nat) (s : State) : (raiseFault code pos s).inLen = s.inLen := rfl
@[simp] theorem raiseFault_outLen (code : FaultCode) (pos : Nat) (s : State) : (raiseFault code pos s).outLen = 0#32 := rfl
@[simp] theorem raiseFault_ibuf (code : FaultCode) (pos : Nat) (s : State) : (raiseFault code pos s).ibuf = s.ibuf := rfl
@[simp] theorem raiseFault_obuf (code : FaultCode) (pos : Nat) (s : State) : (raiseFault code pos s).obuf = [] := rfl
@[simp] theorem raiseFault_work (code : FaultCode) (pos : Nat) (s : State) : (raiseFault code pos s).work = none := rfl
@[simp] theorem raiseFault_pending (code : FaultCode) (pos : Nat) (s : State) : (raiseFault code pos s).pending = s.pending := rfl
@[simp] theorem raiseFault_replies (code : FaultCode) (pos : Nat) (s : State) : (raiseFault code pos s).replies = s.replies := rfl
@[simp] theorem raiseFault_draws (code : FaultCode) (pos : Nat) (s : State) : (raiseFault code pos s).draws = s.draws := rfl

/-! ## resetBlock (44_control.md R207) -/

@[simp] theorem resetBlock_cmd (s : State) : (resetBlock s).cmd = 0x00#8 := rfl
@[simp] theorem resetBlock_status (s : State) : (resetBlock s).status = .idle := rfl
@[simp] theorem resetBlock_fault (s : State) : (resetBlock s).fault = .none := rfl
@[simp] theorem resetBlock_faultPos (s : State) : (resetBlock s).faultPos = 0#32 := rfl
@[simp] theorem resetBlock_inLen (s : State) : (resetBlock s).inLen = 0#32 := rfl
@[simp] theorem resetBlock_outLen (s : State) : (resetBlock s).outLen = 0#32 := rfl
@[simp] theorem resetBlock_ibuf (s : State) : (resetBlock s).ibuf = [] := rfl
@[simp] theorem resetBlock_obuf (s : State) : (resetBlock s).obuf = [] := rfl
@[simp] theorem resetBlock_work (s : State) : (resetBlock s).work = none := rfl
@[simp] theorem resetBlock_pending (s : State) : (resetBlock s).pending = s.pending := rfl
@[simp] theorem resetBlock_replies (s : State) : (resetBlock s).replies = s.replies := rfl
@[simp] theorem resetBlock_draws (s : State) : (resetBlock s).draws = s.draws := rfl

/-! ## startCommand (44_control.md R202) -/

@[simp] theorem startCommand_cmd (s : State) : (startCommand s).s.cmd = s.cmd := rfl
@[simp] theorem startCommand_status (s : State) : (startCommand s).s.status = .busy := rfl
@[simp] theorem startCommand_fault (s : State) : (startCommand s).s.fault = s.fault := rfl
@[simp] theorem startCommand_faultPos (s : State) : (startCommand s).s.faultPos = s.faultPos := rfl
@[simp] theorem startCommand_inLen (s : State) : (startCommand s).s.inLen = s.inLen := rfl
@[simp] theorem startCommand_outLen (s : State) : (startCommand s).s.outLen = 0#32 := rfl
@[simp] theorem startCommand_ibuf (s : State) : (startCommand s).s.ibuf = s.ibuf := rfl
@[simp] theorem startCommand_obuf (s : State) : (startCommand s).s.obuf = [] := rfl
@[simp] theorem startCommand_work (s : State) : (startCommand s).s.work = none := rfl
@[simp] theorem startCommand_pending (s : State) : (startCommand s).s.pending = s.pending := rfl
@[simp] theorem startCommand_replies (s : State) : (startCommand s).s.replies = s.replies := rfl
@[simp] theorem startCommand_draws (s : State) : (startCommand s).s.draws = s.draws := rfl

@[simp] theorem startCommand_w (s : State) : (startCommand s).w = Work.init := rfl

/-! ## finishCommand (44_control.md R204) -/

@[simp] theorem finishCommand_cmd (r : Running) : (finishCommand r).cmd = r.s.cmd := rfl
@[simp] theorem finishCommand_status (r : Running) : (finishCommand r).status = .done := rfl
@[simp] theorem finishCommand_fault (r : Running) : (finishCommand r).fault = r.s.fault := rfl
@[simp] theorem finishCommand_faultPos (r : Running) : (finishCommand r).faultPos = r.s.faultPos := rfl
@[simp] theorem finishCommand_inLen (r : Running) : (finishCommand r).inLen = r.s.inLen := rfl
@[simp] theorem finishCommand_outLen (r : Running) : (finishCommand r).outLen = r.s.outLen := rfl
@[simp] theorem finishCommand_ibuf (r : Running) : (finishCommand r).ibuf = r.s.ibuf := rfl
@[simp] theorem finishCommand_obuf (r : Running) : (finishCommand r).obuf = r.s.obuf := rfl
@[simp] theorem finishCommand_work (r : Running) : (finishCommand r).work = none := rfl
@[simp] theorem finishCommand_pending (r : Running) : (finishCommand r).pending = r.s.pending := rfl
@[simp] theorem finishCommand_replies (r : Running) : (finishCommand r).replies = r.s.replies := rfl
@[simp] theorem finishCommand_draws (r : Running) : (finishCommand r).draws = r.s.draws := rfl

/-! ## suspend -/

@[simp] theorem suspend_cmd (r : Running) : (suspend r).cmd = r.s.cmd := rfl
@[simp] theorem suspend_status (r : Running) : (suspend r).status = r.s.status := rfl
@[simp] theorem suspend_fault (r : Running) : (suspend r).fault = r.s.fault := rfl
@[simp] theorem suspend_faultPos (r : Running) : (suspend r).faultPos = r.s.faultPos := rfl
@[simp] theorem suspend_inLen (r : Running) : (suspend r).inLen = r.s.inLen := rfl
@[simp] theorem suspend_outLen (r : Running) : (suspend r).outLen = r.s.outLen := rfl
@[simp] theorem suspend_ibuf (r : Running) : (suspend r).ibuf = r.s.ibuf := rfl
@[simp] theorem suspend_obuf (r : Running) : (suspend r).obuf = r.s.obuf := rfl
@[simp] theorem suspend_work (r : Running) : (suspend r).work = some r.w := rfl
@[simp] theorem suspend_pending (r : Running) : (suspend r).pending = r.s.pending := rfl
@[simp] theorem suspend_replies (r : Running) : (suspend r).replies = r.s.replies := rfl
@[simp] theorem suspend_draws (r : Running) : (suspend r).draws = r.s.draws := rfl

/-! ## exchange (44_control.md R206) -/

@[simp] theorem exchange_cmd (s : State) : (exchange s).cmd = s.cmd := rfl
@[simp] theorem exchange_status (s : State) : (exchange s).status = .done := rfl
@[simp] theorem exchange_fault (s : State) : (exchange s).fault = s.fault := rfl
@[simp] theorem exchange_faultPos (s : State) : (exchange s).faultPos = s.faultPos := rfl
@[simp] theorem exchange_inLen (s : State) : (exchange s).inLen = s.outLen := rfl
@[simp] theorem exchange_outLen (s : State) : (exchange s).outLen = s.inLen := rfl
@[simp] theorem exchange_ibuf (s : State) : (exchange s).ibuf = s.obuf := rfl
@[simp] theorem exchange_obuf (s : State) : (exchange s).obuf = s.ibuf := rfl
@[simp] theorem exchange_work (s : State) : (exchange s).work = s.work := rfl
@[simp] theorem exchange_pending (s : State) : (exchange s).pending = s.pending := rfl
@[simp] theorem exchange_replies (s : State) : (exchange s).replies = s.replies := rfl
@[simp] theorem exchange_draws (s : State) : (exchange s).draws = s.draws := rfl

/-! ## reply and replyUnspecified (20_memory.md R52) -/

@[simp] theorem reply_cmd (v : Reply) (s : State) : (reply v s).cmd = s.cmd := rfl
@[simp] theorem reply_status (v : Reply) (s : State) : (reply v s).status = s.status := rfl
@[simp] theorem reply_fault (v : Reply) (s : State) : (reply v s).fault = s.fault := rfl
@[simp] theorem reply_faultPos (v : Reply) (s : State) : (reply v s).faultPos = s.faultPos := rfl
@[simp] theorem reply_inLen (v : Reply) (s : State) : (reply v s).inLen = s.inLen := rfl
@[simp] theorem reply_outLen (v : Reply) (s : State) : (reply v s).outLen = s.outLen := rfl
@[simp] theorem reply_ibuf (v : Reply) (s : State) : (reply v s).ibuf = s.ibuf := rfl
@[simp] theorem reply_obuf (v : Reply) (s : State) : (reply v s).obuf = s.obuf := rfl
@[simp] theorem reply_work (v : Reply) (s : State) : (reply v s).work = s.work := rfl
@[simp] theorem reply_pending (v : Reply) (s : State) : (reply v s).pending = s.pending := rfl
@[simp] theorem reply_replies (v : Reply) (s : State) : (reply v s).replies = v :: s.replies := rfl
@[simp] theorem reply_draws (v : Reply) (s : State) : (reply v s).draws = s.draws := rfl

@[simp] theorem replyUnspecified_cmd (s : State) : (replyUnspecified s).cmd = s.cmd := rfl
@[simp] theorem replyUnspecified_status (s : State) : (replyUnspecified s).status = s.status := rfl
@[simp] theorem replyUnspecified_fault (s : State) : (replyUnspecified s).fault = s.fault := rfl
@[simp] theorem replyUnspecified_faultPos (s : State) : (replyUnspecified s).faultPos = s.faultPos := rfl
@[simp] theorem replyUnspecified_inLen (s : State) : (replyUnspecified s).inLen = s.inLen := rfl
@[simp] theorem replyUnspecified_outLen (s : State) : (replyUnspecified s).outLen = s.outLen := rfl
@[simp] theorem replyUnspecified_ibuf (s : State) : (replyUnspecified s).ibuf = s.ibuf := rfl
@[simp] theorem replyUnspecified_obuf (s : State) : (replyUnspecified s).obuf = s.obuf := rfl
@[simp] theorem replyUnspecified_work (s : State) : (replyUnspecified s).work = s.work := rfl
@[simp] theorem replyUnspecified_pending (s : State) : (replyUnspecified s).pending = s.pending := rfl
@[simp] theorem replyUnspecified_replies (s : State) : (replyUnspecified s).replies = .byte (Config.freeByte s.draws) :: s.replies := rfl
@[simp] theorem replyUnspecified_draws (s : State) : (replyUnspecified s).draws = s.draws + 1 := rfl

/-! ## Updates of a running command -/

@[simp] theorem Running.advance_s (r : Running) (n : Nat) : (r.advance n).s = r.s := rfl
@[simp] theorem Running.advance_w_i (r : Running) (n : Nat) : (r.advance n).w.i = r.w.i + n := rfl
@[simp] theorem Running.advance_w_j (r : Running) (n : Nat) : (r.advance n).w.j = r.w.j := rfl
@[simp] theorem Running.advance_w_k (r : Running) (n : Nat) : (r.advance n).w.k = r.w.k := rfl
@[simp] theorem Running.advance_w_m (r : Running) (n : Nat) : (r.advance n).w.m = r.w.m := rfl
@[simp] theorem Running.advance_w_number (r : Running) (n : Nat) : (r.advance n).w.number = r.w.number := rfl
@[simp] theorem Running.advance_w_hist (r : Running) (n : Nat) : (r.advance n).w.hist = r.w.hist := rfl
@[simp] theorem Running.advance_w_n (r : Running) (n : Nat) : (r.advance n).w.n = r.w.n := rfl
@[simp] theorem Running.advance_w_node (r : Running) (n : Nat) : (r.advance n).w.node = r.w.node := rfl
@[simp] theorem Running.advance_w_q (r : Running) (n : Nat) : (r.advance n).w.q = r.w.q := rfl
@[simp] theorem Running.advance_w_root (r : Running) (n : Nat) : (r.advance n).w.root = r.w.root := rfl
@[simp] theorem Running.advance_w_code (r : Running) (n : Nat) : (r.advance n).w.code = r.w.code := rfl
@[simp] theorem Running.advance_w_acc (r : Running) (n : Nat) : (r.advance n).w.acc = r.w.acc := rfl
@[simp] theorem Running.advance_w_nacc (r : Running) (n : Nat) : (r.advance n).w.nacc = r.w.nacc := rfl
@[simp] theorem Running.advance_w_bp (r : Running) (n : Nat) : (r.advance n).w.bp = r.w.bp := rfl

@[simp] theorem Running.withAcc_s (r : Running) (acc : Byte) (nacc : Nat) : (r.withAcc acc nacc).s = r.s := rfl
@[simp] theorem Running.withAcc_w_i (r : Running) (acc : Byte) (nacc : Nat) : (r.withAcc acc nacc).w.i = r.w.i := rfl
@[simp] theorem Running.withAcc_w_j (r : Running) (acc : Byte) (nacc : Nat) : (r.withAcc acc nacc).w.j = r.w.j := rfl
@[simp] theorem Running.withAcc_w_k (r : Running) (acc : Byte) (nacc : Nat) : (r.withAcc acc nacc).w.k = r.w.k := rfl
@[simp] theorem Running.withAcc_w_m (r : Running) (acc : Byte) (nacc : Nat) : (r.withAcc acc nacc).w.m = r.w.m := rfl
@[simp] theorem Running.withAcc_w_number (r : Running) (acc : Byte) (nacc : Nat) : (r.withAcc acc nacc).w.number = r.w.number := rfl
@[simp] theorem Running.withAcc_w_hist (r : Running) (acc : Byte) (nacc : Nat) : (r.withAcc acc nacc).w.hist = r.w.hist := rfl
@[simp] theorem Running.withAcc_w_n (r : Running) (acc : Byte) (nacc : Nat) : (r.withAcc acc nacc).w.n = r.w.n := rfl
@[simp] theorem Running.withAcc_w_node (r : Running) (acc : Byte) (nacc : Nat) : (r.withAcc acc nacc).w.node = r.w.node := rfl
@[simp] theorem Running.withAcc_w_q (r : Running) (acc : Byte) (nacc : Nat) : (r.withAcc acc nacc).w.q = r.w.q := rfl
@[simp] theorem Running.withAcc_w_root (r : Running) (acc : Byte) (nacc : Nat) : (r.withAcc acc nacc).w.root = r.w.root := rfl
@[simp] theorem Running.withAcc_w_code (r : Running) (acc : Byte) (nacc : Nat) : (r.withAcc acc nacc).w.code = r.w.code := rfl
@[simp] theorem Running.withAcc_w_acc (r : Running) (acc : Byte) (nacc : Nat) : (r.withAcc acc nacc).w.acc = acc := rfl
@[simp] theorem Running.withAcc_w_nacc (r : Running) (acc : Byte) (nacc : Nat) : (r.withAcc acc nacc).w.nacc = nacc := rfl
@[simp] theorem Running.withAcc_w_bp (r : Running) (acc : Byte) (nacc : Nat) : (r.withAcc acc nacc).w.bp = r.w.bp := rfl

@[simp] theorem afterBits_s (bits : List Bool) (r : Running) : (afterBits bits r).s = r.s := rfl
@[simp] theorem afterBits_w_i (bits : List Bool) (r : Running) : (afterBits bits r).w.i = r.w.i := rfl
@[simp] theorem afterBits_w_j (bits : List Bool) (r : Running) : (afterBits bits r).w.j = r.w.i + 2 + bits.length := rfl
@[simp] theorem afterBits_w_k (bits : List Bool) (r : Running) : (afterBits bits r).w.k = r.w.k := rfl
@[simp] theorem afterBits_w_m (bits : List Bool) (r : Running) : (afterBits bits r).w.m = bits.length := rfl
@[simp] theorem afterBits_w_number (bits : List Bool) (r : Running) : (afterBits bits r).w.number = bitsNumber bits := rfl
@[simp] theorem afterBits_w_hist (bits : List Bool) (r : Running) : (afterBits bits r).w.hist = r.w.hist := rfl
@[simp] theorem afterBits_w_n (bits : List Bool) (r : Running) : (afterBits bits r).w.n = r.w.n := rfl
@[simp] theorem afterBits_w_node (bits : List Bool) (r : Running) : (afterBits bits r).w.node = r.w.node := rfl
@[simp] theorem afterBits_w_q (bits : List Bool) (r : Running) : (afterBits bits r).w.q = r.w.q := rfl
@[simp] theorem afterBits_w_root (bits : List Bool) (r : Running) : (afterBits bits r).w.root = r.w.root := rfl
@[simp] theorem afterBits_w_code (bits : List Bool) (r : Running) : (afterBits bits r).w.code = r.w.code := rfl
@[simp] theorem afterBits_w_acc (bits : List Bool) (r : Running) : (afterBits bits r).w.acc = r.w.acc := rfl
@[simp] theorem afterBits_w_nacc (bits : List Bool) (r : Running) : (afterBits bits r).w.nacc = r.w.nacc := rfl
@[simp] theorem afterBits_w_bp (bits : List Bool) (r : Running) : (afterBits bits r).w.bp = r.w.bp := rfl

end Sys2Proof.Machine
end

