-- ==== Sys2Proof/Laws/Memory.lean ====
section
/-! SUPPORT. The laws of a buffer: a read after a write, the canonical form kept by every operation, and
what the cells of a byte string read as (20_memory.md R53, R54). -/

namespace Sys2Proof.Machine

/-! ## Read after write -/

@[simp] theorem Memory.read_nil (a : Nat) : Memory.read [] a = none := rfl

theorem Memory.read_cons (c : Nat) (b : Byte) (m : Memory) (a : Nat) :
    Memory.read ((c, b) :: m) a = if c = a then some b else Memory.read m a := rfl

theorem Memory.read_none_of_lt (m : Memory) (a : Nat) (h : ∀ c ∈ m, a < c.1) : m.read a = none := by
  induction m with
  | nil => rfl
  | cons x rest ih =>
    obtain ⟨c, b⟩ := x
    have hc : a < c := h (c, b) List.mem_cons_self
    rw [Memory.read_cons, if_neg (by omega)]
    exact ih fun y hy => h y (List.mem_cons_of_mem _ hy)

theorem Memory.read_write_same (m : Memory) (a : Nat) (b : Byte) : (m.write a b).read a = some b := by
  induction m with
  | nil => simp [Memory.write, Memory.read_cons]
  | cons x rest ih =>
    obtain ⟨c, v⟩ := x
    unfold Memory.write
    split
    · simp [Memory.read_cons]
    · split
      · simp [Memory.read_cons]
      · next h1 h2 => rw [Memory.read_cons, if_neg (by omega)]; exact ih

theorem Memory.read_write_other (m : Memory) (a a' : Nat) (b : Byte) (h : a' ≠ a) :
    (m.write a b).read a' = m.read a' := by
  induction m with
  | nil => simp [Memory.write, Memory.read_cons, Ne.symm h]
  | cons x rest ih =>
    obtain ⟨c, v⟩ := x
    unfold Memory.write
    split
    · simp [Memory.read_cons, Ne.symm h]
    · split
      · next h1 h2 => subst h2; simp [Memory.read_cons, Ne.symm h]
      · simp [Memory.read_cons, ih]

/-! ## The canonical form -/

theorem Memory.mem_write (m : Memory) (a : Nat) (b : Byte) (c : Host.Cell) (h : c ∈ m.write a b) :
    c = (a, b) ∨ c ∈ m := by
  induction m with
  | nil => simpa [Memory.write] using h
  | cons x rest ih =>
    obtain ⟨d, v⟩ := x
    unfold Memory.write at h
    split at h
    · simpa using h
    · split at h
      · rcases List.mem_cons.1 h with h | h
        · exact .inl h
        · exact .inr (List.mem_cons_of_mem _ h)
      · rcases List.mem_cons.1 h with h | h
        · exact .inr (h ▸ List.mem_cons_self)
        · exact (ih h).imp_right (List.mem_cons_of_mem _)

theorem Memory.wf_cons (c : Nat) (b : Byte) (m : Memory) :
    Memory.wf ((c, b) :: m) ↔ (∀ x ∈ m, c < x.1) ∧ m.wf := by
  simp [Memory.wf]

@[simp] theorem Memory.wf_nil : Memory.wf [] := by simp [Memory.wf]

theorem Memory.wf_write (m : Memory) (a : Nat) (b : Byte) (h : m.wf) : (m.write a b).wf := by
  induction m with
  | nil => simp [Memory.write, Memory.wf]
  | cons x rest ih =>
    obtain ⟨c, v⟩ := x
    rw [Memory.wf_cons] at h
    unfold Memory.write
    split
    · next h1 =>
      rw [Memory.wf_cons, Memory.wf_cons]
      refine ⟨fun y hy => ?_, h⟩
      rcases List.mem_cons.1 hy with rfl | hy
      · exact h1
      · exact h1.trans (h.1 y hy)
    · split
      · next h1 h2 => subst h2; exact (Memory.wf_cons _ _ _).2 h
      · next h1 h2 =>
        refine (Memory.wf_cons _ _ _).2 ⟨fun y hy => ?_, ih h.2⟩
        rcases Memory.mem_write _ _ _ _ hy with rfl | hy
        · simp only; omega
        · exact h.1 y hy

theorem Memory.wf_writeAll (bs : List Byte) (m : Memory) (a : Nat) (h : m.wf) :
    (m.writeAll a bs).wf := by
  induction bs generalizing m a with
  | nil => exact h
  | cons b bs ih => exact ih _ _ (Memory.wf_write _ _ _ h)

/-! ## The cells of a byte string -/

theorem Memory.mem_cellsFrom (bs : List Byte) (a : Nat) (c : Host.Cell)
    (h : c ∈ Memory.cellsFrom a bs) : a ≤ c.1 ∧ c.1 < a + bs.length := by
  induction bs generalizing a with
  | nil => simp [Memory.cellsFrom] at h
  | cons b bs ih =>
    rcases List.mem_cons.1 h with rfl | h
    · simp
    · have := ih _ h; simp only [List.length_cons]; omega

theorem Memory.wf_cellsFrom (bs : List Byte) (a : Nat) : (Memory.cellsFrom a bs).wf := by
  induction bs generalizing a with
  | nil => simp [Memory.cellsFrom]
  | cons b bs ih =>
    refine (Memory.wf_cons _ _ _).2 ⟨fun x hx => ?_, ih _⟩
    have := Memory.mem_cellsFrom _ _ _ hx
    omega

theorem Memory.map_fst_cellsFrom (bs : List Byte) (a : Nat) :
    (Memory.cellsFrom a bs).map Prod.fst = List.range' a bs.length := by
  induction bs generalizing a with
  | nil => rfl
  | cons b bs ih => simp [Memory.cellsFrom, ih, List.range'_succ]

theorem Memory.read_cellsFrom (bs : List Byte) (a t : Nat) :
    (Memory.cellsFrom a bs).read (a + t) = bs[t]? := by
  induction bs generalizing a t with
  | nil => rfl
  | cons b bs ih =>
    cases t with
    | zero => simp [Memory.cellsFrom, Memory.read_cons]
    | succ t =>
      simp only [Memory.cellsFrom, Memory.read_cons, List.getElem?_cons_succ]
      rw [if_neg (by omega), show a + (t + 1) = a + 1 + t by omega, ih]

/-- A byte string loaded at address 0 reads as itself. -/
theorem Memory.read_loaded (bs : List Byte) (t : Nat) : (Memory.cellsFrom 0 bs).read t = bs[t]? := by
  simpa using Memory.read_cellsFrom bs 0 t

theorem Memory.write_cellsFrom (bs : List Byte) (a : Nat) (b : Byte) :
    (Memory.cellsFrom a bs).write (a + bs.length) b = Memory.cellsFrom a (bs ++ [b]) := by
  induction bs generalizing a with
  | nil => simp [Memory.cellsFrom, Memory.write]
  | cons x bs ih =>
    simp only [Memory.cellsFrom, Memory.write, List.length_cons, List.cons_append]
    rw [if_neg (by omega), if_neg (by omega), show a + (bs.length + 1) = a + 1 + bs.length by omega, ih]

/-- Appending: a byte written at the first address above the string extends the string. -/
theorem Memory.write_loaded (bs : List Byte) (b : Byte) :
    (Memory.cellsFrom 0 bs).write bs.length b = Memory.cellsFrom 0 (bs ++ [b]) := by
  simpa using Memory.write_cellsFrom bs 0 b

/-- Appending to a buffer whose addresses are exactly those below `n`. -/
theorem Memory.map_fst_write (m : Memory) (a n : Nat) (b : Byte)
    (h : m.map Prod.fst = List.range' a n) :
    (m.write (a + n) b).map Prod.fst = List.range' a (n + 1) := by
  induction m generalizing a n with
  | nil =>
    cases n with
    | zero => simp [Memory.write]
    | succ n => simp [List.range'_succ] at h
  | cons x rest ih =>
    obtain ⟨c, v⟩ := x
    cases n with
    | zero => simp at h
    | succ n =>
      simp only [List.map_cons, List.range'_succ, List.cons.injEq] at h
      obtain ⟨rfl, h⟩ := h
      have := ih _ _ h
      simp only [Memory.write]
      rw [if_neg (by omega), if_neg (by omega), List.map_cons, List.range'_succ]
      rw [show c + (n + 1) = c + 1 + n by omega, this]

/-! ## A stretch of defined bytes -/

theorem Memory.length_stretch_le (m : Memory) (a n : Nat) : (m.stretch a n).length ≤ n := by
  induction n generalizing a with
  | zero => simp [Memory.stretch]
  | succ n ih =>
    unfold Memory.stretch
    split
    · simpa using ih _
    · simp

/-- Where the `n` bytes from `a` on are defined, the stretch is those bytes. -/
theorem Memory.stretch_eq (m : Memory) (bs : List Byte) (a : Nat)
    (h : ∀ t, t < bs.length → m.read (a + t) = bs[t]?) : m.stretch a bs.length = bs := by
  induction bs generalizing a with
  | nil => rfl
  | cons b bs ih =>
    have h0 := h 0 (by simp)
    simp only [Nat.add_zero, List.getElem?_cons_zero] at h0
    simp only [List.length_cons, Memory.stretch, h0]
    rw [ih (a + 1) fun t ht => ?_]
    have := h (t + 1) (by simpa using ht)
    rwa [List.getElem?_cons_succ, show a + (t + 1) = a + 1 + t by omega] at this

/-- A longer stretch begins with a shorter one. -/
theorem Memory.stretch_add (m : Memory) (a n k : Nat) (h : (m.stretch a n).length = n) :
    m.stretch a (n + k) = m.stretch a n ++ m.stretch (a + n) k := by
  induction n generalizing a with
  | zero => simp [Memory.stretch]
  | succ n ih =>
    rw [show n + 1 + k = n + k + 1 by omega]
    cases hb : m.read a with
    | none => simp [Memory.stretch, hb] at h
    | some b =>
      simp only [Memory.stretch, hb, List.length_cons, Nat.add_right_cancel_iff] at h ⊢
      rw [ih (a + 1) h, List.cons_append, show a + (n + 1) = a + 1 + n by omega]

end Sys2Proof.Machine
end

