-- ==== Sys2Proof/Laws/Ops.lean ====
section
/-! SUPPORT. What each shared operation can do, said once: the capacity tests, the flow of a running
command and its two loops, `emit` and `emitAll`, the issue of a command. -/

namespace Sys2Proof.Machine

/-! ## The capacity tests -/

theorem cap_bounds (c : Cap) : 1028 ≤ c.bytes ∧ c.bytes ≤ 2 ^ 32 - 2 := by
  have := c.extra.isLt
  simp only [Cap.bytes]; omega

theorem capFull_iff (c : Cap) (n : Nat) : capFull c n = true ↔ n = c.bytes := by
  simp only [capFull, Cap.bytes, Bool.and_eq_true, decide_eq_true_eq]; omega

theorem capHasAddress_iff (c : Cap) (n : Nat) : capHasAddress c n = true ↔ n < c.bytes := by
  simp only [capHasAddress, Cap.bytes, Bool.or_eq_true, decide_eq_true_eq]; omega

theorem capHolds_iff (c : Cap) (n : Nat) : capHolds c n = true ↔ n ≤ c.bytes := by
  simp only [capHolds, Cap.bytes, Bool.or_eq_true, decide_eq_true_eq]; omega

/-! ## The flow of a running command -/

@[simp] theorem Flow.bind_ok {α β : Type} (a : α) (f : α → Flow β) : (Flow.ok a).bind f = f a := rfl
@[simp] theorem Flow.bind_ended {α β : Type} (s : State) (f : α → Flow β) :
    (Flow.ended s).bind f = .ended s := rfl
@[simp] theorem Flow.bind_refused {α β : Type} (e : Refusal) (f : α → Flow β) :
    (Flow.refused e).bind f = .refused e := rfl
@[simp] theorem Flow.bind_fault {α β : Type} (e : Fault) (f : α → Flow β) :
    (Flow.fault e).bind f = .fault e := rfl
@[simp] theorem Running.bind_raise {α β : Type} (r : Running) (code : FaultCode) (pos : Nat)
    (f : α → Flow β) : (r.raise code pos : Flow α).bind f = r.raise code pos := rfl

theorem Flow.bind_assoc {α β γ : Type} (x : Flow α) (f : α → Flow β) (g : β → Flow γ) :
    (x.bind f).bind g = x.bind fun a => (f a).bind g := by
  cases x <;> rfl

theorem Flow.bind_eq_ok {α β : Type} {x : Flow α} {f : α → Flow β} {b : β} (h : x.bind f = .ok b) :
    ∃ a, x = .ok a ∧ f a = .ok b := by
  cases x with
  | ok a => exact ⟨a, rfl, h⟩
  | ended s => cases h
  | refused e => cases h
  | fault e => cases h

/-- If the flow goes on, its value has `P`; if the command ended in a state, that state has `Q`. -/
inductive Flow.All {α : Type} (P : α → Prop) (Q : State → Prop) : Flow α → Prop where
  | ok {a : α} (h : P a) : Flow.All P Q (.ok a)
  | ended {s : State} (h : Q s) : Flow.All P Q (.ended s)
  | refused (e : Refusal) : Flow.All P Q (.refused e)
  | fault (e : Fault) : Flow.All P Q (.fault e)

theorem Flow.All.mono {α : Type} {P P' : α → Prop} {Q : State → Prop} {x : Flow α}
    (hx : x.All P Q) (h : ∀ a, P a → P' a) : x.All P' Q := by
  cases hx with
  | ok ha => exact .ok (h _ ha)
  | ended hs => exact .ended hs
  | refused e => exact .refused e
  | fault e => exact .fault e

theorem Flow.All.bind {α β : Type} {P : α → Prop} {P' : β → Prop} {Q : State → Prop} {x : Flow α}
    {f : α → Flow β} (hx : x.All P Q) (hf : ∀ a, P a → (f a).All P' Q) : (x.bind f).All P' Q := by
  cases hx with
  | ok ha => exact hf _ ha
  | ended hs => exact .ended hs
  | refused e => exact .refused e
  | fault e => exact .fault e

/-- A loop over the input keeps what its body keeps. -/
theorem scanInput_all {I : Running → Prop} {Q : State → Prop} {body : Running → Flow Running}
    (hbody : ∀ r, I r → r.w.i < r.s.inLen.toNat → (body r).All I Q) (fuel : Nat) (r : Running)
    (h : I r) : (scanInput fuel body r).All I Q := by
  induction fuel generalizing r with
  | zero => exact .ok h
  | succ fuel ih =>
    unfold scanInput
    split
    · next hi => exact (hbody r h hi).bind ih
    · exact .ok h

/-- A repetition keeps what its body keeps. -/
theorem repeatTimes_all {I : Running → Prop} {Q : State → Prop} {body : Running → Flow Running}
    (hbody : ∀ r, I r → (body r).All I Q) (k : Nat) (r : Running) (h : I r) :
    (repeatTimes k body r).All I Q := by
  induction k generalizing r with
  | zero => exact .ok h
  | succ k ih => exact (hbody r h).bind ih

/-! ## emit -/

/-- The running command after one byte was appended. -/
def afterEmit (b : Byte) (r : Running) : Running :=
  { r with s := { r.s with
    obuf := r.s.obuf.write r.s.outLen.toNat b
    outLen := r.s.outLen + 1#32 } }

/-- Everything `emit` can do (20_memory.md R55). -/
theorem emit_cases (cap : Cap) (b : Byte) (r : Running) :
    (r.s.outLen.toNat < cap.bytes ∧ emit cap b r = .ok (afterEmit b r)) ∨
    (r.s.outLen.toNat = cap.bytes ∧ emit cap b r = r.raise .outOvf r.w.i) ∨
    (cap.bytes < r.s.outLen.toNat ∧ emit cap b r = .fault .obufAddress) := by
  unfold emit
  rcases Nat.lt_trichotomy r.s.outLen.toNat cap.bytes with h | h | h
  · rw [if_neg (by rw [capFull_iff]; omega), if_pos ((capHasAddress_iff _ _).2 h)]
    exact .inl ⟨h, rfl⟩
  · rw [if_pos ((capFull_iff _ _).2 h)]
    exact .inr (.inl ⟨h, rfl⟩)
  · rw [if_neg (by rw [capFull_iff]; omega), if_neg (by rw [capHasAddress_iff]; omega)]
    exact .inr (.inr ⟨h, rfl⟩)

theorem emit_ok {cap : Cap} {b : Byte} {r : Running} (h : r.s.outLen.toNat < cap.bytes) :
    emit cap b r = .ok (afterEmit b r) := by
  rcases emit_cases cap b r with h' | h' | h'
  · exact h'.2
  · omega
  · omega

theorem emit_full {cap : Cap} {b : Byte} {r : Running} (h : r.s.outLen.toNat = cap.bytes) :
    emit cap b r = r.raise .outOvf r.w.i := by
  rcases emit_cases cap b r with h' | h' | h'
  · omega
  · exact h'.2
  · omega

theorem afterEmit_outLen {cap : Cap} {b : Byte} {r : Running} (h : r.s.outLen.toNat < cap.bytes) :
    (afterEmit b r).s.outLen.toNat = r.s.outLen.toNat + 1 := by
  have := cap_bounds cap
  simp only [afterEmit, BitVec.toNat_add, BitVec.toNat_ofNat]; omega

/-! ## What a coder keeps -/

/-- A running command that was started in `s`: it has changed nothing but `OUT_LEN` and `OBUF`, and
exactly the bytes of `OBUF` below `OUT_LEN` are defined (10_state.md R29, R31). -/
structure Coding (cap : Cap) (s : State) (r : Running) : Prop where
  same : r.s = { (startCommand s).s with obuf := r.s.obuf, outLen := r.s.outLen }
  filled : r.s.obuf.map Prod.fst = List.range r.s.outLen.toNat
  fits : r.s.outLen.toNat ≤ cap.bytes

/-- A command that was started in `s` ended with a fault of the block. -/
def Faulted (s : State) (t : State) : Prop :=
  ∃ code pos, code ≠ FaultCode.none ∧ t = raiseFault code pos (startCommand s).s

theorem Coding.start (cap : Cap) (s : State) : Coding cap s (startCommand s) :=
  ⟨rfl, rfl, by simp⟩

/-- Only the working state changes. -/
theorem Coding.work {cap : Cap} {s : State} {r : Running} (h : Coding cap s r) (w : Work) :
    Coding cap s { r with w := w } := ⟨h.same, h.filled, h.fits⟩

theorem Coding.of_s {cap : Cap} {s : State} {r r' : Running} (h : Coding cap s r) (e : r'.s = r.s) :
    Coding cap s r' := ⟨by rw [e]; exact h.same, by rw [e]; exact h.filled, by rw [e]; exact h.fits⟩

theorem Coding.cmd {cap : Cap} {s : State} {r : Running} (h : Coding cap s r) :
    r.s.cmd = s.cmd := by rw [h.same]; rfl

theorem Coding.fault {cap : Cap} {s : State} {r : Running} (h : Coding cap s r) :
    r.s.fault = s.fault := by rw [h.same]; rfl

theorem Coding.faultPos {cap : Cap} {s : State} {r : Running} (h : Coding cap s r) :
    r.s.faultPos = s.faultPos := by rw [h.same]; rfl

theorem Coding.inLen {cap : Cap} {s : State} {r : Running} (h : Coding cap s r) :
    r.s.inLen = s.inLen := by rw [h.same]; rfl

theorem Coding.ibuf {cap : Cap} {s : State} {r : Running} (h : Coding cap s r) :
    r.s.ibuf = s.ibuf := by rw [h.same]; rfl

theorem Coding.pending {cap : Cap} {s : State} {r : Running} (h : Coding cap s r) :
    r.s.pending = s.pending := by rw [h.same]; rfl

theorem Coding.replies {cap : Cap} {s : State} {r : Running} (h : Coding cap s r) :
    r.s.replies = s.replies := by rw [h.same]; rfl

theorem Coding.draws {cap : Cap} {s : State} {r : Running} (h : Coding cap s r) :
    r.s.draws = s.draws := by rw [h.same]; rfl

theorem Coding.raise {cap : Cap} {s : State} {r : Running} {α : Type} {P : α → Prop}
    (h : Coding cap s r) (code : FaultCode) (pos : Nat) (hc : code ≠ .none) :
    (r.raise code pos : Flow α).All P (Faulted s) :=
  .ended ⟨code, pos, hc, by rw [h.same]; rfl⟩

theorem emit_coding {cap : Cap} {s : State} (b : Byte) (r : Running) (h : Coding cap s r) :
    (emit cap b r).All (fun r' => Coding cap s r' ∧ r'.w = r.w) (Faulted s) := by
  rcases emit_cases cap b r with ⟨hl, he⟩ | ⟨-, he⟩ | ⟨-, he⟩
  · rw [he]
    refine .ok ⟨⟨?_, ?_, ?_⟩, rfl⟩
    · have := h.same
      simp only [afterEmit]
      rw [this]
    · rw [afterEmit_outLen hl, List.range_eq_range']
      simpa [afterEmit] using Memory.map_fst_write r.s.obuf 0 r.s.outLen.toNat b
        (by rw [h.filled, List.range_eq_range'])
    · rw [afterEmit_outLen hl]; omega
  · rw [he]; exact h.raise _ _ (by decide)
  · rw [he]; exact .fault _

theorem emitAll_coding {cap : Cap} {s : State} (bs : List Byte) (r : Running) (h : Coding cap s r) :
    (emitAll cap bs r).All (fun r' => Coding cap s r' ∧ r'.w = r.w) (Faulted s) := by
  induction bs generalizing r with
  | nil => exact .ok ⟨h, rfl⟩
  | cons b bs ih =>
    refine (emit_coding b r h).bind fun r' h' => ?_
    exact (ih r' h'.1).mono fun _ h'' => ⟨h''.1, h''.2.trans h'.2⟩

theorem repeatEmit_coding {cap : Cap} {s : State} (b : Byte) (k : Nat) (r : Running)
    (h : Coding cap s r) :
    (repeatTimes k (emit cap b) r).All (fun r' => Coding cap s r' ∧ r'.w = r.w) (Faulted s) :=
  repeatTimes_all (I := fun r' => Coding cap s r' ∧ r'.w = r.w)
    (fun r' h' => (emit_coding b r' h'.1).mono fun _ h'' => ⟨h''.1, h''.2.trans h'.2⟩) k r ⟨h, rfl⟩

theorem input_coding {cap : Cap} {s : State} {r : Running} (a : Nat) (_ : Coding cap s r) :
    (r.input a).All (fun _ => True) (Faulted s) := by
  unfold Running.input
  split <;> constructor
  trivial

/-! ## What a coder writes -/

/-- A running command whose output so far is `y`. -/
structure Wrote (y : List Byte) (r : Running) : Prop where
  outLen : r.s.outLen.toNat = y.length
  obuf : r.s.obuf = Memory.cellsFrom 0 y

theorem Wrote.start (s : State) : Wrote [] (startCommand s) := ⟨rfl, rfl⟩

theorem Wrote.of_s {y : List Byte} {r r' : Running} (h : Wrote y r) (e : r'.s = r.s) : Wrote y r' :=
  ⟨by rw [e]; exact h.outLen, by rw [e]; exact h.obuf⟩

/-- The running command with its output set to `y`. -/
def Running.withOutput (r : Running) (y : List Byte) : Running :=
  { r with s := { r.s with obuf := Memory.cellsFrom 0 y, outLen := BitVec.ofNat 32 y.length } }

theorem Wrote.withOutput {y y' : List Byte} {r : Running} (_ : Wrote y r) {cap : Cap}
    (hc : y'.length ≤ cap.bytes) : Wrote y' (r.withOutput y') := by
  have := cap_bounds cap
  refine ⟨?_, rfl⟩
  simp only [Running.withOutput, BitVec.toNat_ofNat]
  exact Nat.mod_eq_of_lt (by omega)

theorem Wrote.eq_withOutput {y : List Byte} {r : Running} (h : Wrote y r) : r = r.withOutput y := by
  have h1 : r.s.outLen = BitVec.ofNat 32 y.length := by
    rw [← h.outLen, BitVec.ofNat_toNat, BitVec.setWidth_eq]
  unfold Running.withOutput
  rw [← h.obuf, ← h1]

@[simp] theorem Running.withOutput_withOutput (r : Running) (y y' : List Byte) :
    (r.withOutput y).withOutput y' = r.withOutput y' := rfl
@[simp] theorem Running.withOutput_w (r : Running) (y : List Byte) : (r.withOutput y).w = r.w := rfl
@[simp] theorem Running.withOutput_inLen (r : Running) (y : List Byte) :
    (r.withOutput y).s.inLen = r.s.inLen := rfl
@[simp] theorem Running.withOutput_ibuf (r : Running) (y : List Byte) :
    (r.withOutput y).s.ibuf = r.s.ibuf := rfl

/-- `emit` with room left appends the byte to the output. -/
theorem emit_wrote {cap : Cap} {y : List Byte} {b : Byte} {r : Running} (h : Wrote y r)
    (hc : y.length < cap.bytes) : emit cap b r = .ok (r.withOutput (y ++ [b])) := by
  have hb := cap_bounds cap
  rw [emit_ok (by rw [h.outLen]; exact hc)]
  have h1 : r.s.outLen + 1#32 = BitVec.ofNat 32 (y ++ [b]).length := by
    apply BitVec.eq_of_toNat_eq
    have := h.outLen
    simp only [BitVec.toNat_add, BitVec.toNat_ofNat, List.length_append, List.length_cons,
      List.length_nil, this, Nat.zero_add, Nat.add_mod_mod]
  unfold afterEmit Running.withOutput
  rw [h.obuf, h.outLen, Memory.write_loaded, h1]

/-- `emitAll` with room left appends the bytes to the output. -/
theorem emitAll_wrote {cap : Cap} {bs y : List Byte} {r : Running} (h : Wrote y r)
    (hc : y.length + bs.length ≤ cap.bytes) :
    emitAll cap bs r = .ok (r.withOutput (y ++ bs)) := by
  induction bs generalizing y r with
  | nil => rw [List.append_nil, ← h.eq_withOutput]; rfl
  | cons b bs ih =>
    simp only [List.length_cons] at hc
    have hy : (y ++ [b]).length = y.length + 1 := by simp
    rw [emitAll, emit_wrote h (by omega), Flow.bind_ok,
      ih (h.withOutput (cap := cap) (by omega)) (by omega)]
    simp

/-- `k` times `emit` with room left. -/
theorem repeatEmit_wrote {cap : Cap} {k : Nat} {y : List Byte} {b : Byte} {r : Running}
    (h : Wrote y r) (hc : y.length + k ≤ cap.bytes) :
    repeatTimes k (emit cap b) r = .ok (r.withOutput (y ++ List.replicate k b)) := by
  induction k generalizing y r with
  | zero => rw [List.replicate_zero, List.append_nil, ← h.eq_withOutput]; rfl
  | succ k ih =>
    have hy : (y ++ [b]).length = y.length + 1 := by simp
    rw [repeatTimes, emit_wrote h (by omega), Flow.bind_ok,
      ih (h.withOutput (cap := cap) (by omega)) (by omega)]
    simp [List.replicate_succ]

/-- `emitAll` into too little room ends the command with `F_OUT_OVF` at the input cursor. -/
theorem emitAll_overflow {cap : Cap} {bs y : List Byte} {r : Running} (h : Wrote y r)
    (hy : y.length ≤ cap.bytes) (hc : cap.bytes < y.length + bs.length) :
    emitAll cap bs r = r.raise .outOvf r.w.i := by
  induction bs generalizing y r with
  | nil => simp only [List.length_nil] at hc; omega
  | cons b bs ih =>
    simp only [List.length_cons] at hc
    have hl : (y ++ [b]).length = y.length + 1 := by simp
    rw [emitAll]
    by_cases hf : y.length = cap.bytes
    · rw [emit_full (by rw [h.outLen, hf])]; rfl
    · rw [emit_wrote h (by omega), Flow.bind_ok,
        ih (h.withOutput (cap := cap) (by omega)) (by omega) (by omega)]
      rfl

theorem repeatEmit_overflow {cap : Cap} {k : Nat} {y : List Byte} {b : Byte} {r : Running}
    (h : Wrote y r) (hy : y.length ≤ cap.bytes) (hc : cap.bytes < y.length + k) :
    repeatTimes k (emit cap b) r = r.raise .outOvf r.w.i := by
  induction k generalizing y r with
  | zero => omega
  | succ k ih =>
    have hl : (y ++ [b]).length = y.length + 1 := by simp
    rw [repeatTimes]
    by_cases hf : y.length = cap.bytes
    · rw [emit_full (by rw [h.outLen, hf])]; rfl
    · rw [emit_wrote h (by omega), Flow.bind_ok,
        ih (h.withOutput (cap := cap) (by omega)) (by omega) (by omega)]
      rfl

/-! ## The issue of a command -/

@[simp] theorem issue_fault {op : Byte} {body : State → Host.Outcome State Fault Refusal} {s : State}
    (h : s.status = .fault) : issue op body s = .next s := if_pos h

theorem issue_of_ne {op : Byte} {body : State → Host.Outcome State Fault Refusal} {s : State}
    (h : s.status ≠ .fault) : issue op body s = body { s with cmd := op } := if_neg h

theorem checkLength_ok {cap : Cap} {body : State → Host.Outcome State Fault Refusal} {s : State}
    (h : s.inLen.toNat ≤ cap.bytes) : checkLength cap body s = body s :=
  if_pos ((capHolds_iff _ _).2 h)

theorem checkLength_fault {cap : Cap} {body : State → Host.Outcome State Fault Refusal} {s : State}
    (h : cap.bytes < s.inLen.toNat) : checkLength cap body s = .next (raiseFault .inLen 0 s) :=
  if_neg (by rw [capHolds_iff]; omega)

/-- Everything that issuing a coder can do (44_control.md R200 to R202). -/
theorem issueCoder_cases (op : Byte) (cap : Cap) (coder : Running → Flow Running) (s : State) :
    (s.status = .fault ∧ issueCoder op cap coder s = .next s) ∨
    (s.status ≠ .fault ∧ cap.bytes < s.inLen.toNat ∧
      issueCoder op cap coder s = .next (raiseFault .inLen 0 { s with cmd := op })) ∨
    (s.status ≠ .fault ∧ s.inLen.toNat ≤ cap.bytes ∧
      issueCoder op cap coder s = endCommand (coder (startCommand { s with cmd := op }))) := by
  unfold issueCoder
  by_cases hf : s.status = .fault
  · exact .inl ⟨hf, issue_fault hf⟩
  · rw [issue_of_ne hf]
    by_cases hl : s.inLen.toNat ≤ cap.bytes
    · exact .inr (.inr ⟨hf, hl, checkLength_ok hl⟩)
    · exact .inr (.inl ⟨hf, by omega, checkLength_fault (by simpa using hl)⟩)

/-- A coder that runs to its end with output `y`. -/
theorem issueCoder_done {op : Byte} {cap : Cap} {coder : Running → Flow Running} {s : State}
    {r : Running} (hf : s.status ≠ .fault) (hl : s.inLen.toNat ≤ cap.bytes)
    (h : coder (startCommand { s with cmd := op }) = .ok r) :
    issueCoder op cap coder s = .next (finishCommand r) := by
  unfold issueCoder
  rw [issue_of_ne hf]
  exact (checkLength_ok (s := { s with cmd := op }) hl).trans (by rw [h]; rfl)

/-- What issuing a coder that keeps `Coding` leaves, whatever it comes to. -/
theorem issueCoder_next {op : Byte} {cap : Cap} {coder : Running → Flow Running} {s t : State}
    (hcoder : ∀ s, (coder (startCommand s)).All (Coding cap s) (Faulted s))
    (h : issueCoder op cap coder s = .next t) :
    (s.status = .fault ∧ t = s) ∨
    (s.status ≠ .fault ∧ s.inLen.toNat ≤ cap.bytes ∧ ∃ r,
      Coding cap { s with cmd := op } r ∧ t = finishCommand r) ∨
    (s.status ≠ .fault ∧ ∃ code pos, code ≠ FaultCode.none ∧
      t = raiseFault code pos { s with cmd := op }) := by
  rcases issueCoder_cases op cap coder s with ⟨hf, he⟩ | ⟨hf, -, he⟩ | ⟨hf, hl, he⟩
  · rw [he] at h; cases h; exact .inl ⟨hf, rfl⟩
  · rw [he] at h; cases h; exact .inr (.inr ⟨hf, _, _, by decide, rfl⟩)
  · rw [he] at h
    have hc := hcoder { s with cmd := op }
    revert h hc
    generalize coder (startCommand { s with cmd := op }) = x
    intro h hc
    cases hc with
    | ok hr => cases h; exact .inr (.inl ⟨hf, hl, _, hr, rfl⟩)
    | ended hs =>
      cases h
      obtain ⟨code, pos, hn, rfl⟩ := hs
      exact .inr (.inr ⟨hf, code, pos, hn, rfl⟩)
    | refused e => cases h
    | fault e => cases h

end Sys2Proof.Machine
end

