-- ==== Sys2Proof/Laws/Huffman.lean ====
section
/-! SUPPORT. What the Huffman coders keep: whatever they come to, only the working state, `OUT_LEN` and
`OBUF` have changed (43_huffman_codec.md R175, R180). -/

namespace Sys2Proof.Machine

theorem countInput_coding {cap : Cap} {s : State} {r : Running} (h : Coding cap s r) (n a : Nat)
    (hist : List Nat) : (countInput r a n hist).All (fun _ => True) (Faulted s) := by
  induction n generalizing a hist with
  | zero => exact .ok trivial
  | succ n ih => exact (input_coding _ h).bind fun b _ => ih _ _

theorem readInput_coding {cap : Cap} {s : State} {r : Running} (h : Coding cap s r) (n a : Nat) :
    (readInput r a n).All (fun _ => True) (Faulted s) := by
  induction n generalizing a with
  | zero => exact .ok trivial
  | succ n ih =>
    exact (input_coding _ h).bind fun b _ => (ih _).bind fun _ _ => .ok trivial

theorem putBit_coding {cap : Cap} {s : State} (d : Bool) (r : Running) (h : Coding cap s r) :
    (putBit cap d r).All (Coding cap s) (Faulted s) := by
  unfold putBit
  split
  · exact (emit_coding _ _ (h.work _)).bind fun r' h' => .ok (h'.1.work _)
  · exact .ok (h.work _)

theorem putBits_coding {cap : Cap} {s : State} (ds : List Bool) (r : Running) (h : Coding cap s r) :
    (putBits cap ds r).All (Coding cap s) (Faulted s) := by
  induction ds generalizing r with
  | nil => exact .ok h
  | cons d ds ih => exact (putBit_coding d r h).bind fun r' h' => ih r' h'

theorem flush_coding {cap : Cap} {s : State} (r : Running) (h : Coding cap s r) :
    (flush cap r).All (Coding cap s) (Faulted s) := by
  unfold flush
  split
  · exact .ok h
  · exact (emit_coding _ r h).bind fun r' h' => .ok (h'.1.work _)

theorem packPass_coding {cap : Cap} {s : State} (r : Running) (h : Coding cap s r) :
    (packPass cap r).All (Coding cap s) (Faulted s) :=
  (input_coding _ h).bind fun _ _ => (putBits_coding _ r h).bind fun _ h' => .ok (h'.work _)

/-- Whatever `huff_enc` comes to, it has changed only `OUT_LEN`, `OBUF` and the working state. -/
theorem huffEncode_coding (cap : Cap) (s : State) :
    (huffEncode cap (startCommand s)).All (Coding cap s) (Faulted s) := by
  have h := Coding.start cap s
  unfold huffEncode
  refine Flow.All.bind (P := Coding cap s) ?_ fun r hr => ?_
  · exact (countInput_coding h _ _ _).bind fun hist _ => .ok (h.work _)
  · refine (emitAll_coding _ _ (hr.work _)).bind fun r' h' => ?_
    refine Flow.All.bind (P := Coding cap s) ?_ fun r'' h'' => flush_coding _ (h''.work _)
    exact scanInput_all (fun r h _ => packPass_coding r h) _ _ (h'.1.work _)

theorem getBit_coding {cap : Cap} {s : State} (r : Running) (h : Coding cap s r) :
    (getBit r).All (fun p => Coding cap s p.2) (Faulted s) := by
  unfold getBit
  split
  · exact h.raise _ _ (by decide)
  · exact (input_coding _ h).bind fun b _ => .ok (h.work _)

theorem walkTree_coding {cap : Cap} {s : State} (fuel n : Nat) (r : Running) (h : Coding cap s r) :
    (walkTree fuel n r).All (fun p => Coding cap s p.2) (Faulted s) := by
  induction fuel generalizing n r with
  | zero =>
    unfold walkTree
    split
    · exact .ok h
    · exact .fault _
  | succ fuel ih =>
    unfold walkTree
    split
    · exact .ok h
    · exact Flow.All.bind (getBit_coding r h) fun p hp => ih _ p.2 hp
    · exact .fault _

theorem decodeSymbol_coding {cap : Cap} {s : State} (r : Running) (h : Coding cap s r) :
    (decodeSymbol r).All (fun p => Coding cap s p.2) (Faulted s) := by
  unfold decodeSymbol
  split
  · exact .fault _
  · split
    · exact Flow.All.bind (getBit_coding r h) fun _ hp => .ok hp
    · exact walkTree_coding _ _ r h

theorem symbolPass_coding {cap : Cap} {s : State} (r : Running) (h : Coding cap s r) :
    (symbolPass cap r).All (Coding cap s) (Faulted s) :=
  (decodeSymbol_coding r h).bind fun _ hp => (emit_coding _ _ hp).mono fun _ h' => h'.1

/-- Whatever `huff_dec` comes to, it has changed only `OUT_LEN`, `OBUF` and the working state. -/
theorem huffDecode_coding (cap : Cap) (s : State) :
    (huffDecode cap (startCommand s)).All (Coding cap s) (Faulted s) := by
  have h := Coding.start cap s
  unfold huffDecode
  split
  · exact h.raise _ _ (by decide)
  · refine Flow.All.bind (P := Coding cap s)
      ((readInput_coding h _ _).bind fun bs _ => .ok (h.work _)) fun r hr => ?_
    split
    · exact .ok hr
    · unfold decodeSymbols
      split
      · exact (hr.work _).raise _ _ (by decide)
      · exact repeatTimes_all (fun r h => symbolPass_coding r h) _ _ (hr.work _)

end Sys2Proof.Machine
end

