-- ==== Sys2Proof/Laws/Payload.lean ====
section
/-! SUPPORT. Reading a header back (30_encoding.md R80 to R82): the counts and the symbol count of a
payload that starts with the header bytes of 256 counts and a symbol count. -/

namespace Sys2Proof.Safety

open Sys2Proof.Machine

theorem length_beBytes (v k : Nat) : (beBytes v k).length = k := by
  induction k with
  | zero => rfl
  | succ k ih => simp [beBytes, ih]

theorem length_fieldBytes (v : Nat) : (fieldBytes v).length = 4 := length_beBytes v 4

/-- A four-byte field spells its value (40_numbercodec.md R102). -/
theorem beNumber_field (v : Nat) (h : v < 2 ^ 32) : beNumber (fieldBytes v) = v := by
  simp only [fieldBytes, Config.field, beBytes, beNumber, List.foldl_cons, List.foldl_nil,
    BitVec.toNat_ofNat]
  omega

theorem length_flatMap_field (cs : List Nat) : (cs.flatMap fieldBytes).length = 4 * cs.length := by
  induction cs with
  | nil => rfl
  | cons c cs ih => simp only [List.flatMap_cons, List.length_append, List.length_cons, ih,
      length_fieldBytes]; omega

/-- The field at index `s` of a string of four-byte fields. -/
theorem field_at (cs : List Nat) (rest : List Byte) (s : Nat) (hs : s < cs.length) :
    ((cs.flatMap fieldBytes ++ rest).drop (4 * s)).take 4 = fieldBytes (cs.getD s 0) := by
  induction cs generalizing s with
  | nil => simp at hs
  | cons c cs ih =>
    have hc := length_fieldBytes c
    rw [List.flatMap_cons, List.append_assoc]
    cases s with
    | zero => simp [hc]
    | succ s =>
      have h4 : 4 * (s + 1) = (fieldBytes c).length + 4 * s := by omega
      rw [h4, List.drop_append, List.drop_eq_nil_of_le (by omega), List.nil_append,
        Nat.add_sub_cancel_left, ih s (by simpa using hs)]
      rfl

theorem length_headerBytes (cs : List Nat) (n : Nat) (hc : cs.length = 256) :
    (headerBytes cs n).length = 1028 := by
  rw [headerBytes, List.length_append, length_flatMap_field, length_fieldBytes, hc]

/-- The counts of a header are the counts it was made of. -/
theorem headerCounts_header (cs : List Nat) (n : Nat) (rest : List Byte) (hc : cs.length = 256)
    (h : ∀ c ∈ cs, c < 2 ^ 32) : headerCounts (headerBytes cs n ++ rest) = cs := by
  refine List.ext_getElem (by simp [headerCounts, hc]) fun s h1 h2 => ?_
  simp only [headerCounts, headerBytes, List.getElem_map, List.getElem_range, List.append_assoc]
  rw [field_at cs _ s h2, beNumber_field]
  · simp [List.getD_eq_getElem?_getD, h2]
  · simp only [List.getD_eq_getElem?_getD, List.getElem?_eq_getElem h2, Option.getD_some]
    exact h _ (List.getElem_mem h2)

/-- The symbol count of a header is the one it was made of. -/
theorem headerSymbols_header (cs : List Nat) (n : Nat) (rest : List Byte) (hc : cs.length = 256)
    (h : n < 2 ^ 32) : headerSymbols (headerBytes cs n ++ rest) = n := by
  have hl : (cs.flatMap fieldBytes).length = 1024 := by rw [length_flatMap_field, hc]
  rw [headerSymbols, headerBytes, List.append_assoc,
    show (1024 : Nat) = (cs.flatMap fieldBytes).length from hl.symm, List.drop_left,
    List.take_append]
  simp [length_fieldBytes, beNumber_field n h, List.take_of_length_le]

/-- What follows a header are the packed bytes. -/
theorem payloadBits_header (cs : List Nat) (n : Nat) (rest : List Byte) (hc : cs.length = 256) :
    payloadBits (headerBytes cs n ++ rest) = rest.flatMap byteBits := by
  rw [payloadBits, show (1028 : Nat) = (headerBytes cs n).length from (length_headerBytes cs n hc).symm,
    List.drop_left]

end Sys2Proof.Safety
end

