-- ==== Sys2Proof/Laws/PerInstr.lean ====
section
/-! SUPPORT. The form of every instruction's encoding, one lemma per constructor: a command fills only the
low byte of its word (30_encoding.md R71); a token has at least one and at most 34 bytes, and it is longer
than one byte exactly when its first byte is 0x40 (R77, R79). -/

namespace Sys2Proof.Laws.EncodeForm

open Sys2Proof

def Statement (i : Instr) : Prop :=
  match encode i with
  | .command w => w.toNat < 256
  | .token bs =>
    i.wf = true → 1 ≤ bs.length ∧ bs.length ≤ longestToken ∧
      (bs.head? = some Config.esc ↔ 2 ≤ bs.length)

theorem rle0Enc : Statement .rle0Enc := show (_ : Nat) < 256 by decide
theorem rle0Dec : Statement .rle0Dec := show (_ : Nat) < 256 by decide
theorem huffEnc : Statement .huffEnc := show (_ : Nat) < 256 by decide
theorem huffDec : Statement .huffDec := show (_ : Nat) < 256 by decide
theorem xchg : Statement .xchg := show (_ : Nat) < 256 by decide
theorem srst : Statement .srst := show (_ : Nat) < 256 by decide

theorem reserved (op : Byte) : Statement (.reserved op) := by
  have h := op.isLt
  simp only [Statement, encode, BitVec.toNat_setWidth]
  omega

theorem copy (b : Byte) : Statement (.copy b) := by
  simp [Statement, encode, Instr.wf, longestToken]

theorem escLit : Statement .escLit := by
  simp [Statement, encode, longestToken]

theorem run (bits : List Bool) (ending : RunEnd) : Statement (.run bits ending) := by
  intro h
  have hb := RunEnd.wf_bits h
  have ht : (runTail ending).length ≤ 1 := by cases ending <;> simp [runTail]
  refine ⟨?_, ?_, ?_⟩
  · simp [runBytes]
  · simp only [runBytes, List.length_cons, List.length_append, List.length_map, longestToken]
    simp only [Config.runBitsMax] at hb
    omega
  · simp [runBytes]

end Sys2Proof.Laws.EncodeForm
end

