-- ==== Sys2Proof/Laws/Rle0.lean ====
section
/-! SUPPORT. What the RLE0 coders and the tokens keep: whatever they come to, only the working state,
`OUT_LEN` and `OBUF` have changed (41_rle0.md R112, R116). -/

namespace Sys2Proof.Machine

theorem emitRun_coding {cap : Cap} {s : State} (k : Nat) (r : Running) (h : Coding cap s r) :
    (emitRun cap k r).All (Coding cap s) (Faulted s) :=
  (emitAll_coding _ _ (h.work _)).mono fun _ h' => h'.1

theorem scanRun_coding {cap : Cap} {s : State} {r : Running} (h : Coding cap s r) (fuel k : Nat) :
    (scanRun r fuel k).All (fun _ => True) (Faulted s) := by
  induction fuel generalizing k with
  | zero => exact .ok trivial
  | succ fuel ih =>
    unfold scanRun
    split
    · refine (input_coding _ h).bind fun b _ => ?_
      split
      · exact ih _
      · exact .ok trivial
    · exact .ok trivial

theorem rle0EncPass_coding {cap : Cap} {s : State} (r : Running) (h : Coding cap s r) :
    (rle0EncPass cap r).All (Coding cap s) (Faulted s) := by
  unfold rle0EncPass
  refine (input_coding _ h).bind fun b _ => ?_
  split
  · exact (emitAll_coding _ r h).bind fun r' h' => .ok (h'.1.work _)
  · split
    · refine (scanRun_coding h _ _).bind fun k _ => ?_
      refine Flow.All.bind (P := Coding cap s) ?_ fun r' h' => .ok (h'.work _)
      split
      · exact emitRun_coding _ _ (h.work _)
      · exact (repeatEmit_coding _ _ _ (h.work _)).mono fun _ h' => h'.1
    · exact (emit_coding _ r h).bind fun r' h' => .ok (h'.1.work _)

/-- Whatever `rle0_enc` comes to, it has changed only `OUT_LEN`, `OBUF` and the working state. -/
theorem rle0Encode_coding (cap : Cap) (s : State) :
    (rle0Encode cap (startCommand s)).All (Coding cap s) (Faulted s) :=
  scanInput_all (fun r h _ => rle0EncPass_coding r h) _ _ (Coding.start cap s)

theorem copyToken_coding {cap : Cap} {s : State} (b : Byte) (r : Running) (h : Coding cap s r) :
    (copyToken cap b r).All (Coding cap s) (Faulted s) :=
  (emit_coding b r h).bind fun _ h' => .ok (h'.1.work _)

theorem escLitToken_coding {cap : Cap} {s : State} (r : Running) (h : Coding cap s r) :
    (escLitToken cap r).All (Coding cap s) (Faulted s) :=
  (emit_coding _ r h).bind fun _ h' => .ok (h'.1.work _)

theorem emitZeros_coding {cap : Cap} {s : State} (k : Nat) (r : Running) (h : Coding cap s r) :
    (emitZeros cap k r).All (Coding cap s) (Faulted s) :=
  (repeatEmit_coding _ _ _ (h.work _)).bind fun _ h' => .ok (h'.1.work _)

theorem runToken_coding {cap : Cap} {s : State} (bits : List Bool) (ending : RunEnd) (r : Running)
    (h : Coding cap s r) : (runToken cap bits ending r).All (Coding cap s) (Faulted s) := by
  unfold runToken
  have h' : Coding cap s (afterBits bits r) := h.work _
  cases ending with
  | closed => exact emitZeros_coding _ _ h'
  | truncated => exact h'.raise _ _ (by decide)
  | badByte b => exact h'.raise _ _ (by decide)
  | tooLong d => exact h'.raise _ _ (by decide)

theorem tokenMeaning_coding {cap : Cap} {s : State} (i : Instr) (r : Running) (h : Coding cap s r) :
    (tokenMeaning cap i r).All (Coding cap s) (Faulted s) := by
  cases i with
  | copy b => exact copyToken_coding b r h
  | escLit => exact escLitToken_coding r h
  | run bits ending => exact runToken_coding bits ending r h
  | rle0Enc => exact .refused _
  | rle0Dec => exact .refused _
  | huffEnc => exact .refused _
  | huffDec => exact .refused _
  | xchg => exact .refused _
  | srst => exact .refused _
  | reserved op => exact .refused _

theorem rle0DecPass_coding {cap : Cap} {s : State} (r : Running) (h : Coding cap s r) :
    (rle0DecPass cap r).All (Coding cap s) (Faulted s) := by
  unfold rle0DecPass
  split
  · exact tokenMeaning_coding _ r h
  · exact h.raise _ _ (by decide)
  · exact .refused _

/-- Whatever `rle0_dec` comes to, it has changed only `OUT_LEN`, `OBUF` and the working state. -/
theorem rle0Decode_coding (cap : Cap) (s : State) :
    (rle0Decode cap (startCommand s)).All (Coding cap s) (Faulted s) :=
  scanInput_all (fun r h _ => rle0DecPass_coding r h) _ _ (Coding.start cap s)

end Sys2Proof.Machine
end

