-- ==== Sys2Proof/Machine/Script.lean ====
section
/-! DEFINITION. The host script notation (30_encoding.md R90, R91): each line as the access it stands for,
and the pseudo-commands as the lines they abbreviate. -/

namespace Sys2Proof.Machine

/-- The host registers by name (10_state.md R23). -/
inductive RegName where
  | cmd
  | status
  | fault
  | faultPos
  | inLen
  | outLen
deriving DecidableEq, Repr

/-- The number of a register (R23). -/
def RegName.number : RegName → Nat
  | .cmd => 0
  | .status => 1
  | .fault => 2
  | .faultPos => 3
  | .inLen => 4
  | .outLen => 5

/-- A primitive line of a host script (R90). -/
inductive ScriptLine where
  | rle0Enc
  | rle0Dec
  | huffEnc
  | huffDec
  | xchg
  | srst
  /-- `cmd v` -/
  | cmd (v : Word)
  /-- `setlen n` -/
  | setlen (n : Word)
  /-- `poke a, b` -/
  | poke (a : Nat) (b : Byte)
  /-- `rd R` -/
  | rd (r : RegName)
  /-- `peek a` -/
  | peek (a : Nat)
deriving DecidableEq, Repr

/-- The access a line stands for (R90). -/
def lineAccess : ScriptLine → Access
  | .rle0Enc => .regWrite 0 0x00000001#32
  | .rle0Dec => .regWrite 0 0x00000002#32
  | .huffEnc => .regWrite 0 0x00000003#32
  | .huffDec => .regWrite 0 0x00000004#32
  | .xchg => .regWrite 0 0x00000005#32
  | .srst => .regWrite 0 0x000000FF#32
  | .cmd v => .regWrite 0 v
  | .setlen n => .regWrite 4 n
  | .poke a b => .ibufWrite a b
  | .rd r => .regRead r.number
  | .peek a => .obufRead a

/-- The accesses of a script, in order. -/
def scriptAccesses (lines : List ScriptLine) : List Access := lines.map lineAccess

/-- The pokes of `load` from address `a` on. -/
def pokesFrom (a : Nat) : List Byte → List ScriptLine
  | [] => []
  | b :: bs => .poke a b :: pokesFrom (a + 1) bs

/-- `load b0 b1 …` (R91). -/
def loadScript (bs : List Byte) : List ScriptLine :=
  pokesFrom 0 bs ++ [.setlen (BitVec.ofNat 32 bs.length)]

/-- `compress` (R91). -/
def compressScript : List ScriptLine := [.rle0Enc, .xchg, .huffEnc]

/-- `expand` (R91). -/
def expandScript : List ScriptLine := [.huffDec, .xchg, .rle0Dec]

/-- `out` (R91), where `OUT_LEN` reads as `n`. -/
def outScript (n : Nat) : List ScriptLine := .rd .outLen :: (List.range n).map .peek

end Sys2Proof.Machine
end

