-- ==== Sys2Proof/Tests/Slice0.lean ====
section
/-! SUPPORT. Tests, each against words, vectors or examples of the spec, and for every statement with
hypotheses a concrete state and operands that meet them. -/

namespace Sys2Proof.Tests

open Sys2Proof.Machine Sys2Proof.Safety

/-! ## Helpers -/

/-- The state after reset with `x` loaded as the input string (30_encoding.md R91, `load`). -/
def loaded (x : List Byte) : State :=
  { State.reset with ibuf := Memory.cellsFrom 0 x, inLen := BitVec.ofNat 32 x.length }

/-- `rle0.dec` just started on `x`. -/
def decoding (x : List Byte) : State := suspend (startCommand { loaded x with cmd := 0x02#8 })

/-- The state of V-C2: `F_BAD_CMD` after a command word of 0. -/
def faulted : State := faultWith 0x00#8 .badCmd 0 State.reset

/-- A state whose `IN_LEN` is one above `BUF_CAP`. -/
def tooMuch : State := { State.reset with inLen := BitVec.ofNat 32 (Config.bufCap.bytes + 1) }

/-- A counter table with the counts of the given byte values. -/
def counts (l : List (Nat × Nat)) : List Nat := (List.range 256).map fun s => (l.lookup s).getD 0

/-- The state a step leaves, if it leaves one. -/
def after (o : Host.Outcome State Fault Refusal) : Option State :=
  match o with
  | .next s => some s
  | .fault _ => none
  | .refused _ => none

/-- `STATE` and the bytes of `OBUF`. -/
def result (o : Host.Outcome State Fault Refusal) : Option (EngineState × List Byte) :=
  (after o).map fun s => (s.status, s.obuf.map Prod.snd)

/-- `STATE`, `FAULT`, `FAULT_POS`. -/
def evidence (o : Host.Outcome State Fault Refusal) : Option (EngineState × FaultCode × Word) :=
  (after o).map fun s => (s.status, s.fault, s.faultPos)

theorem after_some {o : Host.Outcome State Fault Refusal} {t : State} (h : after o = some t) :
    o = .next t := by
  cases o <;> simp_all [after]

theorem loaded_input (x : List Byte) (h : x.length < 2 ^ 32) : InputIs (loaded x) x := by
  refine ⟨?_, fun a _ => Memory.read_loaded x a⟩
  simp only [loaded, BitVec.toNat_ofNat]
  omega

theorem cap_low : 1028 ≤ Config.bufCap.bytes := (cap_bounds _).1

theorem cap_high : Config.bufCap.bytes ≤ 2 ^ 32 - 2 := (cap_bounds _).2

theorem tooMuch_above : Config.bufCap.bytes < tooMuch.inLen.toNat := by
  have := cap_high
  simp only [tooMuch, BitVec.toNat_ofNat]
  omega

/-! ## Well-formedness: an ill-formed term for each check -/

theorem test_illformed_copy : (Instr.copy 0x40#8).wf = false := by decide
theorem test_illformed_reserved_low : (Instr.reserved 0x01#8).wf = false := by decide
theorem test_illformed_reserved_high : (Instr.reserved 0xFF#8).wf = false := by decide
theorem test_illformed_run_bits : (Instr.run (List.replicate 32 true) .closed).wf = false := by decide
theorem test_illformed_run_truncated :
    (Instr.run (List.replicate 32 true) .truncated).wf = false := by decide
theorem test_illformed_run_long : (Instr.run (List.replicate 30 true) (.tooLong true)).wf = false := by
  decide
theorem test_illformed_run_bit : (Instr.run [] (.badByte 0x01#8)).wf = false := by decide
theorem test_illformed_run_close : (Instr.run [] (.badByte 0x40#8)).wf = false := by decide
theorem test_illformed_run_bits_bad :
    (Instr.run (List.replicate 32 true) (.badByte 0x05#8)).wf = false := by decide
theorem test_wellformed_reserved_edges :
    (Instr.reserved 0x00#8).wf = true ∧ (Instr.reserved 0x06#8).wf = true ∧
    (Instr.reserved 0xFE#8).wf = true := by decide

/-! ## Decoding: words written out from the encodings -/

/-- R71: `OP` = 0x01 in bits [7:0], every other bit any value (V-C4). -/
theorem test_decode_rle0Enc : decodeCommand 0b10101011110011011110111100000001#32 = .rle0Enc := by decide
/-- R71: `OP` = 0x02. -/
theorem test_decode_rle0Dec : decodeCommand 0b00000000000000000000000000000010#32 = .rle0Dec := by decide
/-- R71: `OP` = 0x03. -/
theorem test_decode_huffEnc : decodeCommand 0b00000000000000000000000000000011#32 = .huffEnc := by decide
/-- R71: `OP` = 0x04. -/
theorem test_decode_huffDec : decodeCommand 0b00000000000000000000000000000100#32 = .huffDec := by decide
/-- R71: `OP` = 0x05. -/
theorem test_decode_xchg : decodeCommand 0b00000000000000000000000000000101#32 = .xchg := by decide
/-- R71: `OP` = 0xFF. -/
theorem test_decode_srst : decodeCommand 0b00000000000000000000000011111111#32 = .srst := by decide
/-- R72: 0x06 is reserved (V-C3). -/
theorem test_decode_reserved : decodeCommand 0x12345606#32 = .reserved 0x06#8 := by decide
/-- R74: a byte other than 0x40. -/
theorem test_decode_copy : decodeToken [0b01100001#8] = .ok (.copy 0x61#8) [] := by decide
/-- R75: `40 00`. -/
theorem test_decode_escLit : decodeToken [0b01000000#8, 0b00000000#8] = .ok .escLit [] := by decide
/-- R113: the token of a run of 7, `40 01 00 00 00 40`. -/
theorem test_decode_run :
    decodeToken [0x40#8, 0x01#8, 0x00#8, 0x00#8, 0x00#8, 0x40#8] =
      .ok (.run [false, false, false] .closed) [] := by decide
/-- R79: a 32nd bit-byte. -/
theorem test_decode_run_long :
    decodeToken ([0x40#8, 0x01#8] ++ List.replicate 32 0x00#8 ++ [0x40#8]) =
      .ok (.run (List.replicate 31 false) (.tooLong false)) [0x40#8] := by decide
/-- R79: 0x40 as the last byte. -/
theorem test_decode_escape_at_end : decodeToken [0x40#8] = .reject .escapeAtEnd := by decide
/-- R92: the rows ESCLIT and RUN of opcode_table.json. -/
theorem test_table_rows :
    decodeTableWord 16 0x4000 = some .escLit ∧ decodeTableWord 8 0x61 = some (.copy 0x61#8) ∧
    (decodeTableWord 16 0x4001).isSome ∧ decodeTableWord 32 0xFF = some .srst := by decide

/-! ## The instructions, one step each -/

/-- The example of R112. -/
theorem test_rle0Enc_example :
    result (exec .rle0Enc (loaded [0x61#8, 0x00#8, 0x00#8, 0x40#8, 0x00#8, 0x00#8, 0x00#8, 0x00#8,
      0x00#8, 0x00#8, 0x00#8, 0x62#8])) =
    some (.done, [0x61#8, 0x00#8, 0x00#8, 0x40#8, 0x00#8, 0x40#8, 0x01#8, 0x00#8, 0x00#8, 0x00#8,
      0x40#8, 0x62#8]) := by decide

/-- R123: a run of exactly 6. -/
theorem test_rle0Enc_threshold :
    result (exec .rle0Enc (loaded (List.replicate 6 0x00#8))) =
    some (.done, [0x40#8, 0x01#8, 0x01#8, 0x01#8, 0x40#8]) := by decide

/-- The example of R116. -/
theorem test_rle0Dec_example :
    result (exec .rle0Dec (loaded [0x61#8, 0x00#8, 0x00#8, 0x40#8, 0x00#8, 0x40#8, 0x01#8, 0x00#8,
      0x00#8, 0x00#8, 0x40#8, 0x62#8])) =
    some (.done, [0x61#8, 0x00#8, 0x00#8, 0x40#8, 0x00#8, 0x00#8, 0x00#8, 0x00#8, 0x00#8, 0x00#8,
      0x00#8, 0x62#8]) := by decide

/-- V-D18: `40 01 01 05 40`, `F_RLE0_BIT` at address 3. -/
theorem test_rle0Dec_badBit :
    evidence (exec .rle0Dec (loaded [0x40#8, 0x01#8, 0x01#8, 0x05#8, 0x40#8])) =
    some (.fault, .rle0Bit, 3#32) := by decide

/-- "abracadabra", the input of R156 and R179. -/
def abracadabra : List Byte :=
  [0x61#8, 0x62#8, 0x72#8, 0x61#8, 0x63#8, 0x61#8, 0x64#8, 0x61#8, 0x62#8, 0x72#8, 0x61#8]

/-- R179: PACK and FLUSH of "abracadabra" write `6E 8A DC`. -/
theorem test_huffEnc_pack :
    (match (scanInput 11 (packPass Config.bufCap)
        { s := (startCommand (loaded abracadabra)).s
          w := deriveCodes (buildTree { Work.init with hist := histOf abracadabra }) }).bind
        (flush Config.bufCap) with
      | .ok r => r.s.obuf.map Prod.snd
      | _ => []) = [0x6E#8, 0x8A#8, 0xDC#8] := by decide +kernel

/-- R178 (a): the empty input makes 1028 bytes. -/
theorem test_huffEnc_empty :
    (after (exec .huffEnc (loaded []))).map (fun s => (s.status, s.outLen)) =
    some (.done, 1028#32) := by decide +kernel

/-- R180: `6E 8A DC` with the counts of "abracadabra" and N = 11 decodes to "abracadabra". -/
theorem test_huffDec_symbols :
    (match decodeSymbols Config.bufCap
        { s := { State.reset with
            inLen := 1031#32
            ibuf := [(1028, 0x6E#8), (1029, 0x8A#8), (1030, 0xDC#8)] }
          w := buildTree { Work.init with hist := histOf abracadabra, n := 11 } } with
      | .ok r => r.s.obuf.map Prod.snd
      | _ => []) = abracadabra := by decide +kernel

/-- R180: an input of 3 bytes is shorter than the header, `F_HUFF_HDR` at 3. -/
theorem test_huffDec_short :
    evidence (exec .huffDec (loaded [0x00#8, 0x00#8, 0x00#8])) = some (.fault, .huffHdr, 3#32) := by
  decide

/-- The example of R206. -/
theorem test_xchg_example :
    (after (exec .xchg { State.reset with
        status := .done
        ibuf := Memory.cellsFrom 0 [0x61#8, 0x62#8, 0x63#8]
        inLen := 3#32
        obuf := Memory.cellsFrom 0 [0x40#8, 0x00#8]
        outLen := 2#32 })).map (fun s => (s.inLen, s.ibuf.map Prod.snd, s.outLen, s.obuf.map Prod.snd)) =
    some (2#32, [0x40#8, 0x00#8], 3#32, [0x61#8, 0x62#8, 0x63#8]) := by decide

/-- V-C14: `srst` in the FAULT state. -/
theorem test_srst_from_fault : after (exec .srst faulted) = some State.reset := by decide

/-- V-C5: a reserved code is tested before the length; `CMD` holds the code. -/
theorem test_reserved_before_length :
    (after (exec (.reserved 0x06#8) { State.reset with inLen := 5000#32 })).map
      (fun s => (s.cmd, s.status, s.fault, s.inLen)) =
    some (0x06#8, .fault, .badCmd, 5000#32) := by decide

/-- V-C13: in the FAULT state a command is ignored and `CMD` keeps its value. -/
theorem test_ignored_in_fault : after (exec .rle0Enc faulted) = some faulted := by decide

/-- R74: COPY of 0x01 is an ordinary copy. -/
theorem test_copy :
    (after (exec (.copy 0x01#8) (decoding [0x01#8]))).map (fun s => s.obuf) =
    some [(0, 0x01#8)] := by decide

/-- R75: ESCLIT emits one 0x40 and moves past both bytes. -/
theorem test_escLit :
    (after (exec .escLit (decoding [0x40#8, 0x00#8]))).map (fun s => (s.obuf, s.work.map Work.i)) =
    some ([(0, 0x40#8)], some 2) := by decide

/-- R116: `40 01 40` (m = 0) emits nothing and decoding goes on. -/
theorem test_run_empty :
    (after (exec (.run [] .closed) (decoding [0x40#8, 0x01#8, 0x40#8]))).map
      (fun s => (s.obuf, s.work.map Work.i)) = some ([], some 3) := by decide

/-- R113: the token of k = 6 has m = 2 and number = 3. -/
theorem test_run_six :
    result (exec (.run [true, true] .closed) (decoding [0x40#8, 0x01#8, 0x01#8, 0x01#8, 0x40#8])) =
    some (.busy, List.replicate 6 0x00#8) := by decide

/-- V-C11, V-C12: register numbers above 5 read 0; a write to `STATUS` is ignored. -/
theorem test_registers :
    (after (step { faulted with pending := [.regRead 1000] })).map State.replies =
      some [.word 0#32] ∧
    after (step { State.reset with pending := [.regWrite 1 3#32] }) = some State.reset := by decide

/-- R52: two unspecified reads, two free bytes. -/
theorem test_fresh_bytes (t : State)
    (h : core.run 2 { State.reset with pending := [.obufRead 0, .ibufRead 9] } = .next t) :
    t.replies = [.byte (Config.freeByte 1), .byte (Config.freeByte 0)] ∧ t.draws = 2 := by
  cases h; exact ⟨rfl, rfl⟩

/-- P3, steps 6 and 7: in the FAULT state `IbufWrite` and a write to `IN_LEN` are ignored. -/
theorem test_writes_in_fault :
    after (step { faulted with pending := [.ibufWrite 0 0xAA#8] }) = some faulted ∧
    after (step { faulted with pending := [.regWrite 4 7#32] }) = some faulted := by decide

/-- P3, steps 1 to 3: the encoding of the lines. -/
theorem test_script :
    scriptAccesses (loadScript [0x40#8, 0x02#8] ++ [.rle0Dec, .rd .status]) =
      [.ibufWrite 0 0x40#8, .ibufWrite 1 0x02#8, .regWrite 4 0x00000002#32,
        .regWrite 0 0x00000002#32, .regRead 1] := by decide

/-- R102: the example of R100. -/
theorem test_beEncode :
    beEncode 500004 4 = some [0x00#8, 0x07#8, 0xA1#8, 0x24#8] ∧ beEncode 1 0 = none ∧
    beEncode 1 9 = none := by decide

/-! ## Witnesses: a concrete state and operands for the hypotheses of every statement that has some -/

theorem witness_DecodeInvertsEncode :
    (Instr.run (List.replicate 31 true) .closed).wf = true ∧
    (Instr.run (List.replicate 31 true) (.tooLong false)).wf = true ∧
    (Instr.run [] (.badByte 0xFF#8)).wf = true ∧ (Instr.copy 0xFF#8).wf = true ∧
    (Instr.reserved 0xFE#8).wf = true := by decide

theorem witness_TokenDecodeLeavesTheRest :
    (Instr.run (List.replicate 31 true) (.tooLong false)).wf = true ∧
    encode (.run (List.replicate 31 true) (.tooLong false)) =
      .token (runBytes (List.replicate 31 true) (.tooLong false)) ∧
    ∀ bits, Instr.run (List.replicate 31 true) (.tooLong false) ≠ .run bits .truncated :=
  ⟨by decide, rfl, fun _ h => by injection h with _ h; cases h⟩

theorem witness_EncodeInvertsDecodeToken :
    decodeToken [0x40#8, 0x01#8, 0x01#8] = .ok (.run [true] .truncated) [] ∧
    decodeToken [0x00#8, 0x40#8] = .ok (.copy 0x00#8) [0x40#8] := by decide

theorem witness_CommandWordIsItsLowByte : opOf 0xABCDEF01#32 = opOf 0x00000001#32 := by decide

theorem witness_NumberCodecContract :
    (1 ≤ 1 ∧ 1 ≤ 8) ∧ (1 ≤ 8 ∧ 8 ≤ 8) ∧
    (1 ≤ [0xFF#8].length ∧ [0xFF#8].length ≤ 8) ∧
    (1 ≤ (List.replicate 8 0xFF#8).length ∧ (List.replicate 8 0xFF#8).length ≤ 8) := by decide

/-- The invariant holds where a command is about to be issued. -/
theorem issuing_inv :
    Inv { loaded [0x61#8] with pending := [.regWrite 0 0x00000001#32] } := by
  have := cap_low
  constructor <;> simp [loaded, State.reset, BufferOk, Memory.cellsFrom, Memory.wf]
  omega

/-- The invariant holds in the middle of `rle0.dec`. -/
theorem decoding_inv : Inv (decoding [0x61#8]) := by
  have := cap_low
  have hi : BufferOk (decoding [0x61#8]).ibuf := by
    refine ⟨Memory.wf_cellsFrom _ _, fun c hc => ?_⟩
    have := (Memory.mem_cellsFrom _ _ _ hc).2
    simp only [List.length_singleton] at this
    omega
  have hb : (decoding [0x61#8]).status = .busy := rfl
  refine ⟨hi, ⟨Memory.wf_nil, fun c hc => by cases hc⟩, Nat.zero_le _, by decide, fun _ => rfl,
    fun h => ?_, fun _ => rfl, fun _ => rfl, fun _ => rfl, by decide, fun w hw => ?_⟩
  · rw [hb] at h; cases h
  · cases hw; exact ⟨rfl, Nat.le_trans (by decide) cap_low, by decide⟩

theorem witness_StepKeepsInvariant :
    (∃ t, Inv { loaded [0x61#8] with pending := [.regWrite 0 0x00000001#32] } ∧
      step { loaded [0x61#8] with pending := [.regWrite 0 0x00000001#32] } = .next t) ∧
    ∃ t, Inv (decoding [0x61#8]) ∧ step (decoding [0x61#8]) = .next t :=
  ⟨⟨_, issuing_inv, rfl⟩, ⟨_, decoding_inv, rfl⟩⟩

theorem witness_HostInvariantsHold :
    ∃ t, HostInv { State.reset with pending := [.regWrite 0 0x00000000#32] } ∧
      step { State.reset with pending := [.regWrite 0 0x00000000#32] } = .next t :=
  ⟨_, by constructor <;> simp [State.reset], rfl⟩

theorem witness_StepRunsTheIssuedCommand :
    ({ faulted with pending := [.regWrite 0 0x00000001#32] } : State).status ≠ .busy ∧
    ({ faulted with pending := [.regWrite 0 0x00000001#32] } : State).pending =
      .regWrite 0 0x00000001#32 :: [] := by decide

theorem witness_StepRunsTheFetchedToken :
    (decoding [0x40#8, 0x01#8, 0x01#8, 0x40#8]).status = .busy ∧
    (decoding [0x40#8, 0x01#8, 0x01#8, 0x40#8]).work = some Work.init ∧
    (decoding [0x40#8, 0x01#8, 0x01#8, 0x40#8]).cmd = 0x02#8 ∧
    Work.init.i < (decoding [0x40#8, 0x01#8, 0x01#8, 0x40#8]).inLen.toNat ∧
    (∀ rest, (decoding [0x40#8, 0x01#8, 0x01#8, 0x40#8]).pending ≠ .reset :: rest) ∧
    fetchToken (decoding [0x40#8, 0x01#8, 0x01#8, 0x40#8]) Work.init.i =
      .token (.run [true] .closed) :=
  ⟨rfl, rfl, rfl, by decide, fun _ h => (by cases h), by decide⟩

theorem witness_FetchReadsTheTokenUnderTheCursor :
    ((Instr.run [true] .closed).wf = true ∧
      encode (.run [true] .closed) = .token [0x40#8, 0x01#8, 0x01#8, 0x40#8] ∧
      (∀ t, t < 4 → (decoding [0x40#8, 0x01#8, 0x01#8, 0x40#8]).ibuf.read (0 + t) =
        ([0x40#8, 0x01#8, 0x01#8, 0x40#8] : List Byte)[t]?) ∧
      0 + 4 ≤ (decoding [0x40#8, 0x01#8, 0x01#8, 0x40#8]).inLen.toNat ∧
      ∀ bits, Instr.run [true] .closed = .run bits .truncated →
        0 + 4 = (decoding [0x40#8, 0x01#8, 0x01#8, 0x40#8]).inLen.toNat) ∧
    (Instr.run [true] .truncated).wf = true ∧
      encode (.run [true] .truncated) = .token [0x40#8, 0x01#8, 0x01#8] ∧
      (∀ t, t < 3 → (decoding [0x40#8, 0x01#8, 0x01#8]).ibuf.read (0 + t) =
        ([0x40#8, 0x01#8, 0x01#8] : List Byte)[t]?) ∧
      0 + 3 ≤ (decoding [0x40#8, 0x01#8, 0x01#8]).inLen.toNat ∧
      ∀ bits, Instr.run [true] .truncated = .run bits .truncated →
        0 + 3 = (decoding [0x40#8, 0x01#8, 0x01#8]).inLen.toNat :=
  ⟨⟨by decide, rfl, by decide, by decide, fun _ _ => by decide⟩,
    by decide, rfl, by decide, by decide, fun _ _ => by decide⟩

theorem witness_Rle0DecIsItsTokensOneByOne :
    (loaded [0x61#8, 0x40#8]).status ≠ .fault ∧
    (loaded [0x61#8, 0x40#8]).inLen.toNat ≤ Config.bufCap.bytes ∧
    ∀ rest, (loaded [0x61#8, 0x40#8]).pending ≠ .reset :: rest :=
  ⟨by decide, Nat.le_trans (by decide) cap_low, fun _ h => by cases h⟩

theorem witness_RegisterAccess :
    faulted.status ≠ .busy ∧
    ({ faulted with pending := [.regRead 6] } : State).pending = .regRead 6 :: [] ∧
    ({ faulted with pending := [.regRead 5] } : State).pending = .regRead 5 :: [] ∧
    ({ faulted with pending := [.regWrite 4 7#32] } : State).pending = .regWrite 4 7#32 :: [] ∧
    ({ State.reset with pending := [.regWrite 4 7#32] } : State).status ≠ .busy ∧
    ({ State.reset with pending := [.regWrite 5 7#32] } : State).pending = .regWrite 5 7#32 :: [] := by
  decide

theorem witness_BufferAccess :
    faulted.status ≠ .busy ∧ State.reset.status ≠ .busy ∧ 1027 < Config.bufCap.bytes ∧
    ({ State.reset with pending := [.ibufWrite 1027 0x61#8] } : State).pending =
      .ibufWrite 1027 0x61#8 :: [] ∧
    ({ State.reset with pending := [.ibufWrite Config.bufCap.bytes 0x61#8] } : State).pending =
      .ibufWrite Config.bufCap.bytes 0x61#8 :: [] ∧
    ({ loaded [0x61#8] with pending := [.ibufRead 0] } : State).pending = .ibufRead 0 :: [] ∧
    ({ loaded [0x61#8] with pending := [.ibufRead 1] } : State).pending = .ibufRead 1 :: [] ∧
    ({ doneWith 0x01#8 [0x61#8] State.reset with pending := [.obufRead 0] } : State).pending =
      .obufRead 0 :: [] ∧
    ({ doneWith 0x01#8 [0x61#8] State.reset with pending := [.obufRead 1] } : State).status ≠ .busy :=
  ⟨by decide, by decide, Nat.lt_of_lt_of_le (by decide) cap_low, rfl, rfl, rfl, rfl, rfl, by decide⟩

theorem witness_SoftResetIsHardwareReset :
    ({ decoding [0x61#8] with pending := [.reset, .regRead 1] } : State).pending =
      .reset :: [.regRead 1] := rfl

theorem witness_FaultStateIgnoresAllButReset :
    (∃ t, ({ faulted with pending := [.regWrite 4 7#32] } : State).status = .fault ∧
      step { faulted with pending := [.regWrite 4 7#32] } = .next t ∧
      ¬ (∃ rest, ({ faulted with pending := [.regWrite 4 7#32] } : State).pending = .reset :: rest ∨
        ∃ v, ({ faulted with pending := [.regWrite 4 7#32] } : State).pending = .regWrite 0 v :: rest ∧
          opOf v = 0xFF#8)) ∧
    (∃ t, step { faulted with pending := [.reset] } = .next t ∧
      ∃ rest, ({ faulted with pending := [.reset] } : State).pending = .reset :: rest) ∧
    ∃ t, step { faulted with pending := [.regWrite 0 0x123456FF#32] } = .next t ∧
      ∃ rest v, ({ faulted with pending := [.regWrite 0 0x123456FF#32] } : State).pending =
        .regWrite 0 v :: rest ∧ opOf v = 0xFF#8 := by
  refine ⟨⟨_, rfl, rfl, ?_⟩, ⟨_, rfl, _, rfl⟩, ⟨_, rfl, _, _, rfl, by decide⟩⟩
  rintro ⟨rest, h | ⟨v, h, -⟩⟩
  · injection h with h; cases h
  · injection h with h; injection h with h; cases h

theorem witness_FaultIsKeptUntilReset :
    ∃ t, ({ faulted with pending := [.regWrite 0 1#32, .regWrite 4 7#32] } : State).status = .fault ∧
      (∀ x ∈ ({ faulted with pending := [.regWrite 0 1#32, .regWrite 4 7#32] } : State).pending,
        x ≠ .reset ∧ ∀ v, x = .regWrite 0 v → opOf v ≠ 0xFF#8) ∧
      core.run 2 { faulted with pending := [.regWrite 0 1#32, .regWrite 4 7#32] } = .next t := by
  refine ⟨_, rfl, fun x hx => ?_, rfl⟩
  simp only [List.mem_cons, List.not_mem_nil, or_false] at hx
  rcases hx with rfl | rfl
  · refine ⟨by decide, fun v h => ?_⟩
    injection h with _ h; subst h; decide
  · exact ⟨by decide, fun v h => by injection h with h; cases h⟩

theorem witness_OnlyResetLeadsToIdle :
    ∃ t, ({ doneWith 0x01#8 [] State.reset with pending := [.regWrite 0 0xFF#32] } : State).status ≠
        .busy ∧
      step { doneWith 0x01#8 [] State.reset with pending := [.regWrite 0 0xFF#32] } = .next t ∧
      t.status = .idle :=
  ⟨_, by decide, rfl, rfl⟩

theorem witness_LengthCheckFaults :
    (Instr.rle0Enc, 0x01#8) ∈ lengthChecked ∧ (Instr.xchg, 0x05#8) ∈ lengthChecked ∧
    tooMuch.status ≠ .fault ∧ Config.bufCap.bytes < tooMuch.inLen.toNat :=
  ⟨by decide, by decide, by decide, tooMuch_above⟩

theorem witness_ReservedCodesFault :
    (opOf 0x00000000#32).toNat = 0 ∧
    (6 ≤ (opOf 0x12345606#32).toNat ∧ (opOf 0x12345606#32).toNat ≤ 0xFE) ∧
    (6 ≤ (opOf 0x000000FE#32).toNat ∧ (opOf 0x000000FE#32).toNat ≤ 0xFE) ∧
    State.reset.status ≠ .fault := by decide

theorem witness_XchgExchanges :
    faulted.status = .fault ∧
    (tooMuch.status ≠ .fault ∧ Config.bufCap.bytes < tooMuch.inLen.toNat) ∧
    (∃ t, (loaded [0x61#8]).status ≠ .fault ∧ (loaded [0x61#8]).inLen.toNat ≤ Config.bufCap.bytes ∧
      (loaded [0x61#8]).outLen.toNat ≤ Config.bufCap.bytes ∧ exec .xchg (loaded [0x61#8]) = .next t) ∧
    ∃ t, (loaded [0x61#8]).status = .idle ∧ HostInv (loaded [0x61#8]) ∧
      exec .xchg (loaded [0x61#8]) = .next t ∧ t.status = .done :=
  ⟨rfl, ⟨by decide, tooMuch_above⟩,
    ⟨_, by decide, Nat.le_trans (by decide) cap_low, Nat.le_trans (by decide) cap_low, rfl⟩,
    ⟨_, rfl, by constructor <;> simp [loaded, State.reset], rfl, rfl⟩⟩

/-- A state in the middle of `rle0.dec` with `n` bytes of output counted. -/
def decodingAt (n : Nat) : State := { decoding [] with outLen := BitVec.ofNat 32 n }

theorem decodingAt_outLen (n : Nat) (h : n ≤ Config.bufCap.bytes) : (decodingAt n).outLen.toNat = n := by
  have := cap_high
  simp only [decodingAt, BitVec.toNat_ofNat]
  omega

theorem decodingAt_cap : (decodingAt Config.bufCap.bytes).outLen.toNat = Config.bufCap.bytes :=
  decodingAt_outLen _ (Nat.le_refl _)

theorem witness_EmitAppendsOrOverflows (cap : Cap) :
    (BitVec.ofNat 32 cap.bytes : Word).toNat = cap.bytes ∧
    (BitVec.ofNat 32 (cap.bytes - 1) : Word).toNat < cap.bytes := by
  have := cap_bounds cap
  simp only [BitVec.toNat_ofNat]
  omega

theorem witness_CopyAndEscLitComplete :
    (decodingAt (Config.bufCap.bytes - 1)).work = some Work.init ∧
    (decodingAt (Config.bufCap.bytes - 1)).outLen.toNat < Config.bufCap.bytes := by
  have := cap_low
  refine ⟨rfl, ?_⟩
  rw [decodingAt_outLen _ (by omega)]
  omega

theorem witness_RunTokenEmitsItsZeros :
    ((decodingAt Config.bufCap.bytes).work = some Work.init ∧
      (decodingAt Config.bufCap.bytes).outLen.toNat + (2 ^ ([] : List Bool).length + bitSum [] - 1) ≤
        Config.bufCap.bytes) ∧
    (decodingAt 0).work = some Work.init ∧
      (decodingAt 0).outLen.toNat + (2 ^ [true, true].length + bitSum [true, true] - 1) ≤
        Config.bufCap.bytes := by
  refine ⟨⟨rfl, ?_⟩, rfl, Nat.le_trans (by decide) cap_low⟩
  simp only [decodingAt_cap, List.length_nil, bitSum]
  omega

theorem witness_MalformedRunFaults :
    (decoding [0x40#8]).work = some Work.init ∧ (List.replicate 31 true).length = 31 := by
  exact ⟨rfl, by decide⟩

theorem witness_TokenOverflowFaults :
    (decodingAt Config.bufCap.bytes).work = some Work.init ∧
    (decodingAt Config.bufCap.bytes).outLen.toNat ≤ Config.bufCap.bytes ∧
    (decodingAt Config.bufCap.bytes).outLen.toNat = Config.bufCap.bytes ∧
    Config.bufCap.bytes <
      (decodingAt Config.bufCap.bytes).outLen.toNat + (2 ^ [false].length + bitSum [false] - 1) := by
  have hb : 2 ^ [false].length + bitSum [false] - 1 = 1 := by decide
  rw [hb, decodingAt_cap]
  exact ⟨rfl, Nat.le_refl _, rfl, by omega⟩

theorem witness_TokenFrame :
    (∃ t, isToken (.copy 0x61#8) = true ∧ (decoding [0x61#8]).outLen.toNat ≤ Config.bufCap.bytes ∧
      exec (.copy 0x61#8) (decoding [0x61#8]) = .next t) ∧
    ∃ t, isToken (.run [] .truncated) = true ∧
      (decoding [0x61#8]).outLen.toNat ≤ Config.bufCap.bytes ∧
      exec (.run [] .truncated) (decoding [0x61#8]) = .next t :=
  ⟨⟨_, rfl, Nat.zero_le _, rfl⟩, ⟨_, rfl, Nat.zero_le _, rfl⟩⟩

theorem witness_CoderFrame :
    (∃ t, (Instr.rle0Enc, 0x01#8) ∈ coders ∧ exec .rle0Enc (loaded [0x40#8]) = .next t) ∧
    (∃ t, (Instr.huffDec, 0x04#8) ∈ coders ∧ exec .huffDec (loaded [0x40#8]) = .next t) ∧
    ∃ t, (Instr.rle0Dec, 0x02#8) ∈ coders ∧ exec .rle0Dec faulted = .next t :=
  ⟨⟨_, by decide, rfl⟩, ⟨_, by decide, rfl⟩, ⟨_, by decide, rfl⟩⟩

/-- A state that agrees with `loaded [0x40#8]` on the input string and on little else. -/
def otherwise : State :=
  { loaded [0x40#8, 0x41#8] with
    inLen := 1#32, cmd := 0x05#8, status := .done, outLen := 1#32, obuf := [(0, 0x7F#8)] }

theorem witness_ResultDependsOnTheInputOnly :
    ∃ t₁, (Instr.rle0Enc, 0x01#8) ∈ coders ∧ (loaded [0x40#8]).status ≠ .fault ∧
      otherwise.status ≠ .fault ∧ (loaded [0x40#8]).inLen = otherwise.inLen ∧
      (∀ a, a < (loaded [0x40#8]).inLen.toNat → (loaded [0x40#8]).ibuf.read a = otherwise.ibuf.read a) ∧
      exec .rle0Enc (loaded [0x40#8]) = .next t₁ :=
  ⟨_, by decide, by decide, by decide, by decide, by decide, rfl⟩

theorem witness_Rle0EncWritesTheCoding :
    InputIs (loaded [0x00#8, 0x40#8, 0x61#8]) [0x00#8, 0x40#8, 0x61#8] ∧
    (loaded [0x00#8, 0x40#8, 0x61#8]).status ≠ .fault ∧
    [0x00#8, 0x40#8, 0x61#8].length ≤ Config.bufCap.bytes ∧
    (rle0Of [0x00#8, 0x40#8, 0x61#8]).length ≤ Config.bufCap.bytes :=
  ⟨loaded_input _ (by decide), by decide, Nat.le_trans (by decide) cap_low,
    Nat.le_trans (by decide) cap_low⟩

theorem rle0Of_escapes (n : Nat) : (rle0Of (List.replicate n 0x40#8)).length = 2 * n := by
  show (rle0From 0 _).length = _
  induction n with
  | zero => rfl
  | succ n ih =>
    rw [List.replicate_succ, rle0From, if_neg (by decide), if_pos rfl]
    simp only [codedRun, List.length_append, ih]
    simp
    omega

theorem witness_Rle0EncOverflows :
    InputIs (loaded (List.replicate Config.bufCap.bytes 0x40#8))
      (List.replicate Config.bufCap.bytes 0x40#8) ∧
    (loaded (List.replicate Config.bufCap.bytes 0x40#8)).status ≠ .fault ∧
    (List.replicate Config.bufCap.bytes 0x40#8).length ≤ Config.bufCap.bytes ∧
    Config.bufCap.bytes < (rle0Of (List.replicate Config.bufCap.bytes 0x40#8)).length := by
  have := cap_low
  have := cap_high
  refine ⟨loaded_input _ (by simp; omega), by simp [loaded, State.reset], by simp, ?_⟩
  rw [rle0Of_escapes]
  omega

theorem witness_Rle0EncAtMostDoubles :
    InputIs (loaded (List.replicate (Config.bufCap.bytes / 2) 0x40#8))
      (List.replicate (Config.bufCap.bytes / 2) 0x40#8) ∧
    (loaded (List.replicate (Config.bufCap.bytes / 2) 0x40#8)).status ≠ .fault ∧
    (List.replicate (Config.bufCap.bytes / 2) 0x40#8).length ≤ Config.bufCap.bytes / 2 := by
  have := cap_high
  exact ⟨loaded_input _ (by simp; omega), by simp [loaded, State.reset], by simp⟩

theorem witness_RunThreshold :
    InputIs (loaded (List.replicate 5 0x00#8)) (List.replicate 5 0x00#8) ∧
    InputIs (loaded (List.replicate 6 0x00#8)) (List.replicate 6 0x00#8) ∧
    (loaded (List.replicate 5 0x00#8)).status ≠ .fault ∧
    (loaded (List.replicate 6 0x00#8)).status ≠ .fault :=
  ⟨loaded_input _ (by decide), loaded_input _ (by decide), by decide, by decide⟩

theorem witness_WrittenRunTokenSpellsItsLength :
    (6 ≤ 6 ∧ 6 ≤ 2 ^ 32 - 2) ∧ (6 ≤ 2 ^ 32 - 2 ∧ 2 ^ 32 - 2 ≤ 2 ^ 32 - 2) := by decide

/-- Well-made tokens of each kind, a RUN of no bytes and one of length 1 among them. -/
def someTokens : List Instr :=
  [.copy 0x61#8, .run [] .closed, .run [false] .closed, .escLit, .run [true, true, false] .closed,
    .copy 0x00#8]

theorem witness_Rle0DecWritesTheMeaning :
    (∀ i ∈ someTokens, wellMade i = true) ∧
    InputIs (loaded (someTokens.flatMap tokenBytes)) (someTokens.flatMap tokenBytes) ∧
    (loaded (someTokens.flatMap tokenBytes)).status ≠ .fault ∧
    (someTokens.flatMap tokenBytes).length ≤ Config.bufCap.bytes ∧
    (someTokens.flatMap tokenOutput).length ≤ Config.bufCap.bytes :=
  ⟨by decide, loaded_input _ (by decide), by decide, Nat.le_trans (by decide) cap_low,
    Nat.le_trans (by decide) cap_low⟩

/-- The malformed strings of R79 after `someTokens`, in the order of its table. -/
def malformed : List (List Byte) :=
  [someTokens.flatMap tokenBytes ++ [0x40#8],
    someTokens.flatMap tokenBytes ++ 0x40#8 :: 0x02#8 :: [0x61#8],
    someTokens.flatMap tokenBytes ++ 0x40#8 :: 0x01#8 :: [true].map bitByte,
    someTokens.flatMap tokenBytes ++ 0x40#8 :: 0x01#8 :: ([true].map bitByte ++ 0x02#8 :: [0x40#8]),
    someTokens.flatMap tokenBytes ++
      0x40#8 :: 0x01#8 :: ((List.replicate 31 true).map bitByte ++ bitByte false :: [0x40#8])]

theorem witness_MalformedStringsFault :
    (∀ i ∈ someTokens, wellMade i = true) ∧
    (someTokens.flatMap tokenOutput).length ≤ Config.bufCap.bytes ∧
    [true].length ≤ 31 ∧ (List.replicate 31 true).length = 31 ∧
    0x02#8 ≠ 0x00#8 ∧ 0x02#8 ≠ 0x01#8 ∧ 0x02#8 ≠ 0x40#8 ∧
    ∀ x ∈ malformed, InputIs (loaded x) x ∧ (loaded x).status ≠ .fault ∧
      (loaded x).inLen.toNat ≤ Config.bufCap.bytes := by
  refine ⟨by decide, Nat.le_trans (by decide) cap_low, by decide, by decide, by decide, by decide,
    by decide, fun x hx => ?_⟩
  have hl : ∀ x ∈ malformed, x.length ≤ 1028 := by decide
  have := hl x hx
  have := cap_low
  have hi := loaded_input x (by omega)
  exact ⟨hi, by simp [loaded, State.reset], by rw [hi.1]; omega⟩

theorem witness_Rle0RoundTrip :
    InputIs (loaded (List.replicate 9 0x00#8 ++ [0x40#8])) (List.replicate 9 0x00#8 ++ [0x40#8]) ∧
    (loaded (List.replicate 9 0x00#8 ++ [0x40#8])).status ≠ .fault ∧
    (List.replicate 9 0x00#8 ++ [0x40#8]).length ≤ Config.bufCap.bytes ∧
    (rle0Of (List.replicate 9 0x00#8 ++ [0x40#8])).length ≤ Config.bufCap.bytes :=
  ⟨loaded_input _ (by decide), by decide, Nat.le_trans (by decide) cap_low,
    Nat.le_trans (by decide) cap_low⟩

theorem witness_HistogramCounts : InputIs (startCommand (loaded abracadabra)).s abracadabra :=
  loaded_input abracadabra (by decide)

theorem witness_TreeShape :
    Work.init.hist.length = 256 ∧ leafCount Work.init.hist = 0 ∧
    (List.replicate 256 1).length = 256 ∧ 1 ≤ leafCount (List.replicate 256 1) ∧
    (counts [(0x61, 3)]).length = 256 ∧ 1 ≤ leafCount (counts [(0x61, 3)]) := by decide +kernel

theorem witness_InsertionKeepsTheQueueAscending :
    [0, 1, 2].Pairwise (fun x y =>
      nodeWeight [.leaf 0x61#8 1, .leaf 0x62#8 2, .leaf 0x63#8 2, .internal 2 0 1] x ≤
      nodeWeight [.leaf 0x61#8 1, .leaf 0x62#8 2, .leaf 0x63#8 2, .internal 2 0 1] y) := by decide

theorem witness_WeightsFitFortyBits :
    (List.replicate 256 (2 ^ 32 - 1)).length = 256 ∧
    ∀ c ∈ List.replicate 256 (2 ^ 32 - 1), c < 2 ^ 32 :=
  ⟨List.length_replicate, fun c hc => (by have := List.eq_of_mem_replicate hc; omega)⟩

theorem witness_AbracadabraTree :
    ({ Work.init with hist := histOf abracadabra } : Work).hist = histOf [0x61#8, 0x62#8, 0x72#8, 0x61#8,
      0x63#8, 0x61#8, 0x64#8, 0x61#8, 0x62#8, 0x72#8, 0x61#8] := by
  simp only [abracadabra]

theorem witness_DegenerateCodeTables :
    (counts [(0xFF, 3)]).length = 256 ∧
    (∀ b : Byte, (counts [(0xFF, 3)]).getD b.toNat 0 ≠ 0 ↔ b = 0xFF#8) ∧
    (counts []).length = 256 ∧ ∀ b : Byte, (counts []).getD b.toNat 0 = 0 := by decide +kernel

theorem witness_CodesArePrefixFree :
    (counts [(0x61, 1), (0x62, 1)]).length = 256 ∧ 2 ≤ leafCount (counts [(0x61, 1), (0x62, 1)]) ∧
    (List.replicate 256 1).length = 256 ∧ 2 ≤ leafCount (List.replicate 256 1) ∧
    0x61#8 ≠ 0x62#8 ∧ codeOf (codesOf (counts [(0x61, 1), (0x62, 1)])) 0x61#8 ≠ [] := by
  decide +kernel

theorem witness_CodesAreComplete :
    (counts [(0x61, 1), (0x62, 1)]).length = 256 ∧ 2 ≤ leafCount (counts [(0x61, 1), (0x62, 1)]) ∧
    255 ≤ (List.replicate 255 true).length := by decide +kernel

theorem witness_EightBitsMakeAByte :
    (startCommand State.reset).w.acc = 0x00#8 ∧ (startCommand State.reset).w.nacc = 0 := ⟨rfl, rfl⟩

/-- A decoder with one packed byte, `bp` of its bits taken. -/
def reading (bp : Nat) : Running :=
  { s := { State.reset with inLen := 1029#32, ibuf := [(1028, 0x6E#8)] }
    w := { Work.init with bp := bp } }

theorem witness_GetBitReadsTheNextBit :
    8 * ((reading 8).s.inLen.toNat - 1028) ≤ (reading 8).w.bp ∧
    (reading 7).w.bp < 8 * ((reading 7).s.inLen.toNat - 1028) ∧
    (reading 7).s.ibuf.read (1028 + (reading 7).w.bp / 8) = some 0x6E#8 := by decide

/-! The Huffman statements ask for payloads that fit `BUF_CAP`, and R10 allows `BUF_CAP` = 1028, where only a
payload without packed bytes fits. So each has a witness for every `BUF_CAP`, and one with packed bytes for
every `BUF_CAP` that has room for them. -/

theorem payloadOf_nil_length : (payloadOf []).length = 1028 := by decide +kernel

theorem payloadOf_abracadabra_length : (payloadOf abracadabra).length = 1031 := by decide +kernel

theorem witness_HuffEncWritesThePayload :
    InputIs (loaded []) [] ∧ (loaded []).status ≠ .fault ∧
    ([] : List Byte).length ≤ Config.bufCap.bytes ∧ (payloadOf []).length ≤ Config.bufCap.bytes :=
  ⟨loaded_input _ (by decide), by decide, Nat.zero_le _, by rw [payloadOf_nil_length]; exact cap_low⟩

theorem witness_HuffEncWritesThePayload_abracadabra (h : 1031 ≤ Config.bufCap.bytes) :
    InputIs (loaded abracadabra) abracadabra ∧ (loaded abracadabra).status ≠ .fault ∧
    abracadabra.length ≤ Config.bufCap.bytes ∧ (payloadOf abracadabra).length ≤ Config.bufCap.bytes :=
  ⟨loaded_input _ (by decide), by decide, Nat.le_trans (by decide) cap_low,
    by rw [payloadOf_abracadabra_length]; exact h⟩

theorem witness_HuffEncOverflows :
    InputIs (loaded abracadabra) abracadabra ∧ (loaded abracadabra).status ≠ .fault ∧
    abracadabra.length ≤ Cap.bytes ⟨0⟩ ∧ Cap.bytes ⟨0⟩ < (payloadOf abracadabra).length :=
  ⟨loaded_input _ (by decide), by decide, by decide, by rw [payloadOf_abracadabra_length]; decide⟩

/-- The same in `flush`: one code bit, so that the packed byte is the padded one. -/
theorem witness_HuffEncOverflows_flush :
    InputIs (loaded [0x61#8]) [0x61#8] ∧ (loaded [0x61#8]).status ≠ .fault ∧
    [0x61#8].length ≤ Cap.bytes ⟨0⟩ ∧ Cap.bytes ⟨0⟩ < (payloadOf [0x61#8]).length ∧
    (codeBits (histOf [0x61#8]) [0x61#8]).length ≤ 8 * (Cap.bytes ⟨0⟩ - 1028) + 7 :=
  ⟨loaded_input _ (by decide), by decide, by decide, by decide +kernel, by decide +kernel⟩

/-- The payload with the given counts, symbol count and packed bytes. -/
def payload (l : List (Nat × Nat)) (n : Nat) (packed : List Byte) : List Byte :=
  headerBytes (counts l) n ++ packed

theorem counts_length (l : List (Nat × Nat)) : (counts l).length = 256 := by simp [counts]

theorem payload_length (l : List (Nat × Nat)) (n : Nat) (packed : List Byte) :
    (payload l n packed).length = 1028 + packed.length := by
  rw [payload, List.length_append, length_headerBytes _ _ (counts_length l)]

theorem payload_counts (l : List (Nat × Nat)) (n : Nat) (packed : List Byte)
    (h : ∀ c ∈ counts l, c < 2 ^ 32) : headerCounts (payload l n packed) = counts l :=
  headerCounts_header _ _ _ (counts_length l) h

theorem payload_symbols (l : List (Nat × Nat)) (n : Nat) (packed : List Byte) (h : n < 2 ^ 32) :
    headerSymbols (payload l n packed) = n :=
  headerSymbols_header _ _ _ (counts_length l) h

theorem payload_bits (l : List (Nat × Nat)) (n : Nat) (packed : List Byte) :
    payloadBits (payload l n packed) = packed.flatMap byteBits :=
  payloadBits_header _ _ _ (counts_length l)

/-- A payload with at most 1000 packed bytes can be loaded. -/
theorem payload_input (l : List (Nat × Nat)) (n : Nat) (packed : List Byte) (h : packed.length ≤ 1000) :
    InputIs (loaded (payload l n packed)) (payload l n packed) ∧
    (loaded (payload l n packed)).status ≠ .fault ∧ 1028 ≤ (payload l n packed).length :=
  ⟨loaded_input _ (by rw [payload_length]; omega), by simp [loaded, State.reset],
    by rw [payload_length]; omega⟩

theorem witness_HuffDecOfZeroSymbols :
    InputIs (loaded (payload [(0x61, 5)] 0 [])) (payload [(0x61, 5)] 0 []) ∧
    (loaded (payload [(0x61, 5)] 0 [])).status ≠ .fault ∧ 1028 ≤ (payload [(0x61, 5)] 0 []).length ∧
    (payload [(0x61, 5)] 0 []).length ≤ Config.bufCap.bytes ∧
    headerSymbols (payload [(0x61, 5)] 0 []) = 0 := by
  obtain ⟨h1, h2, h3⟩ := payload_input [(0x61, 5)] 0 [] (by decide)
  exact ⟨h1, h2, h3, by rw [payload_length]; exact cap_low, payload_symbols _ _ _ (by decide)⟩

theorem witness_HuffDecWritesTheSymbols :
    InputIs (loaded (payload [(0x61, 5)] 0 [])) (payload [(0x61, 5)] 0 []) ∧
    (loaded (payload [(0x61, 5)] 0 [])).status ≠ .fault ∧ 1028 ≤ (payload [(0x61, 5)] 0 []).length ∧
    (payload [(0x61, 5)] 0 []).length ≤ Config.bufCap.bytes ∧
    ([] : List Byte).length ≤ Config.bufCap.bytes ∧
    headerSymbols (payload [(0x61, 5)] 0 []) = ([] : List Byte).length ∧
    (∀ b ∈ ([] : List Byte), codeOf (codesOf (headerCounts (payload [(0x61, 5)] 0 []))) b ≠ []) ∧
    codeBits (headerCounts (payload [(0x61, 5)] 0 [])) [] <+: payloadBits (payload [(0x61, 5)] 0 []) := by
  obtain ⟨h1, h2, h3, h4, h5⟩ := witness_HuffDecOfZeroSymbols
  exact ⟨h1, h2, h3, h4, Nat.zero_le _, h5, by simp, List.nil_prefix⟩

/-- V-U10: counts (a = 1, b = 1), N = 2, packed byte `7F`. -/
theorem witness_HuffDecWritesTheSymbols_ab (h : 1029 ≤ Config.bufCap.bytes) :
    InputIs (loaded (payload [(0x61, 1), (0x62, 1)] 2 [0x7F#8])) (payload [(0x61, 1), (0x62, 1)] 2 [0x7F#8]) ∧
    (loaded (payload [(0x61, 1), (0x62, 1)] 2 [0x7F#8])).status ≠ .fault ∧
    1028 ≤ (payload [(0x61, 1), (0x62, 1)] 2 [0x7F#8]).length ∧
    (payload [(0x61, 1), (0x62, 1)] 2 [0x7F#8]).length ≤ Config.bufCap.bytes ∧
    [0x61#8, 0x62#8].length ≤ Config.bufCap.bytes ∧
    headerSymbols (payload [(0x61, 1), (0x62, 1)] 2 [0x7F#8]) = [0x61#8, 0x62#8].length ∧
    (∀ b ∈ [0x61#8, 0x62#8],
      codeOf (codesOf (headerCounts (payload [(0x61, 1), (0x62, 1)] 2 [0x7F#8]))) b ≠ []) ∧
    codeBits (headerCounts (payload [(0x61, 1), (0x62, 1)] 2 [0x7F#8])) [0x61#8, 0x62#8] <+:
      payloadBits (payload [(0x61, 1), (0x62, 1)] 2 [0x7F#8]) := by
  obtain ⟨h1, h2, h3⟩ := payload_input [(0x61, 1), (0x62, 1)] 2 [0x7F#8] (by decide)
  refine ⟨h1, h2, h3, by rw [payload_length]; exact h, Nat.le_trans (by decide) h,
    payload_symbols _ _ _ (by decide), ?_, ?_⟩
  · rw [payload_counts _ _ _ (by decide +kernel)]; decide +kernel
  · rw [payload_counts _ _ _ (by decide +kernel), payload_bits]; decide +kernel

theorem witness_HuffDecOfOneSymbol :
    InputIs (loaded (payload [(0x61, 5)] 0 [])) (payload [(0x61, 5)] 0 []) ∧
    (loaded (payload [(0x61, 5)] 0 [])).status ≠ .fault ∧ 1028 ≤ (payload [(0x61, 5)] 0 []).length ∧
    (payload [(0x61, 5)] 0 []).length ≤ Config.bufCap.bytes ∧
    headerSymbols (payload [(0x61, 5)] 0 []) ≤ Config.bufCap.bytes ∧
    (∀ c : Byte, (headerCounts (payload [(0x61, 5)] 0 [])).getD c.toNat 0 ≠ 0 ↔ c = 0x61#8) ∧
    headerSymbols (payload [(0x61, 5)] 0 []) ≤ 8 * ((payload [(0x61, 5)] 0 []).length - 1028) := by
  obtain ⟨h1, h2, h3, h4, h5⟩ := witness_HuffDecOfZeroSymbols
  refine ⟨h1, h2, h3, h4, by rw [h5]; exact Nat.zero_le _, ?_, by rw [h5]; exact Nat.zero_le _⟩
  rw [payload_counts _ _ _ (by decide +kernel)]; decide +kernel

/-- The first example of R190: counts (a = 3), N = 3, packed byte `E0`. -/
theorem witness_HuffDecOfOneSymbol_aaa (h : 1029 ≤ Config.bufCap.bytes) :
    InputIs (loaded (payload [(0x61, 3)] 3 [0xE0#8])) (payload [(0x61, 3)] 3 [0xE0#8]) ∧
    (loaded (payload [(0x61, 3)] 3 [0xE0#8])).status ≠ .fault ∧
    1028 ≤ (payload [(0x61, 3)] 3 [0xE0#8]).length ∧
    (payload [(0x61, 3)] 3 [0xE0#8]).length ≤ Config.bufCap.bytes ∧
    headerSymbols (payload [(0x61, 3)] 3 [0xE0#8]) ≤ Config.bufCap.bytes ∧
    (∀ c : Byte, (headerCounts (payload [(0x61, 3)] 3 [0xE0#8])).getD c.toNat 0 ≠ 0 ↔ c = 0x61#8) ∧
    headerSymbols (payload [(0x61, 3)] 3 [0xE0#8]) ≤
      8 * ((payload [(0x61, 3)] 3 [0xE0#8]).length - 1028) := by
  obtain ⟨h1, h2, h3⟩ := payload_input [(0x61, 3)] 3 [0xE0#8] (by decide)
  have hn := payload_symbols [(0x61, 3)] 3 [0xE0#8] (by decide)
  refine ⟨h1, h2, h3, by rw [payload_length]; exact h, by rw [hn]; omega, ?_,
    by rw [hn, payload_length]; decide⟩
  rw [payload_counts _ _ _ (by decide +kernel)]; decide +kernel

theorem byteBits_zeros (n : Nat) :
    (List.replicate n 0x00#8).flatMap byteBits = List.replicate (8 * n) false := by
  induction n with
  | zero => rfl
  | succ n ih =>
    rw [List.replicate_succ, List.flatMap_cons, ih, Nat.mul_succ, Nat.add_comm, ← List.replicate_append_replicate]
    rfl

theorem codeBits_replicate (hist : List Nat) (b : Byte) (n : Nat)
    (h : codeOf (codesOf hist) b = [false]) :
    codeBits hist (List.replicate n b) = List.replicate n false := by
  induction n with
  | zero => rfl
  | succ n ih =>
    rw [codeBits] at ih
    rw [codeBits, List.replicate_succ, List.flatMap_cons, ih, h]
    rfl

/-- `BUF_CAP` = 1175, with room for 147 packed bytes of 0x00, which hold 1176 codes of one bit. -/
theorem witness_HuffDecWritesTheSymbols_overflow :
    InputIs (loaded (payload [(0x61, 1), (0x62, 1)] 2000 (List.replicate 147 0x00#8)))
      (payload [(0x61, 1), (0x62, 1)] 2000 (List.replicate 147 0x00#8)) ∧
    (loaded (payload [(0x61, 1), (0x62, 1)] 2000 (List.replicate 147 0x00#8))).status ≠ .fault ∧
    1028 ≤ (payload [(0x61, 1), (0x62, 1)] 2000 (List.replicate 147 0x00#8)).length ∧
    (payload [(0x61, 1), (0x62, 1)] 2000 (List.replicate 147 0x00#8)).length ≤ Cap.bytes ⟨147⟩ ∧
    (List.replicate 1176 0x61#8).length = Cap.bytes ⟨147⟩ + 1 ∧
    (List.replicate 1176 0x61#8).length ≤
      headerSymbols (payload [(0x61, 1), (0x62, 1)] 2000 (List.replicate 147 0x00#8)) ∧
    (∀ b ∈ List.replicate 1176 0x61#8, codeOf (codesOf (headerCounts
      (payload [(0x61, 1), (0x62, 1)] 2000 (List.replicate 147 0x00#8)))) b ≠ []) ∧
    codeBits (headerCounts (payload [(0x61, 1), (0x62, 1)] 2000 (List.replicate 147 0x00#8)))
        (List.replicate 1176 0x61#8) <+:
      payloadBits (payload [(0x61, 1), (0x62, 1)] 2000 (List.replicate 147 0x00#8)) := by
  obtain ⟨h1, h2, h3⟩ := payload_input [(0x61, 1), (0x62, 1)] 2000 (List.replicate 147 0x00#8)
    (by rw [List.length_replicate]; decide)
  have hc := payload_counts [(0x61, 1), (0x62, 1)] 2000 (List.replicate 147 0x00#8) (by decide +kernel)
  have ha : codeOf (codesOf (counts [(0x61, 1), (0x62, 1)])) 0x61#8 = [false] := by decide +kernel
  refine ⟨h1, h2, h3, by rw [payload_length, List.length_replicate]; decide,
    by rw [List.length_replicate]; decide, ?_, ?_, ?_⟩
  · rw [payload_symbols _ _ _ (by decide), List.length_replicate]; decide
  · intro b hb
    rw [List.eq_of_mem_replicate hb, hc, ha]; decide
  · rw [hc, payload_bits, byteBits_zeros, codeBits_replicate _ _ _ ha]

/-- `BUF_CAP` = 1175 again, with one count and bits of 1. -/
theorem witness_HuffDecOfOneSymbol_overflow :
    InputIs (loaded (payload [(0x61, 3)] 2000 (List.replicate 147 0xFF#8)))
      (payload [(0x61, 3)] 2000 (List.replicate 147 0xFF#8)) ∧
    (loaded (payload [(0x61, 3)] 2000 (List.replicate 147 0xFF#8))).status ≠ .fault ∧
    1028 ≤ (payload [(0x61, 3)] 2000 (List.replicate 147 0xFF#8)).length ∧
    (payload [(0x61, 3)] 2000 (List.replicate 147 0xFF#8)).length ≤ Cap.bytes ⟨147⟩ ∧
    Cap.bytes ⟨147⟩ < headerSymbols (payload [(0x61, 3)] 2000 (List.replicate 147 0xFF#8)) ∧
    (∀ c : Byte, (headerCounts (payload [(0x61, 3)] 2000 (List.replicate 147 0xFF#8))).getD c.toNat 0 ≠ 0 ↔
      c = 0x61#8) ∧
    Cap.bytes ⟨147⟩ < 8 * ((payload [(0x61, 3)] 2000 (List.replicate 147 0xFF#8)).length - 1028) := by
  obtain ⟨h1, h2, h3⟩ := payload_input [(0x61, 3)] 2000 (List.replicate 147 0xFF#8)
    (by rw [List.length_replicate]; decide)
  refine ⟨h1, h2, h3, by rw [payload_length, List.length_replicate]; decide,
    by rw [payload_symbols _ _ _ (by decide)]; decide, ?_,
    by rw [payload_length, List.length_replicate]; decide⟩
  rw [payload_counts _ _ _ (by decide +kernel)]; decide +kernel

/-- `x` is loaded, and `IN_LEN` is one above its length. -/
def shortOf (x : List Byte) : State := { loaded x with inLen := BitVec.ofNat 32 (x.length + 1) }

theorem shortOf_breaksOff (x : List Byte) (h : x.length + 1 < 2 ^ 32) : InputBreaksOff (shortOf x) x := by
  refine ⟨fun a _ => Memory.read_loaded x a, ?_, ?_⟩
  · exact (Memory.read_loaded x x.length).trans (List.getElem?_eq_none (Nat.le_refl _))
  · simp only [shortOf, BitVec.toNat_ofNat]
    omega

/-- The clauses on the packed bits of `huff.dec` are met with a `BUF_CAP` of 1029: counts (a = 1, b = 1),
N = 1, and no packed byte of the one that `IN_LEN` counts; and the same with counts (a = 1). -/
theorem witness_UndefinedInputIsRefused :
    (({ State.reset with inLen := 1028#32 } : State).status ≠ .fault ∧
      ({ State.reset with inLen := 1028#32 } : State).inLen.toNat ≤ Config.bufCap.bytes ∧
      1027 < ({ State.reset with inLen := 1028#32 } : State).inLen.toNat ∧
      1028 ≤ ({ State.reset with inLen := 1028#32 } : State).inLen.toNat ∧
      ({ State.reset with inLen := 1028#32 } : State).ibuf.read 1027 = none) ∧
    ((shortOf ([0x61#8] ++ List.replicate 2 0x00#8)).status ≠ .fault ∧
      (shortOf ([0x61#8] ++ List.replicate 2 0x00#8)).inLen.toNat ≤ Config.bufCap.bytes ∧
      InputBreaksOff (shortOf ([0x61#8] ++ List.replicate 2 0x00#8))
        ([0x61#8] ++ List.replicate 2 0x00#8) ∧
      [0x61#8].getLast? ≠ some 0x00#8 ∧ (rle0Of [0x61#8]).length ≤ Config.bufCap.bytes) ∧
    ((∀ i ∈ someTokens, wellMade i = true) ∧
      (someTokens.flatMap tokenOutput).length ≤ Config.bufCap.bytes ∧
      (List.replicate 31 true).length ≤ 31 ∧
      ∀ part ∈ [[], [0x40#8], 0x40#8 :: 0x01#8 :: (List.replicate 31 true).map bitByte],
        (shortOf (someTokens.flatMap tokenBytes ++ part)).status ≠ .fault ∧
        (shortOf (someTokens.flatMap tokenBytes ++ part)).inLen.toNat ≤ Config.bufCap.bytes ∧
        InputBreaksOff (shortOf (someTokens.flatMap tokenBytes ++ part))
          (someTokens.flatMap tokenBytes ++ part)) ∧
    ((shortOf (payload [(0x61, 1), (0x62, 1)] 1 [])).status ≠ .fault ∧
      (shortOf (payload [(0x61, 1), (0x62, 1)] 1 [])).inLen.toNat ≤ Cap.bytes ⟨1⟩ ∧
      InputBreaksOff (shortOf (payload [(0x61, 1), (0x62, 1)] 1 [])) (payload [(0x61, 1), (0x62, 1)] 1 []) ∧
      1028 ≤ (payload [(0x61, 1), (0x62, 1)] 1 []).length ∧
      ([] : List Byte).length < headerSymbols (payload [(0x61, 1), (0x62, 1)] 1 []) ∧
      payloadBits (payload [(0x61, 1), (0x62, 1)] 1 []) =
        codeBits (headerCounts (payload [(0x61, 1), (0x62, 1)] 1 [])) [] ++ [] ∧
      [] <+: codeOf (codesOf (headerCounts (payload [(0x61, 1), (0x62, 1)] 1 []))) 0x61#8 ∧
      [] ≠ codeOf (codesOf (headerCounts (payload [(0x61, 1), (0x62, 1)] 1 []))) 0x61#8) ∧
    (shortOf (payload [(0x61, 1)] 1 [])).status ≠ .fault ∧
      (shortOf (payload [(0x61, 1)] 1 [])).inLen.toNat ≤ Cap.bytes ⟨1⟩ ∧
      InputBreaksOff (shortOf (payload [(0x61, 1)] 1 [])) (payload [(0x61, 1)] 1 []) ∧
      1028 ≤ (payload [(0x61, 1)] 1 []).length ∧
      (∀ c : Byte, (headerCounts (payload [(0x61, 1)] 1 [])).getD c.toNat 0 ≠ 0 ↔ c = 0x61#8) ∧
      8 * ((payload [(0x61, 1)] 1 []).length - 1028) < headerSymbols (payload [(0x61, 1)] 1 []) ∧
      8 * ((payload [(0x61, 1)] 1 []).length - 1028) ≤ Cap.bytes ⟨1⟩ := by
  have hp : ∀ l, (payload l 1 []).length = 1028 := fun l => payload_length l 1 []
  have hs : ∀ l, (shortOf (payload l 1 [])).inLen.toNat ≤ Cap.bytes ⟨1⟩ := fun l => by
    simp only [shortOf, hp]; decide
  have hb : ∀ l, InputBreaksOff (shortOf (payload l 1 [])) (payload l 1 []) := fun l =>
    shortOf_breaksOff _ (by rw [hp]; decide)
  have hn : ∀ l, headerSymbols (payload l 1 []) = 1 := fun l => payload_symbols l 1 [] (by decide)
  refine ⟨⟨by decide, cap_low, by decide, by decide, rfl⟩, ⟨by decide, Nat.le_trans (by decide) cap_low,
    shortOf_breaksOff _ (by decide), by decide, Nat.le_trans (by decide) cap_low⟩,
    ⟨by decide, Nat.le_trans (by decide) cap_low, by decide, fun part hm => ?_⟩, ?_, ?_⟩
  · have hl : ∀ part ∈ [[], [0x40#8], 0x40#8 :: 0x01#8 :: (List.replicate 31 true).map bitByte],
        (someTokens.flatMap tokenBytes ++ part).length ≤ 1000 := by decide
    have := hl part hm
    refine ⟨by simp [shortOf, loaded, State.reset], Nat.le_trans ?_ cap_low,
      shortOf_breaksOff _ (by omega)⟩
    simp only [shortOf, BitVec.toNat_ofNat]
    omega
  · refine ⟨by simp [shortOf, loaded, State.reset], hs _, hb _, by rw [hp], by rw [hn]; decide, ?_,
      List.nil_prefix, ?_⟩
    · rw [payload_bits]; rfl
    · rw [payload_counts _ _ _ (by decide +kernel)]; decide +kernel
  · refine ⟨by simp [shortOf, loaded, State.reset], hs _, hb _, by rw [hp], ?_, by rw [hp, hn]; decide,
      by rw [hp]; decide⟩
    rw [payload_counts _ _ _ (by decide +kernel)]; decide +kernel

/-- The four clauses: 1027 bytes; no count but a symbol; a bit missing with two counts (V-U8 with no whole
byte); a bit missing with one count (V-U11). -/
theorem witness_MalformedPayloadsFault :
    (InputIs (loaded (List.replicate 1027 0x00#8)) (List.replicate 1027 0x00#8) ∧
      (loaded (List.replicate 1027 0x00#8)).status ≠ .fault ∧
      (List.replicate 1027 0x00#8).length ≤ Config.bufCap.bytes ∧
      (List.replicate 1027 0x00#8).length < 1028) ∧
    (InputIs (loaded (payload [] 1 [])) (payload [] 1 []) ∧ (loaded (payload [] 1 [])).status ≠ .fault ∧
      (payload [] 1 []).length ≤ Config.bufCap.bytes ∧ 1028 ≤ (payload [] 1 []).length ∧
      0 < headerSymbols (payload [] 1 []) ∧ ∀ c ∈ headerCounts (payload [] 1 []), c = 0) ∧
    (InputIs (loaded (payload [(0x61, 1), (0x62, 1)] 1 [])) (payload [(0x61, 1), (0x62, 1)] 1 []) ∧
      (loaded (payload [(0x61, 1), (0x62, 1)] 1 [])).status ≠ .fault ∧
      (payload [(0x61, 1), (0x62, 1)] 1 []).length ≤ Config.bufCap.bytes ∧
      1028 ≤ (payload [(0x61, 1), (0x62, 1)] 1 []).length ∧
      ([] : List Byte).length < headerSymbols (payload [(0x61, 1), (0x62, 1)] 1 []) ∧
      ([] : List Byte).length ≤ Config.bufCap.bytes ∧
      (∀ c ∈ ([] : List Byte),
        codeOf (codesOf (headerCounts (payload [(0x61, 1), (0x62, 1)] 1 []))) c ≠ []) ∧
      payloadBits (payload [(0x61, 1), (0x62, 1)] 1 []) =
        codeBits (headerCounts (payload [(0x61, 1), (0x62, 1)] 1 [])) [] ++ [] ∧
      [] <+: codeOf (codesOf (headerCounts (payload [(0x61, 1), (0x62, 1)] 1 []))) 0x61#8 ∧
      [] ≠ codeOf (codesOf (headerCounts (payload [(0x61, 1), (0x62, 1)] 1 []))) 0x61#8) ∧
    InputIs (loaded (payload [(0x61, 1)] 1 [])) (payload [(0x61, 1)] 1 []) ∧
      (loaded (payload [(0x61, 1)] 1 [])).status ≠ .fault ∧
      (payload [(0x61, 1)] 1 []).length ≤ Config.bufCap.bytes ∧
      1028 ≤ (payload [(0x61, 1)] 1 []).length ∧
      (∀ c : Byte, (headerCounts (payload [(0x61, 1)] 1 [])).getD c.toNat 0 ≠ 0 ↔ c = 0x61#8) ∧
      8 * ((payload [(0x61, 1)] 1 []).length - 1028) < headerSymbols (payload [(0x61, 1)] 1 []) ∧
      8 * ((payload [(0x61, 1)] 1 []).length - 1028) ≤ Config.bufCap.bytes := by
  have hlen : ∀ l, (payload l 1 []).length ≤ Config.bufCap.bytes := fun l => by
    rw [payload_length]; exact cap_low
  have hn : ∀ l, headerSymbols (payload l 1 []) = 1 := fun l => payload_symbols l 1 [] (by decide)
  refine ⟨⟨loaded_input _ ?_, (by simp only [loaded, State.reset]; decide), ?_, ?_⟩, ?_, ?_, ?_⟩
  · rw [List.length_replicate]; decide
  · rw [List.length_replicate]; exact Nat.le_trans (by decide) cap_low
  · rw [List.length_replicate]; decide
  · obtain ⟨h1, h2, h3⟩ := payload_input [] 1 [] (by decide)
    refine ⟨h1, h2, hlen _, h3, by rw [hn]; decide, ?_⟩
    rw [payload_counts _ _ _ (by decide +kernel)]; decide +kernel
  · obtain ⟨h1, h2, h3⟩ := payload_input [(0x61, 1), (0x62, 1)] 1 [] (by decide)
    refine ⟨h1, h2, hlen _, h3, by rw [hn]; decide, Nat.zero_le _, by simp, ?_, List.nil_prefix, ?_⟩
    · rw [payload_bits]; rfl
    · rw [payload_counts _ _ _ (by decide +kernel)]; decide +kernel
  · obtain ⟨h1, h2, h3⟩ := payload_input [(0x61, 1)] 1 [] (by decide)
    refine ⟨h1, h2, hlen _, h3, ?_, by rw [hn, payload_length]; decide,
      by rw [payload_length]; exact Nat.zero_le _⟩
    rw [payload_counts _ _ _ (by decide +kernel)]; decide +kernel

theorem witness_HuffmanRoundTrip :
    InputIs (loaded []) [] ∧ (loaded []).status ≠ .fault ∧
    ([] : List Byte).length ≤ Config.bufCap.bytes ∧
    1028 + ((codeBits (histOf []) []).length + 7) / 8 ≤ Config.bufCap.bytes :=
  ⟨loaded_input _ (by decide), by decide, Nat.zero_le _, cap_low⟩

theorem witness_HuffmanRoundTrip_abracadabra (h : 1031 ≤ Config.bufCap.bytes) :
    InputIs (loaded abracadabra) abracadabra ∧ (loaded abracadabra).status ≠ .fault ∧
    abracadabra.length ≤ Config.bufCap.bytes ∧
    1028 + ((codeBits (histOf abracadabra) abracadabra).length + 7) / 8 ≤ Config.bufCap.bytes :=
  ⟨loaded_input _ (by decide), by decide, Nat.le_trans (by decide) cap_low,
    Nat.le_trans (by decide +kernel) h⟩

/-- The chain of P5, the empty block. -/
theorem witness_CompressThenExpand :
    (∃ t₁ t₂ t₃, InputIs (loaded []) [] ∧ (loaded []).status ≠ .fault ∧
      ([] : List Byte).length ≤ Config.bufCap.bytes ∧
      exec .rle0Enc (loaded []) = .next t₁ ∧ t₁.status = .done ∧ exec .xchg t₁ = .next t₂ ∧
      exec .huffEnc t₂ = .next t₃ ∧ t₃.status = .done) ∧
    (InputIs (loaded (payloadOf (rle0Of []))) (payloadOf (rle0Of [])) ∧
      (loaded (payloadOf (rle0Of []))).status ≠ .fault) ∧
    faulted.status = .fault := by
  have hs : ((after (exec .huffEnc { State.reset with cmd := 0x05#8, status := .done })).map
      State.status) = some .done := by decide +kernel
  obtain ⟨t, ht, hd⟩ := Option.map_eq_some_iff.1 hs
  have hl : (payloadOf (rle0Of [])).length = 1028 := payloadOf_nil_length
  exact ⟨⟨_, _, t, loaded_input _ (by decide), by decide, Nat.zero_le _, rfl, rfl, rfl,
    after_some ht, hd⟩, ⟨loaded_input _ (by rw [hl]; decide), by simp [loaded, State.reset]⟩, rfl⟩

end Sys2Proof.Tests
end

section
/-! Two runs side by side (00_scope.md R6, 41_rle0.md R122, 43_huffman_codec.md R191): the coders, run from
two states that hold the same input string and the same output so far, come to the same end. Each operation
of a running command keeps the relation `SameRun`, and both runs stop alike (`Flow.Alike`). -/

namespace Sys2Proof.Machine

/-! ## The relations -/

/-- The two states hold the same input string and the same output: all that an engine operation sees. -/
structure SameStrings (s₁ s₂ : State) : Prop where
  inLen : s₂.inLen = s₁.inLen
  input : ∀ a, a < s₁.inLen.toNat → s₂.ibuf.read a = s₁.ibuf.read a
  outLen : s₂.outLen = s₁.outLen
  obuf : s₂.obuf = s₁.obuf

/-- Two running commands with the same strings and the same working state. -/
inductive SameRun : Running → Running → Prop where
  | mk {s₁ s₂ : State} (h : SameStrings s₁ s₂) (w : Work) : SameRun ⟨s₁, w⟩ ⟨s₂, w⟩

/-- The two commands ended alike: the same result, and after a fault the same code and position. -/
structure SameEnd (t₁ t₂ : State) : Prop where
  status : t₂.status = t₁.status
  outLen : t₂.outLen = t₁.outLen
  obuf : t₂.obuf = t₁.obuf
  fault : t₁.status = .fault → t₂.fault = t₁.fault ∧ t₂.faultPos = t₁.faultPos

/-- Both flows go on, with values related by `R`, or both stop, in the same way. -/
inductive Flow.Alike {α : Type} (R : α → α → Prop) : Flow α → Flow α → Prop where
  | ok {a₁ a₂ : α} (h : R a₁ a₂) : Flow.Alike R (.ok a₁) (.ok a₂)
  | ended {t₁ t₂ : State} (h : SameEnd t₁ t₂) : Flow.Alike R (.ended t₁) (.ended t₂)
  | refused (e : Refusal) : Flow.Alike R (.refused e) (.refused e)
  | fault (e : Fault) : Flow.Alike R (.fault e) (.fault e)

/-- Two running commands that read the same bit or symbol. -/
def SameReading {α : Type} (p₁ p₂ : α × Running) : Prop := p₂.1 = p₁.1 ∧ SameRun p₁.2 p₂.2

/-! ## Sequences and loops -/

theorem Flow.Alike.bind {α β : Type} {R : α → α → Prop} {R' : β → β → Prop} {x₁ x₂ : Flow α}
    {f₁ f₂ : α → Flow β} (hx : x₁.Alike R x₂) (hf : ∀ a₁ a₂, R a₁ a₂ → (f₁ a₁).Alike R' (f₂ a₂)) :
    (x₁.bind f₁).Alike R' (x₂.bind f₂) := by
  cases hx with
  | ok h => exact hf _ _ h
  | ended h => exact .ended h
  | refused e => exact .refused e
  | fault e => exact .fault e

/-- After one and the same reading of the input. -/
theorem Flow.Alike.bind_same {α β : Type} {R : β → β → Prop} {f₁ f₂ : α → Flow β} (x : Flow α)
    (hf : ∀ a, (f₁ a).Alike R (f₂ a)) : (x.bind f₁).Alike R (x.bind f₂) := by
  cases x with
  | ok a => exact hf a
  | ended s => exact .ended ⟨rfl, rfl, rfl, fun _ => ⟨rfl, rfl⟩⟩
  | refused e => exact .refused e
  | fault e => exact .fault e

theorem scanInput_alike {body : Running → Flow Running}
    (hbody : ∀ r₁ r₂, SameRun r₁ r₂ → r₁.w.i < r₁.s.inLen.toNat → (body r₁).Alike SameRun (body r₂))
    (fuel : Nat) {r₁ r₂ : Running} (h : SameRun r₁ r₂) :
    (scanInput fuel body r₁).Alike SameRun (scanInput fuel body r₂) := by
  induction fuel generalizing r₁ r₂ with
  | zero => exact .ok h
  | succ fuel ih =>
    have hb := hbody _ _ h
    obtain ⟨hs, w⟩ := h
    simp only [scanInput, hs.inLen]
    split
    · next hi => exact (hb hi).bind fun _ _ => ih
    · exact .ok (.mk hs w)

theorem repeatTimes_alike {body : Running → Flow Running}
    (hbody : ∀ r₁ r₂, SameRun r₁ r₂ → (body r₁).Alike SameRun (body r₂)) (k : Nat) {r₁ r₂ : Running}
    (h : SameRun r₁ r₂) : (repeatTimes k body r₁).Alike SameRun (repeatTimes k body r₂) := by
  induction k generalizing r₁ r₂ with
  | zero => exact .ok h
  | succ k ih => exact (hbody _ _ h).bind fun _ _ => ih

/-! ## Faults and output -/

theorem raise_alike {α : Type} {R : α → α → Prop} {r₁ r₂ : Running} {code : FaultCode} {pos : Nat} :
    (r₁.raise code pos : Flow α).Alike R (r₂.raise code pos) :=
  .ended ⟨rfl, rfl, rfl, fun _ => ⟨rfl, rfl⟩⟩

theorem SameRun.advance {r₁ r₂ : Running} (h : SameRun r₁ r₂) (n : Nat) :
    SameRun (r₁.advance n) (r₂.advance n) := by
  obtain ⟨hs, w⟩ := h
  exact .mk hs _

theorem SameRun.withAcc {r₁ r₂ : Running} (h : SameRun r₁ r₂) (acc : Byte) (nacc : Nat) :
    SameRun (r₁.withAcc acc nacc) (r₂.withAcc acc nacc) := by
  obtain ⟨hs, w⟩ := h
  exact .mk hs _

theorem emit_alike (cap : Cap) (b : Byte) {r₁ r₂ : Running} (h : SameRun r₁ r₂) :
    (emit cap b r₁).Alike SameRun (emit cap b r₂) := by
  obtain ⟨hs, w⟩ := h
  simp only [emit, hs.outLen, hs.obuf]
  split
  · exact raise_alike
  · split
    · refine .ok (.mk ?_ w)
      exact ⟨hs.inLen, hs.input, rfl, rfl⟩
    · exact .fault _

theorem emitAll_alike (cap : Cap) (bs : List Byte) {r₁ r₂ : Running} (h : SameRun r₁ r₂) :
    (emitAll cap bs r₁).Alike SameRun (emitAll cap bs r₂) := by
  induction bs generalizing r₁ r₂ with
  | nil => exact .ok h
  | cons b bs ih => exact (emit_alike cap b h).bind fun _ _ => ih

theorem repeatEmit_alike (cap : Cap) (b : Byte) (k : Nat) {r₁ r₂ : Running} (h : SameRun r₁ r₂) :
    (repeatTimes k (emit cap b) r₁).Alike SameRun (repeatTimes k (emit cap b) r₂) :=
  repeatTimes_alike (fun _ _ => emit_alike cap b) k h

/-! ## Reading the input string -/

theorem SameStrings.input_eq {s₁ s₂ : State} (h : SameStrings s₁ s₂) {w₁ w₂ : Work} {a : Nat}
    (ha : a < s₁.inLen.toNat) : Running.input ⟨s₂, w₂⟩ a = Running.input ⟨s₁, w₁⟩ a := by
  simp only [Running.input, h.input a ha]

theorem SameStrings.readInput_eq {s₁ s₂ : State} (h : SameStrings s₁ s₂) (w : Work) {a n : Nat}
    (hn : a + n ≤ s₁.inLen.toNat) : readInput ⟨s₂, w⟩ a n = readInput ⟨s₁, w⟩ a n := by
  induction n generalizing a with
  | zero => rfl
  | succ n ih => rw [readInput, readInput, h.input_eq (by omega), ih (by omega)]

theorem SameStrings.countInput_eq {s₁ s₂ : State} (h : SameStrings s₁ s₂) (w : Work) {a n : Nat}
    (hn : a + n ≤ s₁.inLen.toNat) (hist : List Nat) :
    countInput ⟨s₂, w⟩ a n hist = countInput ⟨s₁, w⟩ a n hist := by
  induction n generalizing a hist with
  | zero => rfl
  | succ n ih =>
    have hrest := fun b => ih (a := a + 1) (by omega) (countByte hist b)
    simp only [countInput, h.input_eq (w₁ := w) (show a < s₁.inLen.toNat by omega), hrest]

theorem SameStrings.scanRun_eq {s₁ s₂ : State} (h : SameStrings s₁ s₂) (w : Work) (fuel k : Nat) :
    scanRun ⟨s₂, w⟩ fuel k = scanRun ⟨s₁, w⟩ fuel k := by
  induction fuel generalizing k with
  | zero => rfl
  | succ fuel ih =>
    simp only [scanRun, h.inLen, ih]
    split
    · next hk => rw [h.input_eq hk]
    · rfl

theorem Memory.stretch_congr {m₁ m₂ : Memory} {a n : Nat}
    (h : ∀ t, t < n → m₂.read (a + t) = m₁.read (a + t)) : m₂.stretch a n = m₁.stretch a n := by
  induction n generalizing a with
  | zero => rfl
  | succ n ih =>
    have h0 : m₂.read a = m₁.read a := h 0 (by omega)
    have hrest : m₂.stretch (a + 1) n = m₁.stretch (a + 1) n := ih fun t ht => by
      rw [Nat.add_right_comm]; exact h (t + 1) (by omega)
    rw [Memory.stretch, Memory.stretch, h0, hrest]

theorem SameStrings.fetchToken_eq {s₁ s₂ : State} (h : SameStrings s₁ s₂) (a : Nat) :
    fetchToken s₂ a = fetchToken s₁ a := by
  have hbytes : s₂.ibuf.stretch a (min longestToken (s₁.inLen.toNat - a)) =
      s₁.ibuf.stretch a (min longestToken (s₁.inLen.toNat - a)) :=
    Memory.stretch_congr fun t ht => h.input _ (by omega)
  simp only [fetchToken, h.inLen, hbytes]

/-! ## rle0.enc -/

theorem emitRun_alike (cap : Cap) (k : Nat) {r₁ r₂ : Running} (h : SameRun r₁ r₂) :
    (emitRun cap k r₁).Alike SameRun (emitRun cap k r₂) := by
  obtain ⟨hs, w⟩ := h
  exact emitAll_alike cap _ (.mk hs _)

theorem rle0EncPass_alike (cap : Cap) (r₁ r₂ : Running) (h : SameRun r₁ r₂)
    (hi : r₁.w.i < r₁.s.inLen.toNat) :
    (rle0EncPass cap r₁).Alike SameRun (rle0EncPass cap r₂) := by
  obtain ⟨hs, w⟩ := h
  simp only [rle0EncPass, hs.inLen, hs.scanRun_eq, hs.input_eq (w₁ := w) hi]
  refine .bind_same _ fun b => ?_
  split
  · exact (emitAll_alike cap _ (.mk hs w)).bind fun _ _ h => .ok (h.advance 1)
  · split
    · refine .bind_same _ fun k => ?_
      refine Flow.Alike.bind (R := SameRun) ?_ fun _ _ h => .ok (h.advance k)
      split
      · exact emitRun_alike cap k (.mk hs _)
      · exact repeatEmit_alike cap _ k (.mk hs _)
    · exact (emit_alike cap b (.mk hs w)).bind fun _ _ h => .ok (h.advance 1)

theorem rle0Encode_alike (cap : Cap) (r₁ r₂ : Running) (h : SameRun r₁ r₂) :
    (rle0Encode cap r₁).Alike SameRun (rle0Encode cap r₂) := by
  have hloop := scanInput_alike (rle0EncPass_alike cap) r₁.s.inLen.toNat h
  obtain ⟨hs, w⟩ := h
  simpa only [rle0Encode, hs.inLen] using hloop

/-! ## rle0.dec -/

theorem emitZeros_alike (cap : Cap) (k : Nat) {r₁ r₂ : Running} (h : SameRun r₁ r₂) :
    (emitZeros cap k r₁).Alike SameRun (emitZeros cap k r₂) := by
  obtain ⟨hs, w⟩ := h
  refine (repeatEmit_alike cap _ k (.mk hs _)).bind fun _ _ h => ?_
  obtain ⟨hs, w⟩ := h
  exact .ok (.mk hs _)

theorem runToken_alike (cap : Cap) (bits : List Bool) (ending : RunEnd) {r₁ r₂ : Running}
    (h : SameRun r₁ r₂) :
    (runToken cap bits ending r₁).Alike SameRun (runToken cap bits ending r₂) := by
  obtain ⟨hs, w⟩ := h
  cases ending with
  | closed => exact emitZeros_alike cap _ (.mk hs _)
  | truncated => exact raise_alike
  | badByte b => exact raise_alike
  | tooLong d => exact raise_alike

theorem tokenMeaning_alike (cap : Cap) (i : Instr) {r₁ r₂ : Running} (h : SameRun r₁ r₂) :
    (tokenMeaning cap i r₁).Alike SameRun (tokenMeaning cap i r₂) := by
  cases i with
  | copy b => exact (emit_alike cap b h).bind fun _ _ h => .ok (h.advance 1)
  | escLit => exact (emit_alike cap _ h).bind fun _ _ h => .ok (h.advance 2)
  | run bits ending => exact runToken_alike cap bits ending h
  | _ => exact .refused _

theorem rle0DecPass_alike (cap : Cap) (r₁ r₂ : Running) (h : SameRun r₁ r₂) :
    (rle0DecPass cap r₁).Alike SameRun (rle0DecPass cap r₂) := by
  obtain ⟨hs, w⟩ := h
  simp only [rle0DecPass, hs.fetchToken_eq]
  split
  · exact tokenMeaning_alike cap _ (.mk hs w)
  · exact raise_alike
  · exact .refused _

theorem rle0Decode_alike (cap : Cap) (r₁ r₂ : Running) (h : SameRun r₁ r₂) :
    (rle0Decode cap r₁).Alike SameRun (rle0Decode cap r₂) := by
  have hloop := scanInput_alike (fun r₁ r₂ h _ => rle0DecPass_alike cap r₁ r₂ h) r₁.s.inLen.toNat h
  obtain ⟨hs, w⟩ := h
  simpa only [rle0Decode, hs.inLen] using hloop

/-! ## huff.enc -/

theorem putBit_alike (cap : Cap) (d : Bool) {r₁ r₂ : Running} (h : SameRun r₁ r₂) :
    (putBit cap d r₁).Alike SameRun (putBit cap d r₂) := by
  obtain ⟨hs, w⟩ := h
  unfold putBit
  split
  · exact (emit_alike cap _ (.mk hs _)).bind fun _ _ h => .ok (h.withAcc _ _)
  · exact .ok (.mk hs _)

theorem putBits_alike (cap : Cap) (ds : List Bool) {r₁ r₂ : Running} (h : SameRun r₁ r₂) :
    (putBits cap ds r₁).Alike SameRun (putBits cap ds r₂) := by
  induction ds generalizing r₁ r₂ with
  | nil => exact .ok h
  | cons d ds ih => exact (putBit_alike cap d h).bind fun _ _ => ih

theorem flush_alike (cap : Cap) {r₁ r₂ : Running} (h : SameRun r₁ r₂) :
    (flush cap r₁).Alike SameRun (flush cap r₂) := by
  obtain ⟨hs, w⟩ := h
  unfold flush
  split
  · exact .ok (.mk hs w)
  · exact (emit_alike cap _ (.mk hs w)).bind fun _ _ h => .ok (h.withAcc _ _)

theorem computeHistogram_alike {r₁ r₂ : Running} (h : SameRun r₁ r₂) :
    (computeHistogram r₁).Alike SameRun (computeHistogram r₂) := by
  obtain ⟨hs, w⟩ := h
  rw [computeHistogram, computeHistogram, hs.inLen, hs.countInput_eq w (Nat.zero_add _).le]
  exact .bind_same _ fun hist => .ok (.mk hs _)

theorem SameRun.modelOf {r₁ r₂ : Running} (h : SameRun r₁ r₂) : SameRun (modelOf r₁) (modelOf r₂) := by
  obtain ⟨hs, w⟩ := h
  simp only [Machine.modelOf, hs.inLen]
  exact .mk hs _

theorem emitHeader_alike (cap : Cap) {r₁ r₂ : Running} (h : SameRun r₁ r₂) :
    (emitHeader cap r₁).Alike SameRun (emitHeader cap r₂) := by
  obtain ⟨hs, w⟩ := h
  exact emitAll_alike cap _ (.mk hs w)

theorem packPass_alike (cap : Cap) (r₁ r₂ : Running) (h : SameRun r₁ r₂)
    (hi : r₁.w.i < r₁.s.inLen.toNat) : (packPass cap r₁).Alike SameRun (packPass cap r₂) := by
  obtain ⟨hs, w⟩ := h
  rw [packPass, packPass, hs.input_eq (w₁ := w) hi]
  exact .bind_same _ fun b =>
    (putBits_alike cap _ (.mk hs w)).bind fun _ _ h => .ok (h.advance 1)

theorem packAll_alike (cap : Cap) {r₁ r₂ : Running} (h : SameRun r₁ r₂) :
    (scanInput r₁.s.inLen.toNat (packPass cap) (r₁.withAcc 0#8 0)).Alike SameRun
      (scanInput r₂.s.inLen.toNat (packPass cap) (r₂.withAcc 0#8 0)) := by
  have hloop := scanInput_alike (packPass_alike cap) r₁.s.inLen.toNat (h.withAcc 0#8 0)
  obtain ⟨hs, w⟩ := h
  simpa only [hs.inLen] using hloop

theorem huffEncode_alike (cap : Cap) (r₁ r₂ : Running) (h : SameRun r₁ r₂) :
    (huffEncode cap r₁).Alike SameRun (huffEncode cap r₂) := by
  refine (computeHistogram_alike h).bind fun _ _ h => ?_
  refine (emitHeader_alike cap h.modelOf).bind fun _ _ h => ?_
  refine (packAll_alike cap h).bind fun _ _ h => ?_
  obtain ⟨hs, w⟩ := h
  rw [hs.inLen]
  exact flush_alike cap (.mk hs _)

/-! ## huff.dec -/

theorem getBit_alike {r₁ r₂ : Running} (h : SameRun r₁ r₂) :
    (getBit r₁).Alike SameReading (getBit r₂) := by
  obtain ⟨hs, w⟩ := h
  simp only [getBit, hs.inLen]
  split
  · exact raise_alike
  · next hbp =>
    rw [hs.input_eq (w₁ := w) (by omega)]
    exact .bind_same _ fun b => .ok ⟨rfl, .mk hs _⟩

theorem walkTree_alike (fuel n : Nat) {r₁ r₂ : Running} (h : SameRun r₁ r₂) :
    (walkTree fuel n r₁).Alike SameReading (walkTree fuel n r₂) := by
  induction fuel generalizing n r₁ r₂ with
  | zero =>
    obtain ⟨hs, w⟩ := h
    simp only [walkTree]
    split
    · exact .ok ⟨rfl, .mk hs w⟩
    · exact .fault _
  | succ fuel ih =>
    obtain ⟨hs, w⟩ := h
    simp only [walkTree]
    split
    · exact .ok ⟨rfl, .mk hs w⟩
    · refine (getBit_alike (.mk hs w)).bind fun p₁ p₂ hp => ?_
      obtain ⟨hbit, hrun⟩ := hp
      rw [hbit]
      exact ih _ hrun
    · exact .fault _

theorem decodeSymbol_alike {r₁ r₂ : Running} (h : SameRun r₁ r₂) :
    (decodeSymbol r₁).Alike SameReading (decodeSymbol r₂) := by
  obtain ⟨hs, w⟩ := h
  simp only [decodeSymbol]
  split
  · exact .fault _
  · split
    · exact (getBit_alike (.mk hs w)).bind fun _ _ hp => .ok ⟨rfl, hp.2⟩
    · exact walkTree_alike _ _ (.mk hs w)

theorem symbolPass_alike (cap : Cap) (r₁ r₂ : Running) (h : SameRun r₁ r₂) :
    (symbolPass cap r₁).Alike SameRun (symbolPass cap r₂) := by
  refine (decodeSymbol_alike h).bind fun p₁ p₂ hp => ?_
  obtain ⟨hsym, hrun⟩ := hp
  rw [hsym]
  exact emit_alike cap _ hrun

theorem decodeSymbols_alike (cap : Cap) {r₁ r₂ : Running} (h : SameRun r₁ r₂) :
    (decodeSymbols cap r₁).Alike SameRun (decodeSymbols cap r₂) := by
  obtain ⟨hs, w⟩ := h
  unfold decodeSymbols
  split
  · exact raise_alike
  · exact repeatTimes_alike (symbolPass_alike cap) _ (.mk hs _)

theorem parseHeader_alike {r₁ r₂ : Running} (h : SameRun r₁ r₂) (hlen : Config.hdr ≤ r₁.s.inLen.toNat) :
    (parseHeader r₁).Alike SameRun (parseHeader r₂) := by
  obtain ⟨hs, w⟩ := h
  rw [parseHeader, parseHeader, hs.readInput_eq w (by rwa [Nat.zero_add])]
  exact .bind_same _ fun bs => .ok (.mk hs _)

theorem huffDecode_alike (cap : Cap) (r₁ r₂ : Running) (h : SameRun r₁ r₂) :
    (huffDecode cap r₁).Alike SameRun (huffDecode cap r₂) := by
  have hheader := parseHeader_alike h
  obtain ⟨hs, w⟩ := h
  simp only [huffDecode, hs.inLen]
  split
  · exact raise_alike
  · next hlen =>
    refine (hheader (Nat.le_of_not_lt hlen)).bind fun _ _ h => ?_
    obtain ⟨hs, w⟩ := h
    split
    · exact .ok (.mk hs w)
    · exact decodeSymbols_alike cap (.mk hs _)

/-! ## The end of a command -/

theorem endCommand_sameEnd {x₁ x₂ : Flow Running} {t₁ : State} (hx : x₁.Alike SameRun x₂)
    (h : endCommand x₁ = .next t₁) : ∃ t₂, endCommand x₂ = .next t₂ ∧ SameEnd t₁ t₂ := by
  cases hx with
  | ok hr =>
    cases h
    obtain ⟨hs, w⟩ := hr
    exact ⟨_, rfl, rfl, hs.outLen, hs.obuf, nofun⟩
  | ended he => cases h; exact ⟨_, rfl, he⟩
  | refused e => cases h
  | fault e => cases h

theorem issueCoder_tooLong {op : Byte} {cap : Cap} {coder : Running → Flow Running} {s : State}
    (hf : s.status ≠ .fault) (hl : cap.bytes < s.inLen.toNat) :
    issueCoder op cap coder s = .next (raiseFault .inLen 0 { s with cmd := op }) :=
  (issue_of_ne hf).trans (checkLength_fault (s := { s with cmd := op }) hl)

theorem issueCoder_runs {op : Byte} {cap : Cap} {coder : Running → Flow Running} {s : State}
    (hf : s.status ≠ .fault) (hl : s.inLen.toNat ≤ cap.bytes) :
    issueCoder op cap coder s = endCommand (coder (startCommand { s with cmd := op })) :=
  (issue_of_ne hf).trans (checkLength_ok (s := { s with cmd := op }) hl)

/-- Issuing a coder in two states that hold the same input string, neither in the FAULT state. -/
theorem issueCoder_sameEnd {op : Byte} {cap : Cap} {coder : Running → Flow Running} {s₁ s₂ t₁ : State}
    (hcoder : ∀ r₁ r₂, SameRun r₁ r₂ → (coder r₁).Alike SameRun (coder r₂))
    (hf₁ : s₁.status ≠ .fault) (hf₂ : s₂.status ≠ .fault) (hlen : s₂.inLen = s₁.inLen)
    (hin : ∀ a, a < s₁.inLen.toNat → s₂.ibuf.read a = s₁.ibuf.read a)
    (h : issueCoder op cap coder s₁ = .next t₁) :
    ∃ t₂, issueCoder op cap coder s₂ = .next t₂ ∧ SameEnd t₁ t₂ := by
  rcases Nat.lt_or_ge cap.bytes s₁.inLen.toNat with hl | hl
  · rw [issueCoder_tooLong hf₁ hl] at h
    cases h
    exact ⟨_, issueCoder_tooLong hf₂ (by rwa [hlen]), rfl, rfl, rfl, fun _ => ⟨rfl, rfl⟩⟩
  · rw [issueCoder_runs hf₁ hl] at h
    rw [issueCoder_runs hf₂ (by rwa [hlen])]
    have hstart : SameStrings (startCommand { s₁ with cmd := op }).s (startCommand { s₂ with cmd := op }).s :=
      ⟨hlen, hin, rfl, rfl⟩
    exact endCommand_sameEnd (hcoder _ _ (.mk hstart _)) h

end Sys2Proof.Machine

open Sys2Proof Sys2Proof.Machine Sys2Proof.Safety

/-- Settles O32: each coder, run in two states side by side, keeps their strings and working states the
same and stops alike. -/
theorem resultDependsOnTheInputOnly : Obligations.ResultDependsOnTheInputOnly := by
  intro s₁ s₂ t₁ i op hi hf₁ hf₂ hlen hin h
  have hin' : ∀ a, a < s₁.inLen.toNat → s₂.ibuf.read a = s₁.ibuf.read a := fun a ha => (hin a ha).symm
  obtain ⟨t₂, hnext, he⟩ : ∃ t₂, exec i s₂ = .next t₂ ∧ SameEnd t₁ t₂ := by
    simp only [coders, List.mem_cons, List.not_mem_nil, or_false, Prod.mk.injEq] at hi
    obtain ⟨rfl, -⟩ | ⟨rfl, -⟩ | ⟨rfl, -⟩ | ⟨rfl, -⟩ := hi
    · exact issueCoder_sameEnd (rle0Encode_alike _) hf₁ hf₂ hlen.symm hin' h
    · exact issueCoder_sameEnd (rle0Decode_alike _) hf₁ hf₂ hlen.symm hin' h
    · exact issueCoder_sameEnd (huffEncode_alike _) hf₁ hf₂ hlen.symm hin' h
    · exact issueCoder_sameEnd (huffDecode_alike _) hf₁ hf₂ hlen.symm hin' h
  exact ⟨t₂, hnext, he.status, he.outLen, he.obuf, he.fault⟩

end

section
/-! Whose move a step is, and everything that one access of the host can do: the inversion lemmas that the
invariants are derived from. -/

namespace Sys2Proof.Machine

open Sys2Proof.Safety

/-! ## The step -/

theorem resetComes_iff (s : State) : resetComes s = true ↔ ∃ rest, s.pending = .reset :: rest := by
  unfold resetComes
  split
  · next h => simp [h]
  · next h => simpa using h

theorem hostStep_cons {s : State} {x : Access} {rest : List Access} (h : s.pending = x :: rest) :
    hostStep s = access x { s with pending := rest } := by
  simp only [hostStep, h]

/-- While no command runs, a step is the host's (70_reset_and_hazards.md R260, R266). -/
theorem step_of_ne_busy {s : State} (hb : s.status ≠ .busy) : step s = hostStep s := by
  unfold step transition
  rw [if_neg hb, ite_self]

/-- While no command runs, a step is the host's next access. -/
theorem step_access {s : State} {x : Access} {rest : List Access} (hb : s.status ≠ .busy)
    (hp : s.pending = x :: rest) : step s = access x { s with pending := rest } :=
  (step_of_ne_busy hb).trans (hostStep_cons hp)

/-- While a command runs, a step is the reset input or the engine's (R260, R266). -/
theorem step_busy_cases {s t : State} (hb : s.status = .busy) (h : step s = .next t) :
    (∃ rest, t = resetBlock { s with pending := rest }) ∨ engineStep s = .next t := by
  unfold step transition at h
  by_cases hr : resetComes s = true
  · rw [if_pos hr] at h
    obtain ⟨rest, hp⟩ := (resetComes_iff s).1 hr
    rw [hostStep_cons hp] at h
    cases h
    exact .inl ⟨rest, rfl⟩
  · rw [if_neg hr, if_pos hb] at h
    exact .inr h

/-! ## Register writes (20_memory.md R51) -/

theorem regWrite_command (v : Word) (s : State) : regWrite 0 v s = exec (decodeCommand v) s := rfl

theorem regWrite_inLen (v : Word) (s : State) :
    regWrite 4 v s = .next (if s.status = .fault then s else { s with inLen := v }) := rfl

theorem regWrite_ignored {n : Nat} (v : Word) (s : State) (h0 : n ≠ 0) (h4 : n ≠ 4) :
    regWrite n v s = .next s := by
  unfold regWrite
  split
  · contradiction
  · contradiction
  · rfl

/-! ## The host's move -/

/-- Everything that one access of the host can do to the block and to its own replies (20_memory.md R51,
R52; 44_control.md R200 to R207). -/
inductive HostMove (s : State) : State → Prop where
  /-- a read, or an access that is ignored -/
  | outside (replies : List Reply) (draws : Nat) :
      HostMove s { s with replies := replies, draws := draws }
  | setInLen (hf : s.status ≠ .fault) (v : Word) : HostMove s { s with inLen := v }
  | writeIbuf (hf : s.status ≠ .fault) {a : Nat} (ha : a < Config.bufCap.bytes) (b : Byte) :
      HostMove s { s with ibuf := s.ibuf.write a b }
  | reset : HostMove s (resetBlock s)
  | takeFault (hf : s.status ≠ .fault) (op : Byte) {code : FaultCode} (hc : code ≠ .none) (pos : Nat) :
      HostMove s (raiseFault code pos { s with cmd := op })
  /-- a coder ran to its end -/
  | finish (hf : s.status ≠ .fault) {op : Byte} {r : Running}
      (hr : Coding Config.bufCap { s with cmd := op } r) : HostMove s (finishCommand r)
  | swap (hf : s.status ≠ .fault) (hl : s.inLen.toNat ≤ Config.bufCap.bytes) :
      HostMove s (exchange { s with cmd := 0x05#8 })

/-- An access that is ignored. -/
theorem HostMove.ignored (s : State) : HostMove s s := .outside s.replies s.draws

theorem issueCoder_hostMove {op : Byte} {coder : Running → Flow Running} {s t : State}
    (hcoder : ∀ s, (coder (startCommand s)).All (Coding Config.bufCap s) (Faulted s))
    (h : issueCoder op Config.bufCap coder s = .next t) : HostMove s t := by
  obtain ⟨-, rfl⟩ | ⟨hf, -, r, hr, rfl⟩ | ⟨hf, code, pos, hc, rfl⟩ := issueCoder_next hcoder h
  · exact .ignored _
  · exact .finish hf hr
  · exact .takeFault hf op hc pos

theorem execXchg_hostMove {s t : State} (h : execXchg s = .next t) : HostMove s t := by
  unfold execXchg at h
  by_cases hf : s.status = .fault
  · rw [issue_fault hf] at h
    cases h
    exact .ignored _
  · rw [issue_of_ne hf] at h
    rcases Nat.lt_or_ge Config.bufCap.bytes s.inLen.toNat with hl | hl
    · rw [checkLength_fault (by exact hl)] at h
      cases h
      exact .takeFault hf _ (by decide) 0
    · rw [checkLength_ok (by exact hl)] at h
      cases h
      exact .swap hf hl

theorem execReserved_hostMove {op : Byte} {s t : State} (h : execReserved op s = .next t) :
    HostMove s t := by
  unfold execReserved at h
  by_cases hf : s.status = .fault
  · rw [issue_fault hf] at h
    cases h
    exact .ignored _
  · rw [issue_of_ne hf] at h
    cases h
    exact .takeFault hf op (by decide) 0

/-- Every command of the command word makes a move of the host's. -/
theorem exec_hostMove {i : Instr} {s t : State} (hi : isToken i = false) (h : exec i s = .next t) :
    HostMove s t := by
  cases i with
  | rle0Enc => exact issueCoder_hostMove (rle0Encode_coding _) h
  | rle0Dec => exact issueCoder_hostMove (rle0Decode_coding _) h
  | huffEnc => exact issueCoder_hostMove (huffEncode_coding _) h
  | huffDec => exact issueCoder_hostMove (huffDecode_coding _) h
  | xchg => exact execXchg_hostMove h
  | srst => cases h; exact .reset
  | reserved op => exact execReserved_hostMove h
  | copy b => cases hi
  | escLit => cases hi
  | run bits ending => cases hi

/-- A command word names no token (30_encoding.md R71, R72). -/
theorem isToken_decodeCommand (v : Word) : isToken (decodeCommand v) = false := by
  unfold decodeCommand
  repeat' split
  all_goals rfl

theorem regWrite_hostMove {n : Nat} {v : Word} {s t : State} (h : regWrite n v s = .next t) :
    HostMove s t := by
  by_cases h0 : n = 0
  · subst h0
    rw [regWrite_command] at h
    exact exec_hostMove (isToken_decodeCommand v) h
  · by_cases h4 : n = 4
    · subst h4
      rw [regWrite_inLen] at h
      split at h
      · cases h; exact .ignored _
      · next hf => cases h; exact .setInLen hf v
    · rw [regWrite_ignored v s h0 h4] at h
      cases h
      exact .ignored _

theorem ibufWrite_hostMove (a : Nat) (b : Byte) (s : State) :
    HostMove s (ibufWrite Config.bufCap a b s) := by
  unfold ibufWrite
  split
  · next hs =>
    have hf : s.status ≠ .fault := by rcases hs with hs | hs <;> simp [hs]
    split
    · next ha => exact .writeIbuf hf ((capHasAddress_iff _ _).1 ha) b
    · exact .ignored _
  · exact .ignored _

theorem ibufRead_hostMove (a : Nat) (s : State) : HostMove s (ibufRead Config.bufCap a s) := by
  unfold ibufRead
  split
  · split
    · exact .outside _ _
    · exact .outside _ _
  · exact .outside _ _

theorem obufRead_hostMove (a : Nat) (s : State) : HostMove s (obufRead a s) := by
  unfold obufRead
  split
  · split
    · exact .outside _ _
    · exact .outside _ _
  · exact .outside _ _

theorem access_hostMove {x : Access} {s t : State} (h : access x s = .next t) : HostMove s t := by
  cases x with
  | regRead n => cases h; exact .outside _ _
  | regWrite n v => exact regWrite_hostMove h
  | ibufWrite a b => cases h; exact ibufWrite_hostMove a b s
  | ibufRead a => cases h; exact ibufRead_hostMove a s
  | obufRead a => cases h; exact obufRead_hostMove a s
  | reset => cases h; exact .reset

/-- The host's step: it takes its next access off the list, if it has one, and makes it. -/
theorem hostStep_hostMove {s t : State} (h : hostStep s = .next t) :
    ∃ rest, HostMove { s with pending := rest } t := by
  unfold hostStep at h
  split at h
  · cases h; exact ⟨s.pending, .ignored _⟩
  · next rest _ => exact ⟨rest, access_hostMove h⟩

end Sys2Proof.Machine
end

section
/-! The token under the cursor: what the decoder answers is a token, and the bytes it consumed are that
token's (30_encoding.md R73 to R79), so that the fetch does not look beyond the input string. -/

namespace Sys2Proof.Machine

open Sys2Proof.Safety

theorem decodeToken_spells {bs rest : List Byte} {i : Instr} (h : decodeToken bs = .ok i rest) :
    isToken i = true ∧ bs = tokenBytes i ++ rest := by
  unfold decodeToken at h
  split at h
  · cases h
  · next b bs =>
    split at h
    · next hb =>
      subst hb
      split at h
      · cases h
      · next c cs =>
        split at h
        · next hc => subst hc; cases h; exact ⟨rfl, rfl⟩
        · split at h
          · next hc =>
            subst hc
            cases h
            obtain ⟨-, -, -, -, hcs⟩ := readRun_inv cs Config.runBitsMax
            exact ⟨rfl, congrArg (Config.esc :: Config.tagRun :: ·) hcs⟩
          · cases h
    · cases h; exact ⟨rfl, rfl⟩

/-- What is fetched is what the decoder answers on the defined bytes under the cursor. -/
theorem decodeToken_of_fetchToken {s : State} {a : Nat} {i : Instr} (h : fetchToken s a = .token i) :
    ∃ rest, decodeToken (s.ibuf.stretch a (min longestToken (s.inLen.toNat - a))) = .ok i rest := by
  unfold fetchToken at h
  dsimp only at h
  split at h
  · next hd =>
    split at h
    · cases h; exact ⟨_, hd⟩
    · cases h
  · next hd => cases h; exact ⟨_, hd⟩
  · cases h
  · split at h <;> cases h
  · cases h

theorem fetchToken_inside {s : State} {a : Nat} {i : Instr} (ha : a ≤ s.inLen.toNat)
    (h : fetchToken s a = .token i) :
    isToken i = true ∧ a + (tokenBytes i).length ≤ s.inLen.toNat := by
  obtain ⟨rest, hd⟩ := decodeToken_of_fetchToken h
  obtain ⟨hi, hbs⟩ := decodeToken_spells hd
  refine ⟨hi, ?_⟩
  have hle := Memory.length_stretch_le s.ibuf a (min longestToken (s.inLen.toNat - a))
  rw [hbs, List.length_append] at hle
  omega

theorem exec_token {i : Instr} (hi : isToken i = true) (s : State) :
    exec i s = onRunning s (tokenMeaning Config.bufCap i) := by
  cases i with
  | copy b => rfl
  | escLit => rfl
  | run bits ending => rfl
  | _ => cases hi

end Sys2Proof.Machine
end

section
/-! The invariants are kept: by reset, by a fault, by the end of a command, by every move of the host, and
by every token of a running `rle0.dec`. -/

namespace Sys2Proof.Safety

open Sys2Proof.Machine

/-! ## Buffers -/

theorem BufferOk.nil : BufferOk [] := ⟨Memory.wf_nil, by simp⟩

theorem BufferOk.write {m : Memory} (h : BufferOk m) {a : Nat} (ha : a < Config.bufCap.bytes) (b : Byte) :
    BufferOk (m.write a b) := by
  refine ⟨Memory.wf_write m a b h.1, fun c hc => ?_⟩
  rcases Memory.mem_write m a b c hc with rfl | hc
  · exact ha
  · exact h.2 c hc

/-- A buffer whose defined bytes are exactly those below a length that fits. -/
theorem BufferOk.of_filled {m : Memory} {n : Nat} (h : m.map Prod.fst = List.range n)
    (hn : n ≤ Config.bufCap.bytes) : BufferOk m := by
  refine ⟨by rw [Memory.wf, h]; exact List.pairwise_lt_range, fun c hc => ?_⟩
  have hmem : c.1 ∈ List.range n := h ▸ List.mem_map_of_mem hc
  exact (List.mem_range.1 hmem).trans_le hn

/-! ## The invariant of the machine -/

theorem inv_reset : Inv State.reset where
  ibufOk := .nil
  obufOk := .nil
  outLenFits := Nat.zero_le _
  faultCode := by decide
  faultPos _ := rfl
  idleClean _ := ⟨rfl, rfl⟩
  faultClean _ := rfl
  obufEmpty _ := rfl
  obufFilled _ := rfl
  workExists := by decide
  running _ hw := by cases hw

/-- The invariant does not see the host's side. -/
theorem Inv.outside {s : State} (h : Inv s) (pending : List Access) (replies : List Reply) (draws : Nat) :
    Inv { s with pending := pending, replies := replies, draws := draws } := { h with }

theorem Inv.work_eq_none {s : State} (h : Inv s) (hb : s.status ≠ .busy) : s.work = none :=
  Option.not_isSome_iff_eq_none.1 fun hw => hb (h.workExists.1 hw)

/-- A fault leaves a state that meets the invariant, whatever ran before (60_exceptions.md R233). -/
theorem inv_raiseFault {code : FaultCode} {s : State} (hc : code ≠ .none) (pos : Nat)
    (hi : BufferOk s.ibuf) : Inv (raiseFault code pos s) where
  ibufOk := hi
  obufOk := .nil
  outLenFits := Nat.zero_le _
  faultCode := by simp [hc]
  faultPos h := absurd rfl h
  idleClean h := by cases h
  faultClean _ := rfl
  obufEmpty _ := rfl
  obufFilled := by simp
  workExists := by simp
  running _ hw := by cases hw

/-- The end of a command whose output fills `OBUF` up to `OUT_LEN` (44_control.md R204). -/
theorem inv_finishCommand {r : Running} (hi : BufferOk r.s.ibuf) (hf : r.s.fault = .none)
    (hp : r.s.faultPos = 0#32) (ho : r.s.obuf.map Prod.fst = List.range r.s.outLen.toNat)
    (hl : r.s.outLen.toNat ≤ Config.bufCap.bytes) : Inv (finishCommand r) where
  ibufOk := hi
  obufOk := .of_filled ho hl
  outLenFits := hl
  faultCode := by simp [hf]
  faultPos _ := hp
  idleClean h := by cases h
  faultClean h := by cases h
  obufEmpty := by simp
  obufFilled _ := ho
  workExists := by simp
  running _ hw := by cases hw

/-- `xchg` after its length check (44_control.md R206). -/
theorem Inv.exchange {s : State} (h : Inv s) (hb : s.status ≠ .busy) (hf : s.status ≠ .fault)
    (hl : s.inLen.toNat ≤ Config.bufCap.bytes) : Inv (exchange { s with cmd := 0x05#8 }) where
  ibufOk := h.obufOk
  obufOk := h.ibufOk
  outLenFits := hl
  faultCode := by simp [h.faultCode.2 hf]
  faultPos _ := h.faultPos hf
  idleClean hs := by cases hs
  faultClean hs := by cases hs
  obufEmpty := by simp
  obufFilled := by simp
  workExists := by simp [h.work_eq_none hb]
  running w hw := by cases (h.work_eq_none hb).symm.trans hw

/-- Every move of the host keeps the invariant while no command runs. -/
theorem Inv.hostMove {s t : State} (h : Inv s) (hb : s.status ≠ .busy) (m : HostMove s t) : Inv t := by
  cases m with
  | outside replies draws => exact h.outside s.pending replies draws
  | setInLen _ v => exact { h with running := fun w hw => by cases (h.work_eq_none hb).symm.trans hw }
  | writeIbuf _ ha b => exact { h with ibufOk := h.ibufOk.write ha b }
  | reset => exact inv_reset.outside _ _ _
  | takeFault _ op hc pos => exact inv_raiseFault hc pos h.ibufOk
  | finish hf hr =>
    exact inv_finishCommand (hr.ibuf ▸ h.ibufOk) (hr.fault.trans (h.faultCode.2 hf))
      (hr.faultPos.trans (h.faultPos hf)) hr.filled hr.fits
  | swap hf hl => exact h.exchange hb hf hl

/-! ## A running `rle0.dec`

Inside the running command the invariant is the one of the suspended state, so that a token that goes on
leaves it, and one that faults leaves the invariant of the faulted state. -/

/-- Only the working state changes, the cursor staying inside the input string. -/
theorem Inv.setWork {r : Running} (h : Inv (suspend r)) {w : Work} (hw : w.i ≤ r.s.inLen.toNat) :
    Inv (suspend { r with w := w }) := by
  obtain ⟨hcmd, hlen, -⟩ := h.running r.w rfl
  exact { h with
    workExists := by simpa using h.workExists
    running := fun w' hw' => by cases hw'; exact ⟨hcmd, hlen, hw⟩ }

theorem Inv.busy {r : Running} (h : Inv (suspend r)) : r.s.status = .busy := h.workExists.1 rfl

/-- `r'` is `r` after some bytes were emitted, and its suspended state meets the invariant. -/
structure Emitted (r r' : Running) : Prop where
  inv : Inv (suspend r')
  w : r'.w = r.w
  inLen : r'.s.inLen = r.s.inLen

theorem inv_afterEmit {r : Running} (h : Inv (suspend r)) (hl : r.s.outLen.toNat < Config.bufCap.bytes)
    (b : Byte) : Inv (suspend (afterEmit b r)) := by
  have hb := h.busy
  have hlen := afterEmit_outLen (b := b) hl
  have hfilled : (afterEmit b r).s.obuf.map Prod.fst = List.range (afterEmit b r).s.outLen.toNat := by
    have ho : r.s.obuf.map Prod.fst = List.range r.s.outLen.toNat := h.obufFilled (.inl hb)
    rw [List.range_eq_range'] at ho
    rw [hlen, List.range_eq_range']
    simpa [afterEmit] using Memory.map_fst_write r.s.obuf 0 r.s.outLen.toNat b ho
  have hfits : (afterEmit b r).s.outLen.toNat ≤ Config.bufCap.bytes := by omega
  exact { h with
    obufOk := .of_filled hfilled hfits
    outLenFits := hfits
    idleClean := fun hs => by cases hb.symm.trans hs
    faultClean := fun hs => by cases hb.symm.trans hs
    obufEmpty := fun hs => by rcases hs with hs | hs <;> cases hb.symm.trans hs
    obufFilled := fun _ => hfilled }

theorem emit_inv (b : Byte) {r : Running} (h : Inv (suspend r)) :
    (emit Config.bufCap b r).All (Emitted r) Inv := by
  rcases emit_cases Config.bufCap b r with ⟨hl, he⟩ | ⟨-, he⟩ | ⟨-, he⟩
  · rw [he]; exact .ok ⟨inv_afterEmit h hl b, rfl, rfl⟩
  · rw [he]; exact .ended (inv_raiseFault (by decide) _ h.ibufOk)
  · rw [he]; exact .fault _

theorem repeatEmit_inv (b : Byte) (k : Nat) {r : Running} (h : Inv (suspend r)) :
    (repeatTimes k (emit Config.bufCap b) r).All (Emitted r) Inv :=
  repeatTimes_all (fun _ h' => (emit_inv b h'.inv).mono fun _ h'' =>
    ⟨h''.inv, h''.w.trans h'.w, h''.inLen.trans h'.inLen⟩) k r ⟨h, rfl, rfl⟩

/-- COPY and ESCLIT: a byte is emitted and the cursor moves on by `n`. -/
theorem emitAdvance_inv (b : Byte) (n : Nat) {r : Running} (h : Inv (suspend r))
    (hn : r.w.i + n ≤ r.s.inLen.toNat) :
    ((emit Config.bufCap b r).bind fun r => .ok (r.advance n)).All (fun r' => Inv (suspend r')) Inv :=
  (emit_inv b h).bind fun r' h' => .ok (h'.inv.setWork (by rw [h'.w, h'.inLen]; exact hn))

theorem emitZeros_inv (k : Nat) {r : Running} (h : Inv (suspend r)) (hj : r.w.j + 1 ≤ r.s.inLen.toNat) :
    (emitZeros Config.bufCap k r).All (fun r' => Inv (suspend r')) Inv := by
  obtain ⟨-, -, hi⟩ := h.running r.w rfl
  have hk : Inv (suspend { r with w := { r.w with k := k } }) := h.setWork hi
  exact (repeatEmit_inv _ k hk).bind fun r' h' =>
    .ok (h'.inv.setWork (w := { r'.w with i := r'.w.j + 1 }) (by rw [h'.w, h'.inLen]; exact hj))

theorem runToken_inv (bits : List Bool) (ending : RunEnd) {r : Running} (h : Inv (suspend r))
    (hn : r.w.i + (tokenBytes (.run bits ending)).length ≤ r.s.inLen.toNat) :
    (runToken Config.bufCap bits ending r).All (fun r' => Inv (suspend r')) Inv := by
  obtain ⟨-, -, hi⟩ := h.running r.w rfl
  have h' : Inv (suspend (afterBits bits r)) := h.setWork hi
  cases ending with
  | closed =>
    refine emitZeros_inv _ h' ?_
    simp only [tokenBytes, encode, runBytes, runTail, List.length_cons, List.length_append,
      List.length_map, List.length_nil] at hn
    simp only [afterBits_w_j, afterBits_s]
    omega
  | truncated => exact .ended (inv_raiseFault (by decide) _ h.ibufOk)
  | badByte b => exact .ended (inv_raiseFault (by decide) _ h.ibufOk)
  | tooLong d => exact .ended (inv_raiseFault (by decide) _ h.ibufOk)

theorem tokenMeaning_inv (i : Instr) {r : Running} (h : Inv (suspend r))
    (hn : r.w.i + (tokenBytes i).length ≤ r.s.inLen.toNat) :
    (tokenMeaning Config.bufCap i r).All (fun r' => Inv (suspend r')) Inv := by
  cases i with
  | copy b => exact emitAdvance_inv b 1 h hn
  | escLit => exact emitAdvance_inv _ 2 h hn
  | run bits ending => exact runToken_inv bits ending h hn
  | _ => exact .refused _

theorem inv_of_endToken {x : Flow Running} {t : State} (hx : x.All (fun r => Inv (suspend r)) Inv)
    (h : endToken x = .next t) : Inv t := by
  cases hx with
  | ok hr => cases h; exact hr
  | ended hs => cases h; exact hs
  | refused e => cases h
  | fault e => cases h

theorem onRunning_some {s : State} {w : Work} (hw : s.work = some w) (token : Running → Flow Running) :
    onRunning s token = endToken (token { s := s, w := w }) := by
  simp only [onRunning, hw]

theorem suspend_self {s : State} {w : Work} (hw : s.work = some w) :
    suspend { s := s, w := w } = s := by
  unfold suspend
  rw [← hw]

/-- A move of the engine keeps the invariant. -/
theorem Inv.engineStep {s t : State} (h : Inv s) (ht : engineStep s = .next t) : Inv t := by
  unfold Machine.engineStep at ht
  split at ht
  · cases ht
  · next w hw =>
    obtain ⟨hcmd, hlen, hi⟩ := h.running w hw
    have hb : s.status = .busy := h.workExists.1 (by rw [hw]; rfl)
    have hf : s.status ≠ .fault := by rw [hb]; decide
    rw [if_pos hcmd] at ht
    split at ht
    · split at ht
      · next i hfetch =>
        obtain ⟨htok, hin⟩ := fetchToken_inside hi hfetch
        rw [exec_token htok, onRunning_some hw] at ht
        exact inv_of_endToken (tokenMeaning_inv i (by rwa [suspend_self hw]) hin) ht
      · cases ht; exact inv_raiseFault (by decide) _ h.ibufOk
      · cases ht
    · cases ht
      exact inv_finishCommand h.ibufOk (h.faultCode.2 hf) (h.faultPos hf) (h.obufFilled (.inl hb))
        h.outLenFits

/-! ## R46 (a) to (f) -/

theorem hostInv_reset : HostInv State.reset where
  outLenFits := Nat.zero_le _
  faultCode := by decide
  faultPos _ := rfl
  notBusy := by decide
  idleClean _ := ⟨rfl, rfl⟩
  faultClean _ := rfl

/-- R46 does not see the host's side. -/
theorem HostInv.outside {s : State} (h : HostInv s) (pending : List Access) (replies : List Reply)
    (draws : Nat) : HostInv { s with pending := pending, replies := replies, draws := draws } := { h with }

theorem hostInv_raiseFault {code : FaultCode} (hc : code ≠ .none) (pos : Nat) (s : State) :
    HostInv (raiseFault code pos s) where
  outLenFits := Nat.zero_le _
  faultCode := by simp [hc]
  faultPos h := absurd rfl h
  notBusy := by simp
  idleClean h := by cases h
  faultClean _ := rfl

/-- In the DONE state R46 asks for no more than a length that fits and no fault. -/
theorem hostInv_of_done {s : State} (hs : s.status = .done) (hf : s.fault = .none)
    (hp : s.faultPos = 0#32) (hl : s.outLen.toNat ≤ Config.bufCap.bytes) : HostInv s where
  outLenFits := hl
  faultCode := by simp [hs, hf]
  faultPos _ := hp
  notBusy := by simp [hs]
  idleClean h := by cases hs.symm.trans h
  faultClean h := by cases hs.symm.trans h

/-- Every move of the host keeps R46 (a) to (f). -/
theorem HostInv.hostMove {s t : State} (h : HostInv s) (m : HostMove s t) : HostInv t := by
  cases m with
  | outside replies draws => exact h.outside s.pending replies draws
  | setInLen _ v => exact { h with }
  | writeIbuf _ ha b => exact { h with }
  | reset => exact hostInv_reset.outside _ _ _
  | takeFault _ op hc pos => exact hostInv_raiseFault hc pos _
  | finish hf hr =>
    exact hostInv_of_done rfl (hr.fault.trans (h.faultCode.2 hf)) (hr.faultPos.trans (h.faultPos hf))
      hr.fits
  | swap hf hl => exact hostInv_of_done rfl (h.faultCode.2 hf) (h.faultPos hf) hl

end Sys2Proof.Safety

open Sys2Proof Sys2Proof.Machine Sys2Proof.Safety

/-- Settles O9: while no command runs a step is a move of the host's, otherwise it is the reset input or a
move of the engine, and each of them keeps the invariant. -/
theorem stepKeepsInvariant : Obligations.StepKeepsInvariant := by
  intro s t hs h
  by_cases hb : s.status = .busy
  · obtain ⟨rest, rfl⟩ | he := step_busy_cases hb h
    · exact inv_reset.outside _ _ _
    · exact hs.engineStep he
  · rw [step_of_ne_busy hb] at h
    obtain ⟨rest, hm⟩ := hostStep_hostMove h
    exact (hs.outside rest s.replies s.draws).hostMove hb hm

/-- Settles O10: by R46 (d) every step is the host's, and each of the host's moves keeps (a) to (f). -/
theorem hostInvariantsHold : Obligations.HostInvariantsHold := by
  refine ⟨hostInv_reset, fun s t hs h => ?_⟩
  rw [step_of_ne_busy hs.notBusy] at h
  obtain ⟨rest, hm⟩ := hostStep_hostMove h
  exact (hs.outside rest s.replies s.draws).hostMove hm

/-- Settles O8: the base case of both invariants. -/
theorem resetMeetsInvariants : Obligations.ResetMeetsInvariants := ⟨inv_reset, hostInv_reset⟩

/-- Settles O7: R45's table, register by register. -/
theorem resetLeavesSpecValues : Obligations.ResetLeavesSpecValues :=
  ⟨rfl, rfl, rfl, rfl, rfl, rfl, fun _ => rfl, fun _ => rfl, rfl,
    fun _ => ⟨rfl, rfl, rfl, rfl, rfl, rfl, rfl, rfl, rfl, rfl, rfl, rfl, rfl⟩⟩

/-- Settles O15, register by register. -/
theorem registerAccess : Obligations.RegisterAccess := by
  intro s n v rest hb
  refine ⟨fun hp => ?_, fun hp => ?_⟩
  · rw [step_access hb hp]
    match n with
    | 0 => rfl
    | 1 =>
      change Host.Outcome.next (reply (.word s.status.bits) _) = _
      cases s.status <;> rfl
    | 2 =>
      change Host.Outcome.next (reply (.word s.fault.bits) _) = _
      cases s.fault <;> rfl
    | 3 => rfl
    | 4 => rfl
    | 5 => rfl
    | n + 6 => rfl
  · rw [step_access hb hp]
    change regWrite n v _ = _
    by_cases h0 : n = 0
    · subst h0
      rw [regWrite_command, if_pos rfl]
    · rw [if_neg h0]
      by_cases h4 : n = 4
      · subst h4
        rw [regWrite_inLen]
        by_cases hf : s.status = .fault <;> simp [hf]
      · rw [regWrite_ignored v _ h0 h4, if_neg (by simp [h4])]

end

section
/-! The weights of the Huffman tree (42_huffman_model.md R143 to R145): every merge keeps the sum of the
weights in the queue, so no weight exceeds the sum of the counts. -/

namespace Sys2Proof.Machine

/-! ## The queue -/

theorem insertNode_perm (node : List Node) (n : Nat) (q : List Nat) :
    (insertNode node n q).Perm (n :: q) := by
  unfold insertNode
  exact List.perm_middle.trans (by rw [List.take_append_drop])

theorem foldl_insertNode_perm (node : List Node) (ids q : List Nat) :
    (ids.foldl (fun q x => insertNode node x q) q).Perm (ids ++ q) := by
  induction ids generalizing q with
  | nil => exact .refl q
  | cons x ids ih =>
    exact (ih (insertNode node x q)).trans
      (((insertNode_perm node x q).append_left ids).trans List.perm_middle)

theorem sortIds_perm (node : List Node) (ids : List Nat) : (sortIds node ids).Perm ids := by
  simpa [sortIds] using foldl_insertNode_perm node ids []

/-! ## Sums of weights -/

/-- The sum of the weights of the queued nodes. -/
def queueWeight (node : List Node) (q : List Nat) : Nat := (q.map (nodeWeight node)).sum

theorem queueWeight_perm {node : List Node} {q q' : List Nat} (h : q.Perm q') :
    queueWeight node q = queueWeight node q' := (h.map _).sum_eq

theorem nodeWeight_append_of_lt {node new : List Node} {x : Nat} (hx : x < node.length) :
    nodeWeight (node ++ new) x = nodeWeight node x := by
  unfold nodeWeight
  rw [List.getElem?_append_left hx]

theorem nodeWeight_append_new (node : List Node) (n : Node) :
    nodeWeight (node ++ [n]) node.length = n.weight := by
  simp [nodeWeight]

theorem queueWeight_append {node new : List Node} {q : List Nat} (hq : ∀ x ∈ q, x < node.length) :
    queueWeight (node ++ new) q = queueWeight node q :=
  congrArg List.sum (List.map_congr_left fun x hx => nodeWeight_append_of_lt (hq x hx))

/-- The weights of the leaves sum to the sum of the counts (R143). -/
theorem sum_weight_leavesFrom (s : Nat) (cs : List Nat) :
    ((leavesFrom s cs).map Node.weight).sum = cs.sum := by
  induction cs generalizing s with
  | nil => rfl
  | cons c cs ih =>
    unfold leavesFrom
    split
    · next hc => rw [ih, List.sum_cons, hc, Nat.zero_add]
    · rw [List.map_cons, List.sum_cons, List.sum_cons, ih]; rfl

/-- A queue of all nodes weighs what the nodes weigh. -/
theorem queueWeight_range (node : List Node) :
    queueWeight node (List.range node.length) = (node.map Node.weight).sum := by
  refine congrArg List.sum (List.ext_getElem (by simp) fun x h1 h2 => ?_)
  have hx : x < node.length := by simpa using h2
  simp [nodeWeight, hx]

/-! ## The merge loop -/

/-- The queued ids name nodes, and neither the queue nor any node weighs more than `W`. -/
structure WeighsAtMost (W : Nat) (node : List Node) (q : List Nat) : Prop where
  valid : ∀ x ∈ q, x < node.length
  queue : queueWeight node q ≤ W
  nodes : ∀ n ∈ node, n.weight ≤ W

/-- One merge keeps the weight of the queue (R145). -/
theorem WeighsAtMost.merge {W : Nat} {node : List Node} {a b : Nat} {rest : List Nat}
    (h : WeighsAtMost W node (a :: b :: rest)) {new : Node}
    (hnew : new.weight = nodeWeight node a + nodeWeight node b) :
    WeighsAtMost W (node ++ [new]) (insertNode (node ++ [new]) node.length rest) := by
  have hperm := insertNode_perm (node ++ [new]) node.length rest
  have hrest : ∀ x ∈ rest, x < node.length := fun x hx => h.valid x (by simp [hx])
  have hsum : new.weight + queueWeight node rest ≤ W := by
    have := h.queue
    simp only [queueWeight, List.map_cons, List.sum_cons] at this ⊢
    omega
  refine ⟨fun x hx => ?_, ?_, fun n hn => ?_⟩
  · rw [List.length_append, List.length_singleton]
    rcases List.mem_cons.1 (hperm.mem_iff.1 hx) with rfl | hx
    · omega
    · have := hrest x hx; omega
  · calc queueWeight (node ++ [new]) (insertNode (node ++ [new]) node.length rest)
        = nodeWeight (node ++ [new]) node.length + queueWeight (node ++ [new]) rest :=
          queueWeight_perm hperm
      _ = new.weight + queueWeight node rest := by
          rw [nodeWeight_append_new, queueWeight_append hrest]
      _ ≤ W := hsum
  · rcases List.mem_append.1 hn with hn | hn
    · exact h.nodes n hn
    · rw [List.mem_singleton.1 hn]; omega

theorem mergeLoop_weighsAtMost {W : Nat} (fuel : Nat) (node : List Node) (q : List Nat)
    (h : WeighsAtMost W node q) :
    WeighsAtMost W (mergeLoop fuel node q).1 (mergeLoop fuel node q).2 := by
  fun_induction mergeLoop fuel node q with
  | case1 node fuel a b rest node' ih => exact ih (h.merge rfl)
  | case2 => exact h

/-- No node of the tree weighs more than all counts together. -/
theorem buildArena_weighsAtMost (hist : List Nat) :
    WeighsAtMost hist.sum (buildArena hist).1 (buildArena hist).2 := by
  refine mergeLoop_weighsAtMost _ _ _ ⟨fun x hx => ?_, ?_, fun n hn => ?_⟩
  · exact List.mem_range.1 ((sortIds_perm _ _).mem_iff.1 hx)
  · rw [queueWeight_perm (sortIds_perm _ _), queueWeight_range, sum_weight_leavesFrom]
  · rw [← sum_weight_leavesFrom 0 hist]
    exact List.le_sum_of_mem (List.mem_map_of_mem hn)

end Sys2Proof.Machine

open Sys2Proof Sys2Proof.Machine Sys2Proof.Safety

/-- Settles O45: no node weighs more than the 256 counts together, which is at most 256 (2^32 − 1). -/
theorem weightsFitFortyBits : Obligations.WeightsFitFortyBits := by
  intro w hlen hc n hn
  have hsum : w.hist.sum ≤ w.hist.length • (2 ^ 32 - 1) :=
    List.sum_le_card_nsmul _ _ fun c h => Nat.le_sub_one_of_lt (hc c h)
  have hle : n.weight ≤ w.hist.sum := (buildArena_weighsAtMost w.hist).nodes n hn
  rw [hlen, smul_eq_mul] at hsum
  omega

end

section
/-! The host's accesses to the buffers (20_memory.md R52), `emit` and the three tokens (R55, 41_rle0.md
R116): what a token emits, where it faults, and what it leaves as it was. -/

namespace Sys2Proof.Machine

/-! ## Host accesses to the buffers -/

theorem ibufWrite_eq (cap : Cap) (a : Nat) (b : Byte) {s : State} (hb : s.status ≠ .busy) :
    ibufWrite cap a b s =
      if a < cap.bytes ∧ s.status ≠ .fault then { s with ibuf := s.ibuf.write a b } else s := by
  have hs : (s.status = .idle ∨ s.status = .done) ↔ s.status ≠ .fault := by
    cases h : s.status <;> simp_all
  simp only [ibufWrite, hs, capHasAddress_iff]
  by_cases hf : s.status = .fault <;> by_cases ha : a < cap.bytes <;> simp [hf, ha]

theorem ibufRead_eq (cap : Cap) (a : Nat) (s : State) :
    ibufRead cap a s =
      if a < cap.bytes ∧ (s.ibuf.read a).isSome then reply (.byte ((s.ibuf.read a).getD 0#8)) s
      else replyUnspecified s := by
  simp only [ibufRead, capHasAddress_iff]
  cases s.ibuf.read a <;> simp

theorem obufRead_eq (a : Nat) (s : State) :
    obufRead a s =
      if s.status = .done ∧ a < s.outLen.toNat ∧ (s.obuf.read a).isSome then
        reply (.byte ((s.obuf.read a).getD 0#8)) s
      else replyUnspecified s := by
  simp only [obufRead]
  cases s.obuf.read a <;> simp

/-! ## Bytes that do not fit -/

theorem raise_afterEmit {α : Type} (b : Byte) (r : Running) (code : FaultCode) (pos : Nat) :
    ((afterEmit b r).raise code pos : Flow α) = r.raise code pos := rfl

/-- `k` times `emit`, whatever `OBUF` holds, ends the command at the byte that does not fit. -/
theorem repeatEmit_outOvf {cap : Cap} {k : Nat} {b : Byte} {r : Running}
    (hl : r.s.outLen.toNat ≤ cap.bytes) (hc : cap.bytes < r.s.outLen.toNat + k) :
    repeatTimes k (emit cap b) r = r.raise .outOvf r.w.i := by
  induction k generalizing r with
  | zero => omega
  | succ k ih =>
    rw [repeatTimes]
    rcases Nat.lt_or_eq_of_le hl with hlt | heq
    · have hlen := afterEmit_outLen (b := b) hlt
      rw [emit_ok hlt, Flow.bind_ok, ih (by omega) (by omega), raise_afterEmit]
      rfl
    · rw [emit_full heq]; rfl

/-! ## The run length of a RUN token -/

theorem bitsNumber_from (bits : List Bool) (v : Nat) :
    bits.foldl (fun v d => 2 * v + d.toNat) v = v * 2 ^ bits.length + Safety.bitSum bits := by
  induction bits generalizing v with
  | nil => simp [Safety.bitSum]
  | cons d ds ih =>
    rw [List.foldl_cons, ih, List.length_cons, Safety.bitSum, Nat.pow_succ]
    ring

/-- The loop of R116 and the sum of R76 give the same number. -/
theorem bitsNumber_eq_bitSum (bits : List Bool) : bitsNumber bits = Safety.bitSum bits := by
  simpa [bitsNumber] using bitsNumber_from bits 0

theorem runLength_eq (bits : List Bool) :
    runLength bits = 2 ^ bits.length + Safety.bitSum bits - 1 := by
  rw [runLength, bitsNumber_eq_bitSum]

/-! ## The frame of a token -/

/-- The running command has changed nothing of `s` but `OUT_LEN`, which did not fall, and the bytes of
`OBUF` from the old to the new `OUT_LEN`. -/
structure Appended (s : State) (r : Running) : Prop where
  same : r.s = { s with obuf := r.s.obuf, outLen := r.s.outLen }
  grows : s.outLen.toNat ≤ r.s.outLen.toNat
  frame : ∀ a, a < s.outLen.toNat ∨ r.s.outLen.toNat ≤ a → r.s.obuf.read a = s.obuf.read a

/-- A command in state `s` ended with a fault of the block. -/
def FaultedFrom (s t : State) : Prop := ∃ code pos, code ≠ FaultCode.none ∧ t = raiseFault code pos s

theorem Appended.refl (s : State) (w : Work) : Appended s ⟨s, w⟩ :=
  ⟨rfl, Nat.le_refl _, fun _ _ => rfl⟩

/-- The working state plays no part. -/
theorem Appended.work {s : State} {r : Running} (h : Appended s r) (w : Work) : Appended s ⟨r.s, w⟩ :=
  ⟨h.same, h.grows, h.frame⟩

theorem Appended.raise {s : State} {r : Running} {P : Running → Prop} (h : Appended s r)
    {code : FaultCode} (hc : code ≠ .none) (pos : Nat) : (r.raise code pos).All P (FaultedFrom s) :=
  .ended ⟨code, pos, hc, by rw [h.same]; rfl⟩

theorem Appended.emit {cap : Cap} {s : State} {r : Running} (h : Appended s r) (b : Byte) :
    (emit cap b r).All (Appended s) (FaultedFrom s) := by
  rcases emit_cases cap b r with ⟨hl, he⟩ | ⟨-, he⟩ | ⟨-, he⟩
  · have hlen := afterEmit_outLen (b := b) hl
    have hgrows := h.grows
    rw [he]
    refine .ok ⟨?_, by omega, fun a ha => ?_⟩
    · have := h.same
      simp only [afterEmit]
      rw [this]
    · exact (Memory.read_write_other _ _ _ _ (by omega)).trans (h.frame a (by omega))
  · rw [he]; exact h.raise (by decide) _
  · rw [he]; exact .fault _

theorem Appended.emitZeros {cap : Cap} {s : State} {r : Running} (h : Appended s r) (k : Nat) :
    (emitZeros cap k r).All (Appended s) (FaultedFrom s) :=
  (repeatTimes_all (fun _ h' => h'.emit _) k _ (h.work _)).bind fun _ h' => .ok (h'.work _)

theorem Appended.runToken {cap : Cap} {s : State} {r : Running} (h : Appended s r) (bits : List Bool)
    (ending : RunEnd) : (runToken cap bits ending r).All (Appended s) (FaultedFrom s) := by
  have h' : Appended s (afterBits bits r) := h.work _
  cases ending with
  | closed => exact h'.emitZeros _
  | truncated => exact h'.raise (by decide) _
  | badByte b => exact h'.raise (by decide) _
  | tooLong d => exact h'.raise (by decide) _

theorem Appended.tokenMeaning {cap : Cap} {s : State} {r : Running} (h : Appended s r) (i : Instr) :
    (tokenMeaning cap i r).All (Appended s) (FaultedFrom s) := by
  cases i with
  | copy b => exact (h.emit b).bind fun _ h' => .ok (h'.work _)
  | escLit => exact (h.emit _).bind fun _ h' => .ok (h'.work _)
  | run bits ending => exact h.runToken bits ending
  | _ => exact .refused _

/-- What a token that is executed in `s` leaves, whatever it comes to. -/
theorem exec_token_next {s t : State} {i : Instr} (hi : Safety.isToken i = true)
    (h : exec i s = .next t) : (∃ r, Appended s r ∧ t = suspend r) ∨ FaultedFrom s t := by
  rw [exec_token hi] at h
  cases hw : s.work with
  | none => simp only [onRunning, hw] at h; cases h
  | some w =>
    rw [Safety.onRunning_some hw] at h
    have hall := (Appended.refl s w).tokenMeaning (cap := Config.bufCap) i
    revert h hall
    generalize tokenMeaning Config.bufCap i ⟨s, w⟩ = x
    intro h hall
    cases hall with
    | ok hr => cases h; exact .inl ⟨_, hr, rfl⟩
    | ended ht => cases h; exact .inr ht
    | refused e => cases h
    | fault e => cases h

end Sys2Proof.Machine

open Sys2Proof Sys2Proof.Machine Sys2Proof.Safety

/-- Settles O11: while no command runs a step is the host's access. -/
theorem stepRunsTheIssuedCommand : Obligations.StepRunsTheIssuedCommand := fun _ _ _ hb hp =>
  step_access hb hp

/-- Settles O16, operation by operation. -/
theorem bufferAccess : Obligations.BufferAccess := by
  intro s a b rest hb
  refine ⟨fun hp => ?_, fun hp => ?_, fun hp => ?_⟩
  · exact (step_access hb hp).trans
      (congrArg Host.Outcome.next (ibufWrite_eq Config.bufCap a b (s := { s with pending := rest }) hb))
  · exact (step_access hb hp).trans (congrArg Host.Outcome.next (ibufRead_eq Config.bufCap a _))
  · exact (step_access hb hp).trans (congrArg Host.Outcome.next (obufRead_eq a _))

/-- Settles O25: `emit` writes at `OUT_LEN` or raises. -/
theorem emitAppendsOrOverflows : Obligations.EmitAppendsOrOverflows := by
  intro cap b r
  exact ⟨emit_full, fun hl => ⟨afterEmit b r, emit_ok hl, rfl, rfl, afterEmit_outLen hl,
    Memory.read_write_same _ _ _, fun _ ha => Memory.read_write_other _ _ _ _ ha⟩⟩

/-- Settles O29: the byte that does not fit is raised at the cursor, which still stands at the token. -/
theorem tokenOverflowFaults : Obligations.TokenOverflowFaults := by
  intro s w b bits hw hl
  have hfull : ∀ (b : Byte) (n : Nat), s.outLen.toNat = Config.bufCap.bytes →
      endToken ((emit Config.bufCap b ⟨s, w⟩).bind fun r => .ok (r.advance n)) =
        .next (raiseFault .outOvf w.i s) := fun b n h => by rw [emit_full (r := ⟨s, w⟩) h]; rfl
  refine ⟨fun h => ⟨?_, ?_⟩, fun hc => ?_⟩
  · exact (onRunning_some hw _).trans (hfull b 1 h)
  · exact (onRunning_some hw _).trans (hfull _ 2 h)
  · refine (onRunning_some hw _).trans ?_
    rw [← runLength_eq] at hc
    rw [runToken, emitZeros, repeatEmit_outOvf (by exact hl) (by exact hc)]
    rfl

/-- Settles O30: a token only appends to the output and moves the working state, or faults. -/
theorem tokenFrame : Obligations.TokenFrame := by
  intro s t i hi _ h
  obtain ⟨r, hr, rfl⟩ | ⟨code, pos, hc, rfl⟩ := exec_token_next hi h
  · have hs := hr.same
    simp only [suspend_cmd, suspend_inLen, suspend_ibuf, suspend_pending, suspend_replies,
      suspend_draws, suspend_status, suspend_fault, suspend_faultPos]
    refine ⟨?_, ?_, ?_, ?_, ?_, ?_, .inl ⟨?_, ?_, ?_, rfl, hr.grows, hr.frame⟩⟩ <;> rw [hs]
  · exact ⟨rfl, rfl, rfl, rfl, rfl, rfl, .inr ⟨code, pos, hc, rfl⟩⟩

end

section
/-! The bit writer (43_huffman_codec.md R170, R171): what `ACC` holds after some bits, how many bytes a
number of bits fills, and where the byte that does not fit is raised. -/

namespace Sys2Proof.Safety

open Sys2Proof.Machine

/-! ## The bits of a packed byte -/

theorem bitSum_lt (ds : List Bool) : bitSum ds < 2 ^ ds.length := by
  induction ds with
  | nil => simp [bitSum]
  | cons d ds ih =>
    have hd : d.toNat * 2 ^ ds.length ≤ 2 ^ ds.length := by cases d <;> simp
    rw [bitSum, List.length_cons, Nat.pow_succ]
    omega

/-- The bits of the number that `ds` spells, the last of `ds` being bit 0. -/
theorem testBit_bitSum (ds : List Bool) (j : Nat) :
    (bitSum ds).testBit j = ds.reverse.getD j false := by
  induction ds with
  | nil => simp [bitSum]
  | cons d ds ih =>
    simp only [List.getD_eq_getElem?_getD] at ih ⊢
    rw [bitSum, Nat.mul_comm, Nat.testBit_two_pow_mul_add _ (bitSum_lt ds), ih, List.reverse_cons]
    by_cases h : j < ds.length
    · rw [if_pos h, List.getElem?_append_left (by simpa using h)]
    · rw [if_neg h, List.getElem?_append_right (by simpa using h), List.length_reverse]
      cases j - ds.length with
      | zero => cases d <;> rfl
      | succ n => cases d <;> simp [Nat.testBit_succ]

/-- Bit `j` of a packed byte is bit number 7 − `j` of those that were packed, and 0 where none was. -/
theorem getLsbD_packByte {ds : List Bool} (hds : ds.length ≤ 8) {j : Nat} (hj : j < 8) :
    (packByte ds).getLsbD j = ds.getD (7 - j) false := by
  have hlen : (ds ++ List.replicate (8 - ds.length) false).length = 8 := by simp; omega
  rw [packByte, BitVec.getLsbD_ofNat, testBit_bitSum, List.getD_eq_getElem?_getD,
    List.getElem?_reverse (by omega), hlen, decide_eq_true hj, Bool.true_and,
    List.getD_eq_getElem?_getD]
  rcases Nat.lt_or_ge (7 - j) ds.length with h | h
  · rw [List.getElem?_append_left (by omega)]
  · rw [List.getElem?_append_right (by omega), List.getElem?_eq_none h, List.getElem?_replicate]
    split <;> rfl

theorem packByte_byteBits (b : Byte) : packByte (byteBits b) = b := by
  refine BitVec.eq_of_getLsbD_eq fun j hj => ?_
  rw [getLsbD_packByte (ds := byteBits b) (Nat.le_refl 8) hj]
  interval_cases j <;> rfl

theorem packByte_nil : packByte [] = 0#8 := by decide

end Sys2Proof.Safety

namespace Sys2Proof.Machine

open Sys2Proof.Safety

theorem getLsbD_setBit (acc : Byte) (d : Bool) {p j : Nat} (hj : j < 8) :
    (setBit acc p d).getLsbD j = if j = p then d else acc.getLsbD j := by
  unfold setBit
  rcases Nat.lt_trichotomy j p with h | rfl | h
  · cases d <;> simp [hj, h, h.ne]
  · cases d <;> simp [hj]
  · cases d <;> simp [hj, h.ne', Nat.sub_ne_zero_of_lt h]

/-- Setting the bit after those of `ds` packs one more bit. -/
theorem setBit_packByte {ds : List Bool} (hds : ds.length < 8) (d : Bool) :
    setBit (packByte ds) (7 - ds.length) d = packByte (ds ++ [d]) := by
  refine BitVec.eq_of_getLsbD_eq fun j hj => ?_
  rw [getLsbD_setBit _ _ hj, getLsbD_packByte hds.le hj,
    getLsbD_packByte (by simpa using hds) hj]
  simp only [List.getD_eq_getElem?_getD, List.getElem?_append, List.getElem?_singleton]
  split
  · next h => rw [if_neg (by omega), if_pos (by omega), Option.getD_some]
  · next h =>
    split
    · rfl
    · next h' => rw [if_neg (by omega), List.getElem?_eq_none (by omega)]

/-! ## put_bit (R170) -/

/-- The bits `ds`, fewer than 8, stand in `ACC`. -/
structure Pending (ds : List Bool) (w : Work) : Prop where
  acc : w.acc = packByte ds
  nacc : w.nacc = ds.length

theorem putBit_pending {cap : Cap} {ds : List Bool} {r : Running} (h : Pending ds r.w)
    (hds : ds.length < 7) (d : Bool) :
    putBit cap d r = .ok (r.withAcc (packByte (ds ++ [d])) (ds.length + 1)) := by
  unfold putBit
  rw [if_neg (by rw [h.nacc]; omega), h.acc, h.nacc, setBit_packByte (by omega)]

theorem putBit_full {cap : Cap} {ds : List Bool} {r : Running} (h : Pending ds r.w)
    (hds : ds.length = 7) (d : Bool) :
    putBit cap d r =
      (emit cap (packByte (ds ++ [d])) (r.withAcc (packByte (ds ++ [d])) 7)).bind fun r =>
        .ok (r.withAcc 0#8 0) := by
  unfold putBit
  rw [if_pos (h.nacc.trans hds), h.acc, h.nacc, setBit_packByte (by omega), hds]

theorem putBits_append (cap : Cap) (ds es : List Bool) (r : Running) :
    putBits cap (ds ++ es) r = (putBits cap ds r).bind (putBits cap es) := by
  induction ds generalizing r with
  | nil => rfl
  | cons d ds ih =>
    rw [List.cons_append, putBits, putBits, Flow.bind_assoc]
    exact congrArg _ (funext ih)

/-- Bits that do not fill a byte only change `ACC` and `NACC`. -/
theorem putBits_pending {cap : Cap} {ds es : List Bool} {r : Running} (h : Pending ds r.w)
    (hds : ds.length + es.length < 8) :
    putBits cap es r = .ok (r.withAcc (packByte (ds ++ es)) (ds.length + es.length)) := by
  induction es generalizing ds r with
  | nil => rw [List.append_nil, ← h.acc, List.length_nil, Nat.add_zero, ← h.nacc]; rfl
  | cons e es ih =>
    simp only [List.length_cons] at hds ⊢
    have hlen : (ds ++ [e]).length = ds.length + 1 := by simp
    have h' : Pending (ds ++ [e]) (r.withAcc (packByte (ds ++ [e])) (ds.length + 1)).w :=
      ⟨rfl, hlen.symm⟩
    rw [putBits, putBit_pending h (by omega), Flow.bind_ok, ih h' (by omega), hlen]
    simp only [List.append_assoc, List.singleton_append, Nat.add_assoc, Nat.add_comm 1]
    rfl

theorem withAcc_withAcc (r : Running) (acc acc' : Byte) (n n' : Nat) :
    (r.withAcc acc n).withAcc acc' n' = r.withAcc acc' n' := rfl

/-- From a byte boundary, seven bits collect in `ACC`, and the eighth emits the byte. -/
theorem putBits_byte {cap : Cap} {ds : List Bool} {r : Running} (h : Pending [] r.w)
    (hds : ds.length = 8) :
    putBits cap ds r =
      (emit cap (packByte ds) (r.withAcc (packByte ds) 7)).bind fun r => .ok (r.withAcc 0#8 0) := by
  obtain ⟨es, d, rfl⟩ := (List.eq_nil_or_concat' ds).resolve_left (by rintro rfl; simp at hds)
  have hes : es.length = 7 := by simpa using hds
  have hseven : putBits cap es r = .ok (r.withAcc (packByte es) 7) := by
    simpa [hes] using putBits_pending (cap := cap) (es := es) h (by simp [hes])
  rw [putBits_append, hseven, Flow.bind_ok, putBits, putBit_full ⟨rfl, hes.symm⟩ hes,
    withAcc_withAcc, Flow.bind_assoc]
  rfl

end Sys2Proof.Machine

open Sys2Proof Sys2Proof.Machine Sys2Proof.Safety

/-- Settles O50: the byte that eight bits pack is the one they are the bits of. -/
theorem eightBitsMakeAByte : Obligations.EightBitsMakeAByte := by
  intro cap b r hacc hnacc
  have h := putBits_byte (cap := cap) (ds := byteBits b) (r := r)
    ⟨hacc.trans packByte_nil.symm, hnacc⟩ rfl
  rw [packByte_byteBits] at h
  exact h

end

section
/-! `rle0.enc` group by group (41_rle0.md R111, R112): a byte string is cut into what the encoder codes in
one go, one pass of its loop codes one such group, and the passes come to every boundary between two
groups whose coding fits. -/

namespace Sys2Proof.Safety

open Sys2Proof.Machine

/-! ## The groups of a byte string -/

/-- No run of zeros goes on across the place between `a` and `c`. -/
def Boundary (a c : List Byte) : Prop := a.getLast? ≠ some 0x00#8 ∨ c.head? ≠ some 0x00#8

theorem rle0From_append (k : Nat) (a c : List Byte) (hc : c.head? ≠ some 0x00#8) :
    rle0From k (a ++ c) = rle0From k a ++ rle0Of c := by
  induction a generalizing k with
  | nil =>
    cases c with
    | nil => simp [rle0From, rle0Of, codedRun]
    | cons b bs =>
      have hb : b ≠ 0x00#8 := by simpa using hc
      simp [rle0From, rle0Of, hb, codedRun]
  | cons b a ih =>
    rw [List.cons_append, rle0From, rle0From]
    split
    · exact ih _
    · simp only [ih, List.append_assoc]

/-- The codings of two strings are put one after another where no run goes on (R111). -/
theorem rle0Of_append {a c : List Byte} (h : Boundary a c) : rle0Of (a ++ c) = rle0Of a ++ rle0Of c := by
  rcases h with ha | hc
  · rcases List.eq_nil_or_concat' a with rfl | ⟨a', b, rfl⟩
    · simp [rle0Of, rle0From, codedRun]
    · have hb : b ≠ 0x00#8 := by simpa using ha
      have hhead : ∀ l : List Byte, (b :: l).head? ≠ some 0x00#8 := fun l => by simpa using hb
      have hcons : ∀ l, rle0Of (b :: l) = (if b = 0x40#8 then [0x40#8, 0x00#8] else [b]) ++ rle0Of l :=
        fun l => by simp [rle0Of, rle0From, hb, codedRun]
      rw [List.append_assoc, rle0Of, rle0Of, List.singleton_append, rle0From_append _ _ _ (hhead c),
        rle0From_append _ _ _ (hhead []), hcons, hcons]
      simp [rle0Of, rle0From, codedRun]
  · exact rle0From_append 0 a c hc

theorem rle0From_replicate (j k : Nat) : rle0From j (List.replicate k 0x00#8) = codedRun (j + k) := by
  induction k generalizing j with
  | zero => rfl
  | succ k ih => rw [List.replicate_succ, rle0From, if_pos rfl, ih]; congr 1; omega

theorem rle0Of_replicate (k : Nat) : rle0Of (List.replicate k 0x00#8) = codedRun k := by
  rw [rle0Of, rle0From_replicate, Nat.zero_add]

theorem rle0Of_singleton {b : Byte} (hb : b ≠ 0x00#8) :
    rle0Of [b] = if b = 0x40#8 then [0x40#8, 0x00#8] else [b] := by
  simp [rle0Of, rle0From, hb, codedRun]

/-- A group ends at boundaries. -/
theorem CodedInOneGo.boundaries {a u c : List Byte} (h : CodedInOneGo a u c) :
    Boundary a u ∧ Boundary u c := by
  rcases h with ⟨b, hb, rfl⟩ | ⟨k, -, rfl, ha, hc⟩
  · exact ⟨.inr (by simpa using hb), .inl (by simpa using hb)⟩
  · exact ⟨.inl ha, .inr hc⟩

theorem CodedInOneGo.ne_nil {a u c : List Byte} (h : CodedInOneGo a u c) : u ≠ [] := by
  rcases h with ⟨b, -, rfl⟩ | ⟨k, hk, rfl, -⟩
  · simp
  · simpa using Nat.ne_of_gt hk

theorem CodedInOneGo.boundary_before {a u c : List Byte} (h : CodedInOneGo a u c) (z : List Byte) :
    Boundary a (u ++ z) :=
  h.boundaries.1.imp_right fun hu => by rwa [List.head?_append_of_ne_nil _ h.ne_nil]

/-- A string before a boundary ends with the zeros of one maximal run, maybe none. -/
theorem exists_trailing_run (x : List Byte) :
    ∃ a k, x = a ++ List.replicate k 0x00#8 ∧ a.getLast? ≠ some 0x00#8 := by
  induction x using List.reverseRecOn with
  | nil => exact ⟨[], 0, rfl, by simp⟩
  | append_singleton x b ih =>
    by_cases hb : b = 0x00#8
    · obtain ⟨a, k, rfl, ha⟩ := ih
      exact ⟨a, k + 1, by rw [hb, List.replicate_succ', List.append_assoc], ha⟩
    · exact ⟨x ++ [b], 0, by simp, by simpa using hb⟩

/-- A nonempty string before a boundary ends with a group, before which there is a boundary again. -/
theorem exists_last_group {x z : List Byte} (hx : x ≠ []) (hz : Boundary x z) :
    ∃ a u, x = a ++ u ∧ CodedInOneGo a u z := by
  obtain ⟨a, k, rfl, ha⟩ := exists_trailing_run x
  cases k with
  | zero =>
    rw [List.replicate_zero, List.append_nil] at hx ⊢
    obtain ⟨a', b, rfl⟩ := (List.eq_nil_or_concat' a).resolve_left hx
    exact ⟨a', [b], rfl, .inl ⟨b, by simpa using ha, rfl⟩⟩
  | succ k =>
    refine ⟨a, _, rfl, .inr ⟨k + 1, by omega, rfl, ha, hz.resolve_left ?_⟩⟩
    simp [List.replicate_succ']

/-- Induction over the groups of a string that ends at a boundary. -/
theorem groups_induction {P : ∀ x z : List Byte, Boundary x z → Prop} (nil : ∀ z hz, P [] z hz)
    (group : ∀ a u z hz, ∀ hu : CodedInOneGo a u z,
      P a (u ++ z) (hu.boundary_before z) → P (a ++ u) z hz)
    (x z : List Byte) (hz : Boundary x z) : P x z hz := by
  induction h : x.length using Nat.strongRecOn generalizing x z with
  | ind n ih =>
    by_cases hx : x = []
    · subst hx; exact nil z hz
    · obtain ⟨a, u, rfl, hu⟩ := exists_last_group hx hz
      have hpos := List.length_pos_iff.2 hu.ne_nil
      rw [List.length_append] at h
      exact group a u z hz hu (ih a.length (by omega) a _ _ rfl)

/-- Where the coding of a string does not fit, there is a first group with which it does not. -/
theorem exists_overflowing_group {n : Nat} {x z : List Byte} (hz : Boundary x z)
    (hn : n < (rle0Of x).length) :
    ∃ a u c, x = a ++ u ++ c ∧ CodedInOneGo a u (c ++ z) ∧ (rle0Of a).length ≤ n ∧
      n < (rle0Of (a ++ u)).length := by
  induction x, z, hz using groups_induction with
  | nil => simp [rle0Of, rle0From, codedRun] at hn
  | group a u z hz hu ih =>
    rcases Nat.lt_or_ge n (rle0Of a).length with ha | ha
    · obtain ⟨a', u', c', rfl, hu', hfits, hover⟩ := ih ha
      exact ⟨a', u', c' ++ u, by simp, by simpa using hu', hfits, hover⟩
    · exact ⟨a, u, [], by simp, hu, ha, hn⟩

end Sys2Proof.Safety

namespace Sys2Proof.Machine

open Sys2Proof.Safety

/-! ## The passes of a loop over the input -/

/-- Passes of the loop over the input, each moving the cursor on, lead from `r` to a running command. -/
inductive Passes (body : Running → Flow Running) (r : Running) : Running → Prop where
  | refl : Passes body r r
  | pass {r' r'' : Running} (h : Passes body r r') (hi : r'.w.i < r'.s.inLen.toNat)
      (hb : body r' = .ok r'') (hi' : r'.w.i < r''.w.i) : Passes body r r''

theorem Passes.scanInput_eq {body : Running → Flow Running} {r r' : Running} (h : Passes body r r')
    {fuel : Nat} (hf : r'.w.i ≤ fuel + r.w.i) :
    ∃ fuel', fuel + r.w.i ≤ fuel' + r'.w.i ∧ scanInput fuel body r = scanInput fuel' body r' := by
  induction h with
  | refl => exact ⟨fuel, Nat.le_refl _, rfl⟩
  | @pass r' r'' h hi hb hi' ih =>
    obtain ⟨fuel', hle, he⟩ := ih (by omega)
    obtain ⟨n, rfl⟩ : ∃ n, fuel' = n + 1 := ⟨fuel' - 1, by omega⟩
    exact ⟨n, by omega, by rw [he, scanInput, if_pos hi, hb, Flow.bind_ok]⟩

/-- The loop ends where its passes lead to the end of the input. -/
theorem Passes.done {body : Running → Flow Running} {r r' : Running} (h : Passes body r r')
    (hi : r'.w.i = r'.s.inLen.toNat) {fuel : Nat} (hf : r'.s.inLen.toNat ≤ fuel + r.w.i) :
    scanInput fuel body r = .ok r' := by
  obtain ⟨fuel', -, he⟩ := h.scanInput_eq (fuel := fuel) (by omega)
  rw [he]
  cases fuel' with
  | zero => rfl
  | succ n => rw [scanInput, if_neg (by omega)]

/-- The loop goes on, from where its passes lead, with one more pass. -/
theorem Passes.next {body : Running → Flow Running} {r r' : Running} (h : Passes body r r')
    (hi : r'.w.i < r'.s.inLen.toNat) {fuel : Nat} (hf : r'.s.inLen.toNat ≤ fuel + r.w.i) :
    ∃ fuel', scanInput fuel body r = (body r').bind (scanInput fuel' body) := by
  obtain ⟨fuel', hle, he⟩ := h.scanInput_eq (fuel := fuel) (by omega)
  obtain ⟨n, rfl⟩ : ∃ n, fuel' = n + 1 := ⟨fuel' - 1, by omega⟩
  exact ⟨n, by rw [he, scanInput, if_pos hi]⟩

/-! ## Reading the input -/

theorem input_some {r : Running} {a : Nat} {b : Byte} (h : r.s.ibuf.read a = some b) :
    r.input a = .ok b := by simp only [Running.input, h]

theorem input_none {r : Running} {a : Nat} (h : r.s.ibuf.read a = none) :
    r.input a = .refused .undefinedByte := by simp only [Running.input, h]

/-- The input string of `s` starts with the defined bytes `x`. -/
structure StartsWith (s : State) (x : List Byte) : Prop where
  read : ∀ a, a < x.length → s.ibuf.read a = x[a]?
  le : x.length ≤ s.inLen.toNat

theorem StartsWith.of_inputIs {s : State} {x : List Byte} (h : InputIs s x) : StartsWith s x :=
  ⟨h.2, h.1.ge⟩

theorem StartsWith.of_breaksOff {s : State} {x : List Byte} (h : InputBreaksOff s x) :
    StartsWith s x := ⟨h.defined, h.goesOn.le⟩

/-- The byte after the bytes `a`. -/
theorem StartsWith.read_next {s : State} {a c : List Byte} {b : Byte} (h : StartsWith s (a ++ b :: c)) :
    s.ibuf.read a.length = some b := by
  rw [h.read _ (by simp)]; simp

/-! ## One pass of rle0.enc -/

theorem repeatEmit_eq_emitAll (cap : Cap) (k : Nat) (b : Byte) (r : Running) :
    repeatTimes k (emit cap b) r = emitAll cap (List.replicate k b) r := by
  induction k generalizing r with
  | zero => rfl
  | succ k ih => rw [repeatTimes, List.replicate_succ, emitAll]; exact congrArg _ (funext ih)

/-- The next `n` bytes of the input are zeros. -/
def ZerosAhead (r : Running) (n : Nat) : Prop :=
  ∀ t, t < n → r.w.i + t < r.s.inLen.toNat ∧ r.s.ibuf.read (r.w.i + t) = some 0x00#8

/-- The scan of a run counts its zeros, from those already counted on. -/
theorem scanRun_zeros {r : Running} {k n : Nat} (fuel : Nat) (hz : ZerosAhead r (k + n)) :
    scanRun r (fuel + n) k = scanRun r fuel (k + n) := by
  induction n generalizing k with
  | zero => rfl
  | succ n ih =>
    obtain ⟨hi, hread⟩ := hz k (by omega)
    have hk : k + (n + 1) = k + 1 + n := by omega
    rw [hk] at hz ⊢
    rw [← Nat.add_assoc, scanRun, if_pos hi, input_some hread, Flow.bind_ok,
      if_pos (show 0x00#8 = Config.runSym from rfl), ih hz]

/-- At the end of the input, or at a byte that is not 0x00, the run is over. -/
theorem scanRun_stop {r : Running} {k : Nat} (fuel : Nat)
    (h : r.w.i + k < r.s.inLen.toNat → ∃ b, b ≠ 0x00#8 ∧ r.s.ibuf.read (r.w.i + k) = some b) :
    scanRun r fuel k = .ok k := by
  cases fuel with
  | zero => rfl
  | succ fuel =>
    rw [scanRun]
    split
    · next hi =>
      obtain ⟨b, hb, hread⟩ := h hi
      rw [input_some hread, Flow.bind_ok, if_neg (show b ≠ Config.runSym from hb)]
    · rfl

theorem emitRun_or_zeros (cap : Cap) (k : Nat) (r : Running) :
    ∃ w, w.i = r.w.i ∧
      (if Config.runMin ≤ k then emitRun cap k else repeatTimes k (emit cap Config.runSym)) r =
        emitAll cap (codedRun k) ⟨r.s, w⟩ := by
  unfold codedRun
  by_cases h : Config.runMin ≤ k
  · rw [if_pos h, if_neg (by simp only [Config.runMin] at h; omega)]
    exact ⟨{ r.w with m := runBits k, number := runNumber k }, rfl, rfl⟩
  · rw [if_neg h, if_pos (by simp only [Config.runMin] at h; omega), repeatEmit_eq_emitAll]
    exact ⟨_, rfl, rfl⟩

theorem rle0EncPass_byte {cap : Cap} {r : Running} {b : Byte} (hb : b ≠ 0x00#8)
    (hread : r.s.ibuf.read r.w.i = some b) :
    rle0EncPass cap r = (emitAll cap (rle0Of [b]) r).bind fun r => .ok (r.advance 1) := by
  rw [rle0EncPass, input_some hread, Flow.bind_ok, rle0Of_singleton hb]
  by_cases he : b = 0x40#8
  · rw [if_pos he, if_pos (show b = Config.esc from he)]; rfl
  · rw [if_neg he, if_neg (show b ≠ Config.esc from he), if_neg (show b ≠ Config.runSym from hb),
      emitAll, Flow.bind_assoc]
    rfl

/-- At a zero, the pass is the scan of the run and the token of the run's length. -/
theorem rle0EncPass_zero (cap : Cap) {r : Running} (hread : r.s.ibuf.read r.w.i = some 0x00#8) :
    (∀ e, scanRun r r.s.inLen.toNat 1 = .refused e → rle0EncPass cap r = .refused e) ∧
    ∀ k, scanRun r r.s.inLen.toNat 1 = .ok k → ∃ w, w.i = r.w.i ∧
      rle0EncPass cap r =
        (emitAll cap (codedRun k) ⟨r.s, w⟩).bind fun r => .ok (r.advance k) := by
  rw [rle0EncPass, input_some hread, Flow.bind_ok, if_neg (show ¬ 0x00#8 = Config.esc by decide),
    if_pos (show 0x00#8 = Config.runSym from rfl)]
  refine ⟨fun e h => by rw [h]; rfl, fun k h => ?_⟩
  obtain ⟨w, hw, he⟩ := emitRun_or_zeros cap k { r with w := { r.w with k := k } }
  exact ⟨w, hw, by rw [h, Flow.bind_ok, he]⟩

theorem StartsWith.zerosAhead {r : Running} {a c : List Byte} {k : Nat}
    (h : StartsWith r.s (a ++ List.replicate k 0x00#8 ++ c)) (hi : r.w.i = a.length) :
    ZerosAhead r k := by
  intro t ht
  have hlen := h.le
  simp only [List.length_append, List.length_replicate] at hlen
  refine ⟨by omega, ?_⟩
  rw [hi, h.read _ (by simp; omega), List.append_assoc, List.getElem?_append_right (by omega),
    List.getElem?_append_left (by simpa using ht)]
  simp [ht]

/-- A pass at a group of the input emits the coding of the group and moves past it. -/
theorem rle0EncPass_group (cap : Cap) {r : Running} {a u c : List Byte} (hu : CodedInOneGo a u c)
    (hx : StartsWith r.s (a ++ u ++ c))
    (hend : c = [] → (a ++ u).getLast? = some 0x00#8 → r.s.inLen.toNat = (a ++ u).length)
    (hi : r.w.i = a.length) :
    ∃ w, w.i = r.w.i ∧ rle0EncPass cap r =
      (emitAll cap (rle0Of u) ⟨r.s, w⟩).bind fun r => .ok (r.advance u.length) := by
  rcases hu with ⟨b, hb, rfl⟩ | ⟨k, hk, rfl, -, hc⟩
  · refine ⟨r.w, rfl, rle0EncPass_byte hb ?_⟩
    rw [hi]; exact StartsWith.read_next (c := c) (by simpa using hx)
  · have hzeros : ZerosAhead r k := hx.zerosAhead hi
    have hstop : r.w.i + k < r.s.inLen.toNat →
        ∃ b, b ≠ 0x00#8 ∧ r.s.ibuf.read (r.w.i + k) = some b := by
      intro hlt
      cases c with
      | nil =>
        have hlast : (a ++ List.replicate k 0x00#8).getLast? = some 0x00#8 := by
          rw [List.getLast?_append_of_ne_nil _ (by simp; omega), List.getLast?_replicate, if_neg (by omega)]
        have := hend rfl hlast
        simp only [List.length_append, List.length_replicate] at this
        omega
      | cons b c => exact ⟨b, by simpa using hc, by simpa [hi] using hx.read_next⟩
    have hscan : scanRun r r.s.inLen.toNat 1 = .ok k := by
      have hlen := (hzeros (k - 1) (by omega)).1
      obtain ⟨fuel, hfuel⟩ := Nat.exists_eq_add_of_le' (show k - 1 ≤ r.s.inLen.toNat by omega)
      have hk : 1 + (k - 1) = k := by omega
      rw [hfuel, scanRun_zeros fuel (hk.symm ▸ hzeros), hk, scanRun_stop fuel hstop]
    rw [rle0Of_replicate, List.length_replicate]
    exact (rle0EncPass_zero cap (hzeros 0 hk).2).2 k hscan

/-! ## How far a coder has come -/

/-- A command that was started in `s` stands at input address `n` and has written `y`. -/
structure Reached (cap : Cap) (s : State) (n : Nat) (y : List Byte) (r : Running) : Prop where
  coding : Coding cap s r
  cursor : r.w.i = n
  wrote : Wrote y r

theorem Reached.start (cap : Cap) (s : State) : Reached cap s 0 [] (startCommand s) :=
  ⟨.start cap s, rfl, .start s⟩

theorem Reached.work {cap : Cap} {s : State} {n n' : Nat} {y : List Byte} {r : Running}
    (h : Reached cap s n y r) {w : Work} (hw : w.i = n') : Reached cap s n' y ⟨r.s, w⟩ :=
  ⟨h.coding.work w, hw, h.wrote.of_s rfl⟩

theorem Reached.startsWith {cap : Cap} {s : State} {n : Nat} {x y : List Byte} {r : Running}
    (h : Reached cap s n y r) (hx : StartsWith s x) : StartsWith r.s x :=
  ⟨by rw [h.coding.ibuf]; exact hx.read, by rw [h.coding.inLen]; exact hx.le⟩

theorem Reached.emitAll {cap : Cap} {s : State} {n : Nat} {y bs : List Byte} {r : Running}
    (h : Reached cap s n y r) (hc : (y ++ bs).length ≤ cap.bytes) :
    emitAll cap bs r = .ok (r.withOutput (y ++ bs)) ∧
      Reached cap s n (y ++ bs) (r.withOutput (y ++ bs)) := by
  have he := emitAll_wrote h.wrote (by simpa using hc)
  have hcoding := emitAll_coding bs r h.coding
  rw [he] at hcoding
  cases hcoding with
  | ok hr => exact ⟨he, hr.1, h.cursor, h.wrote.withOutput hc⟩

/-- Every fault drops what was written. -/
theorem Coding.raise_eq {α : Type} {cap : Cap} {s : State} {r : Running} (h : Coding cap s r)
    (code : FaultCode) (pos : Nat) :
    (r.raise code pos : Flow α) = .ended (raiseFault code pos (startCommand s).s) := by
  rw [Running.raise, h.same]; rfl

theorem Reached.emitAll_overflow {cap : Cap} {s : State} {n : Nat} {y bs : List Byte} {r : Running}
    (h : Reached cap s n y r) (hc : cap.bytes < (y ++ bs).length) :
    Machine.emitAll cap bs r = .ended (raiseFault .outOvf n (startCommand s).s) := by
  have hy : y.length ≤ cap.bytes := h.wrote.outLen ▸ h.coding.fits
  rw [Machine.emitAll_overflow h.wrote hy (by simpa using hc), h.coding.raise_eq, h.cursor]

/-! ## rle0.enc up to a boundary -/

/-- The passes of `rle0.enc` come to every boundary before which the coding fits. A run of zeros at the end
of what is known of the input must be at the end of the input. -/
theorem rle0Enc_passes {cap : Cap} {s : State} {a z : List Byte} (hz : Boundary a z)
    (hx : StartsWith s (a ++ z)) (hend : z = [] → a.getLast? = some 0x00#8 → s.inLen.toNat = a.length)
    (hfits : (rle0Of a).length ≤ cap.bytes) :
    ∃ r, Passes (rle0EncPass cap) (startCommand s) r ∧ Reached cap s a.length (rle0Of a) r := by
  induction a, z, hz using groups_induction with
  | nil => exact ⟨_, .refl, .start cap s⟩
  | group a u z hz hu ih =>
    have hpos := List.length_pos_iff.2 hu.ne_nil
    have hlen := hx.le
    rw [rle0Of_append hu.boundaries.1] at hfits ⊢
    simp only [List.length_append] at hlen hfits ⊢
    obtain ⟨r, hp, hr⟩ := ih (by rwa [← List.append_assoc]) (by simp [hu.ne_nil]) (by omega)
    obtain ⟨w, hw, hpass⟩ := rle0EncPass_group cap hu (hr.startsWith hx)
      (by simpa [hr.coding.inLen] using hend) hr.cursor
    obtain ⟨he, hr'⟩ := (hr.work (hw.trans hr.cursor)).emitAll (bs := rle0Of u) (by simpa using hfits)
    rw [he, Flow.bind_ok] at hpass
    refine ⟨_, hp.pass ?_ hpass ?_, hr'.work ?_⟩
    · rw [hr.cursor, hr.coding.inLen]; omega
    · simp only [Running.advance_w_i, Running.withOutput_w, hw]; omega
    · simp only [Running.withOutput_w, hw, hr.cursor]

theorem rle0Encode_overflow {cap : Cap} {s : State} {a u c : List Byte} (hx : InputIs s (a ++ u ++ c))
    (hu : CodedInOneGo a u c) (hfits : (rle0Of a).length ≤ cap.bytes)
    (hover : cap.bytes < (rle0Of (a ++ u)).length) :
    rle0Encode cap (startCommand s) = .ended (raiseFault .outOvf a.length (startCommand s).s) := by
  have hstart := StartsWith.of_inputIs hx
  have hpos := List.length_pos_iff.2 hu.ne_nil
  have hlen := hx.1
  simp only [List.length_append] at hlen
  obtain ⟨r, hp, hr⟩ := rle0Enc_passes (hu.boundary_before c) (by rwa [← List.append_assoc])
    (by simp [hu.ne_nil]) hfits
  obtain ⟨w, hw, hpass⟩ := rle0EncPass_group cap hu (hr.startsWith hstart)
    (fun hc _ => by simp [hr.coding.inLen, hlen, hc]) hr.cursor
  obtain ⟨fuel, hnext⟩ := hp.next (fuel := s.inLen.toNat)
    (by rw [hr.cursor, hr.coding.inLen]; omega) (by rw [hr.coding.inLen]; omega)
  rw [rle0Of_append hu.boundaries.1] at hover
  rw [hpass, (hr.work (hw.trans hr.cursor)).emitAll_overflow hover] at hnext
  exact hnext

end Sys2Proof.Machine

open Sys2Proof Sys2Proof.Machine Sys2Proof.Safety

/-- Settles O35: the passes come to the first group with which the coding does not fit, and the pass at that
group raises. -/
theorem rle0EncOverflows : Obligations.Rle0EncOverflows := by
  intro s x hx hf hl hover
  obtain ⟨a, u, c, rfl, hu, hfits, hover⟩ := exists_overflowing_group (z := []) (.inr (by simp)) hover
  rw [List.append_nil] at hu
  have hrun := rle0Encode_overflow (s := { s with cmd := 0x01#8 }) hx hu hfits hover
  exact ⟨a, u, c, rfl, hu, hfits, hover,
    (issueCoder_runs hf (hx.1 ▸ hl)).trans (congrArg endCommand hrun)⟩

end

section
/-! `huff.enc` counted in bits (43_huffman_codec.md R175 to R177): how many bytes a number of code bits has
filled, and which input byte or `flush` raises `F_OUT_OVF`. -/

namespace Sys2Proof.Safety

open Sys2Proof.Machine

/-! ## The sizes of a payload -/

theorem length_packBytes (ds : List Bool) : (packBytes ds).length = (ds.length + 7) / 8 := by
  fun_induction packBytes ds with
  | case1 a b c d e f g h rest ih => simp only [List.length_cons, ih]; omega
  | case2 => rfl
  | case3 ds hlong hne =>
    have hpos := List.length_pos_iff.2 hne
    have hlt : ds.length < 8 := by
      by_contra hge
      match ds with
      | a :: b :: c :: d :: e :: f :: g :: h :: rest => exact hlong a b c d e f g h rest rfl
      | [] | [_] | [_, _] | [_, _, _] | [_, _, _, _] | [_, _, _, _, _] | [_, _, _, _, _, _]
        | [_, _, _, _, _, _, _] => simp at hge
    simp only [List.length_singleton]; omega

theorem length_histOf (x : List Byte) : (histOf x).length = 256 := by simp [histOf]

theorem length_payloadOf (x : List Byte) :
    (payloadOf x).length = 1028 + ((codeBits (histOf x) x).length + 7) / 8 := by
  have hheader : ((histOf x).flatMap (fun c => beBytes c 4) ++ beBytes x.length 4).length = 1028 :=
    length_headerBytes (histOf x) x.length (length_histOf x)
  rw [payloadOf, List.length_append, hheader, length_packBytes]

theorem codeBits_append (hist : List Nat) (a c : List Byte) :
    codeBits hist (a ++ c) = codeBits hist a ++ codeBits hist c := List.flatMap_append

theorem codeBits_singleton (hist : List Nat) (b : Byte) :
    codeBits hist [b] = codeOf (codesOf hist) b := List.flatMap_singleton _ _

/-- The byte whose code holds bit number `n`. -/
theorem exists_byte_of_bit {hist : List Nat} {n : Nat} {x : List Byte}
    (hn : n < (codeBits hist x).length) :
    ∃ a b c, x = a ++ b :: c ∧ (codeBits hist a).length ≤ n ∧
      n < (codeBits hist (a ++ [b])).length := by
  induction x using List.reverseRecOn with
  | nil => simp [codeBits] at hn
  | append_singleton x b ih =>
    rcases Nat.lt_or_ge n (codeBits hist x).length with h | h
    · obtain ⟨a, b', c, rfl, ha, hb⟩ := ih h
      exact ⟨a, b', c ++ [b], by simp, ha, hb⟩
    · exact ⟨x, b, [], rfl, h, hn⟩

/-! ## The histogram -/

/-- How often each byte value occurs, added to a histogram of 256 counters. -/
theorem getD_foldl_countByte (x : List Byte) {hist : List Nat} (hlen : hist.length = 256) {t : Nat}
    (ht : t < 256) :
    (x.foldl countByte hist).getD t 0 = hist.getD t 0 + x.count (BitVec.ofNat 8 t) := by
  induction x generalizing hist with
  | nil => rfl
  | cons b x ih =>
    rw [List.foldl_cons, ih (by simpa [countByte] using hlen), List.count_cons, ← Nat.add_assoc,
      Nat.add_right_comm]
    congr 1
    have hb : b = BitVec.ofNat 8 t ↔ b.toNat = t := by
      rw [BitVec.toNat_eq, BitVec.toNat_ofNat, Nat.mod_eq_of_lt (by simpa using ht)]
    simp only [countByte, List.getD_eq_getElem?_getD, List.getElem?_set, beq_iff_eq, hb]
    split
    · next h => subst h; simp [hlen, ht]
    · rfl

theorem length_foldl_countByte (x : List Byte) (hist : List Nat) :
    (x.foldl countByte hist).length = hist.length := by
  induction x generalizing hist with
  | nil => rfl
  | cons b x ih => exact (ih _).trans List.length_set

/-- Counting from 256 zeros gives the histogram. -/
theorem foldl_countByte {x : List Byte} {zeros : List Nat} (hz : zeros = List.replicate 256 0) :
    x.foldl countByte zeros = histOf x := by
  have hlen : zeros.length = 256 := hz ▸ List.length_replicate
  refine List.ext_getElem (by rw [length_foldl_countByte, hlen, length_histOf]) fun t h1 h2 => ?_
  have ht : t < 256 := by rwa [length_histOf] at h2
  have hzero : zeros.getD t 0 = 0 := by
    rw [List.getD_eq_getElem _ _ (hlen ▸ ht)]
    exact List.eq_of_mem_replicate (hz.subst (List.getElem_mem _))
  rw [← List.getD_eq_getElem _ 0 h1, getD_foldl_countByte x hlen ht, hzero]
  simp [histOf]

end Sys2Proof.Safety

namespace Sys2Proof.Machine

open Sys2Proof.Safety

theorem countInput_defined {r : Running} {x : List Byte} {a : Nat} {hist : List Nat}
    (hx : ∀ t, t < x.length → r.s.ibuf.read (a + t) = x[t]?) :
    countInput r a x.length hist = .ok (x.foldl countByte hist) := by
  induction x generalizing a hist with
  | nil => rfl
  | cons b x ih =>
    have hb : r.s.ibuf.read a = some b := hx 0 (by simp)
    rw [List.length_cons, countInput, input_some hb, Flow.bind_ok, List.foldl_cons]
    refine ih fun t ht => ?_
    simpa [Nat.add_right_comm, Nat.add_assoc] using hx (t + 1) (by simpa using ht)

/-- `compute_histogram` on a defined input string (R140). -/
theorem computeHistogram_eq {r : Running} {x : List Byte} (hx : InputIs r.s x) :
    computeHistogram r = .ok { r with w := { r.w with hist := histOf x } } := by
  have hcount := countInput_defined (r := r) (x := x) (a := 0) (hist := List.replicate 256 0)
    (by simpa using hx.2)
  rw [computeHistogram, hx.1, Config.nsym, hcount, Flow.bind_ok, foldl_countByte rfl]

/-! ## The bit writer, counted -/

/-- A command that was started in `s`, with the code table `code`, stands at input address `n` and has put
`m` bits after the header. -/
structure Packed (cap : Cap) (s : State) (code : List (List Bool)) (n m : Nat) (r : Running) : Prop where
  coding : Coding cap s r
  code : r.w.code = code
  cursor : r.w.i = n
  outLen : r.s.outLen.toNat = 1028 + m / 8
  nacc : r.w.nacc = m % 8

section
variable {cap : Cap} {s : State} {code : List (List Bool)} {n m : Nat} {r : Running}

theorem putBit_of_seven (h : r.w.nacc = 7) (d : Bool) : ∃ acc, putBit cap d r =
    (emit cap acc (r.withAcc acc r.w.nacc)).bind fun r => .ok (r.withAcc 0#8 0) :=
  ⟨setBit r.w.acc (7 - r.w.nacc) d, by unfold putBit; rw [if_pos h]⟩

theorem putBit_of_ne_seven (h : r.w.nacc ≠ 7) (d : Bool) :
    ∃ acc, putBit cap d r = .ok (r.withAcc acc (r.w.nacc + 1)) :=
  ⟨setBit r.w.acc (7 - r.w.nacc) d, by unfold putBit; rw [if_neg h]⟩

theorem Packed.withAcc (h : Packed cap s code n m r) (acc : Byte) :
    Packed cap s code n m (r.withAcc acc r.w.nacc) :=
  ⟨h.coding.work _, h.code, h.cursor, h.outLen, h.nacc⟩

theorem Packed.emit (h : Packed cap s code n m r) (b : Byte) (hm : 1028 + m / 8 < cap.bytes) :
    emit cap b r = .ok (afterEmit b r) ∧ Coding cap s (afterEmit b r) ∧
      (afterEmit b r).s.outLen.toNat = 1028 + m / 8 + 1 := by
  have hl : r.s.outLen.toNat < cap.bytes := by rw [h.outLen]; exact hm
  have he := emit_ok (b := b) hl
  have hcoding := emit_coding b r h.coding
  rw [he] at hcoding
  cases hcoding with
  | ok hr => exact ⟨he, hr.1, by rw [afterEmit_outLen hl, h.outLen]⟩

theorem Packed.emit_full (h : Packed cap s code n m r) (b : Byte) (hm : cap.bytes ≤ 1028 + m / 8) :
    Machine.emit cap b r = .ended (raiseFault .outOvf n (startCommand s).s) := by
  have hl : r.s.outLen.toNat = cap.bytes := Nat.le_antisymm h.coding.fits (by rw [h.outLen]; exact hm)
  rw [Machine.emit_full hl, h.coding.raise_eq, h.cursor]

theorem Packed.putBit (h : Packed cap s code n m r) (d : Bool) (hm : 1028 + (m + 1) / 8 ≤ cap.bytes) :
    ∃ r', putBit cap d r = .ok r' ∧ Packed cap s code n (m + 1) r' := by
  have hnacc := h.nacc
  by_cases h7 : r.w.nacc = 7
  · obtain ⟨acc, hput⟩ := putBit_of_seven (cap := cap) h7 d
    obtain ⟨he, hcoding, hlen⟩ := (h.withAcc acc).emit acc (by omega)
    rw [hput, he]
    exact ⟨_, rfl, hcoding.work _, h.code, h.cursor, hlen.trans (by omega), by simp; omega⟩
  · obtain ⟨acc, hput⟩ := putBit_of_ne_seven (cap := cap) h7 d
    exact ⟨_, hput, h.coding.work _, h.code, h.cursor, h.outLen.trans (by omega), by simp; omega⟩

theorem Packed.putBit_overflow (h : Packed cap s code n m r) (d : Bool)
    (hm : cap.bytes < 1028 + (m + 1) / 8) :
    Machine.putBit cap d r = .ended (raiseFault .outOvf n (startCommand s).s) := by
  have hfits := h.coding.fits
  have hlen := h.outLen
  have hnacc := h.nacc
  obtain ⟨acc, hput⟩ := putBit_of_seven (cap := cap) (r := r) (by omega) d
  rw [hput, (h.withAcc acc).emit_full acc (by omega)]
  rfl

theorem Packed.putBits (h : Packed cap s code n m r) (ds : List Bool)
    (hm : 1028 + (m + ds.length) / 8 ≤ cap.bytes) :
    ∃ r', putBits cap ds r = .ok r' ∧ Packed cap s code n (m + ds.length) r' := by
  induction ds generalizing m r with
  | nil => exact ⟨r, rfl, h⟩
  | cons d ds ih =>
    have hlen : m + (d :: ds).length = m + 1 + ds.length := by simp; omega
    rw [hlen] at hm ⊢
    obtain ⟨r', hput, hr'⟩ := h.putBit d (by omega)
    rw [Machine.putBits, hput]
    exact ih hr' hm

theorem Packed.putBits_overflow (h : Packed cap s code n m r) (ds : List Bool)
    (hm : 1028 + m / 8 ≤ cap.bytes) (hover : cap.bytes < 1028 + (m + ds.length) / 8) :
    Machine.putBits cap ds r = .ended (raiseFault .outOvf n (startCommand s).s) := by
  induction ds generalizing m r with
  | nil => simp only [List.length_nil] at hover; omega
  | cons d ds ih =>
    have hlen : m + (d :: ds).length = m + 1 + ds.length := by simp; omega
    rw [hlen] at hover
    rw [Machine.putBits]
    rcases Nat.lt_or_ge cap.bytes (1028 + (m + 1) / 8) with hlt | hge
    · rw [h.putBit_overflow d hlt]; rfl
    · obtain ⟨r', hput, hr'⟩ := h.putBit d hge
      rw [hput]
      exact ih hr' hge hover

/-- `flush` with bits in `ACC` and no room for their byte. -/
theorem Packed.flush_overflow (h : Packed cap s code n m r) (hm : cap.bytes ≤ 1028 + m / 8)
    (hbits : m % 8 ≠ 0) :
    flush cap r = .ended (raiseFault .outOvf n (startCommand s).s) := by
  rw [flush, if_neg (by rw [h.nacc]; exact hbits), h.emit_full _ hm]
  rfl

end

/-! ## huff.enc -/

/-- `huff_enc` up to the end of the header (R173 to R176): no bit is packed yet. -/
theorem huffEncode_header {cap : Cap} {s : State} {x : List Byte} (hx : InputIs s x) :
    ∃ r, Packed cap s (codesOf (histOf x)) 0 0 r ∧
      huffEncode cap (startCommand s) =
        (scanInput x.length (packPass cap) r).bind fun r =>
          flush cap { r with w := { r.w with i := r.s.inLen.toNat } } := by
  have hcount := computeHistogram_eq (r := startCommand s) hx
  have hmodel : Reached cap s 0 []
      (modelOf { (startCommand s) with w := { Work.init with hist := histOf x } }) :=
    (Reached.start cap s).work rfl
  have hheader := length_headerBytes (histOf x) (startCommand s).s.inLen.toNat (length_histOf x)
  obtain ⟨he, hr⟩ := hmodel.emitAll (bs := headerBytes (histOf x) (startCommand s).s.inLen.toNat)
    (by rw [List.nil_append, hheader]; exact (cap_bounds cap).1)
  refine ⟨Running.withAcc _ 0#8 0, ⟨hr.coding.work _, rfl, hr.cursor, ?_, rfl⟩, ?_⟩
  · exact hr.wrote.outLen.trans hheader
  · rw [huffEncode, hcount, Flow.bind_ok]
    refine (congrArg (Flow.bind · _) he).trans ?_
    rw [Flow.bind_ok, ← hx.1]
    rfl

theorem codeBits_concat_length (hist : List Nat) (a : List Byte) (b : Byte) :
    (codeBits hist (a ++ [b])).length =
      (codeBits hist a).length + (codeOf (codesOf hist) b).length := by
  rw [codeBits_append, codeBits_singleton, List.length_append]

/-- A pass of PACK at the byte `b` puts its code. -/
theorem packPass_eq {cap : Cap} {s : State} {code : List (List Bool)} {m : Nat} {r : Running}
    {a c : List Byte} {b : Byte} (h : Packed cap s code a.length m r) (hx : StartsWith s (a ++ b :: c)) :
    packPass cap r = (putBits cap (codeOf code b) r).bind fun r => .ok (r.advance 1) := by
  have hread : r.s.ibuf.read r.w.i = some b := by
    rw [h.cursor, h.coding.ibuf]; exact hx.read_next
  rw [packPass, input_some hread, Flow.bind_ok, putCode, h.code]

/-- The passes of PACK come to every input byte before which the packed bytes fit. -/
theorem pack_passes {cap : Cap} {s : State} {hist : List Nat} {r₀ : Running} {a c : List Byte}
    (h₀ : Packed cap s (codesOf hist) 0 0 r₀) (hx : StartsWith s (a ++ c))
    (hfits : 1028 + (codeBits hist a).length / 8 ≤ cap.bytes) :
    ∃ r, Passes (packPass cap) r₀ r ∧
      Packed cap s (codesOf hist) a.length (codeBits hist a).length r := by
  induction a using List.reverseRecOn generalizing c with
  | nil => exact ⟨r₀, .refl, h₀⟩
  | append_singleton a b ih =>
    have hlen := hx.le
    rw [codeBits_concat_length] at hfits ⊢
    rw [List.append_assoc, List.singleton_append] at hx
    simp only [List.length_append, List.length_singleton] at hlen ⊢
    obtain ⟨r, hp, hr⟩ := ih hx (by omega)
    obtain ⟨r', hput, hr'⟩ := hr.putBits _ hfits
    have hpass : packPass cap r = .ok (r'.advance 1) := by rw [packPass_eq hr hx, hput]; rfl
    refine ⟨_, hp.pass ?_ hpass ?_, hr'.coding.work _, hr'.code, ?_, hr'.outLen, hr'.nacc⟩
    · rw [hr.cursor, hr.coding.inLen]; omega
    · rw [hr.cursor, Running.advance_w_i, hr'.cursor]; omega
    · rw [Running.advance_w_i, hr'.cursor]

theorem huffEncode_overflow_in_pack {cap : Cap} {s : State} {a c : List Byte} {b : Byte}
    (hx : InputIs s (a ++ b :: c))
    (hfits : 1028 + (codeBits (histOf (a ++ b :: c)) a).length / 8 ≤ cap.bytes)
    (hover : cap.bytes < 1028 + (codeBits (histOf (a ++ b :: c)) (a ++ [b])).length / 8) :
    huffEncode cap (startCommand s) = .ended (raiseFault .outOvf a.length (startCommand s).s) := by
  have hstart := StartsWith.of_inputIs hx
  have hlen := hx.1
  simp only [List.length_append, List.length_cons] at hlen
  obtain ⟨r₀, h₀, he⟩ := huffEncode_header (cap := cap) hx
  obtain ⟨r, hp, hr⟩ := pack_passes h₀ hstart hfits
  obtain ⟨fuel, hnext⟩ := hp.next (fuel := (a ++ b :: c).length)
    (by rw [hr.cursor, hr.coding.inLen]; omega) (by rw [hr.coding.inLen, ← hx.1]; omega)
  rw [codeBits_concat_length] at hover
  rw [he, hnext, packPass_eq hr hstart, hr.putBits_overflow _ hfits hover]
  rfl

theorem huffEncode_overflow_in_flush {cap : Cap} {s : State} {x : List Byte} (hx : InputIs s x)
    (hfits : 1028 + (codeBits (histOf x) x).length / 8 = cap.bytes)
    (hbits : (codeBits (histOf x) x).length % 8 ≠ 0) :
    huffEncode cap (startCommand s) = .ended (raiseFault .outOvf x.length (startCommand s).s) := by
  obtain ⟨r₀, h₀, he⟩ := huffEncode_header (cap := cap) hx
  obtain ⟨r, hp, hr⟩ := pack_passes (c := []) h₀
    (by rw [List.append_nil]; exact .of_inputIs hx) hfits.le
  have hinLen : r.s.inLen.toNat = x.length := by rw [hr.coding.inLen, hx.1]
  have hscan := hp.done (fuel := x.length) (by rw [hr.cursor, hinLen]) (by omega)
  have hr' : Packed cap s (codesOf (histOf x)) x.length (codeBits (histOf x) x).length
      { r with w := { r.w with i := r.s.inLen.toNat } } :=
    ⟨hr.coding.work _, hr.code, hinLen, hr.outLen, hr.nacc⟩
  rw [he, hscan, Flow.bind_ok, hr'.flush_overflow hfits.ge hbits]

end Sys2Proof.Machine

open Sys2Proof Sys2Proof.Machine Sys2Proof.Safety

/-- Settles O53: the packed byte that does not fit is filled by the code of an input byte, or, if the code
bits end before, by `flush`. -/
theorem huffEncOverflows : Obligations.HuffEncOverflows := by
  refine ⟨fun _ => rfl, fun cap s x hx hf hl hover => ?_⟩
  have hcap := cap_bounds cap
  have hruns := issueCoder_runs (op := 0x03#8) (coder := huffEncode cap) hf (hx.1 ▸ hl)
  rw [length_payloadOf] at hover
  rcases Nat.lt_or_ge (8 * (cap.bytes - 1028) + 7) (codeBits (histOf x) x).length with hlong | hshort
  · obtain ⟨a, b, c, rfl, ha, hb⟩ := exists_byte_of_bit hlong
    have hrun := huffEncode_overflow_in_pack (cap := cap) (s := { s with cmd := 0x03#8 }) hx
      (by omega) (by omega)
    exact .inr ⟨a, b, c, rfl, ha, hb, hruns.trans (congrArg endCommand hrun)⟩
  · have hrun := huffEncode_overflow_in_flush (cap := cap) (s := { s with cmd := 0x03#8 }) hx
      (by omega) (by omega)
    exact .inl ⟨hshort, hruns.trans (congrArg endCommand hrun)⟩

end

section
/-! Undefined input bytes (70_reset_and_hazards.md R263): `huff.enc` and the header of `huff.dec` read every
byte of a range; the RLE0 coders are refused at the first undefined byte that they come to. -/

namespace Sys2Proof.Safety

open Sys2Proof.Machine

/-- Where the input string breaks off does not depend on `CMD`. -/
theorem InputBreaksOff.withCmd {s : State} {x : List Byte} (h : InputBreaksOff s x) (op : Byte) :
    InputBreaksOff { s with cmd := op } x := ⟨h.defined, h.undefined, h.goesOn⟩

end Sys2Proof.Safety

namespace Sys2Proof.Machine

open Sys2Proof.Safety

/-! ## The issue of a command -/

theorem issueCoder_refused {op : Byte} {cap : Cap} {coder : Running → Flow Running} {s : State}
    {e : Refusal} (hf : s.status ≠ .fault) (hl : s.inLen.toNat ≤ cap.bytes)
    (h : coder (startCommand { s with cmd := op }) = .refused e) :
    issueCoder op cap coder s = .refused e :=
  (issueCoder_runs hf hl).trans (congrArg endCommand h)

/-! ## A range with an undefined byte -/

theorem input_cases (r : Running) (a : Nat) :
    (r.s.ibuf.read a = none ∧ r.input a = .refused .undefinedByte) ∨ ∃ b, r.input a = .ok b := by
  cases h : r.s.ibuf.read a with
  | none => exact .inl ⟨rfl, input_none h⟩
  | some b => exact .inr ⟨b, input_some h⟩

theorem countInput_undefined {r : Running} {a n t : Nat} {hist : List Nat} (ht : t < n)
    (h : r.s.ibuf.read (a + t) = none) : countInput r a n hist = .refused .undefinedByte := by
  induction n generalizing a t hist with
  | zero => omega
  | succ n ih =>
    rw [countInput]
    rcases input_cases r a with ⟨-, he⟩ | ⟨b, he⟩
    · rw [he]; rfl
    · rw [he, Flow.bind_ok]
      cases t with
      | zero => rw [Nat.add_zero] at h; rw [input_none h] at he; cases he
      | succ t => exact ih (t := t) (by omega) (by rwa [Nat.add_right_comm, Nat.add_assoc])

theorem readInput_undefined {r : Running} {a n t : Nat} (ht : t < n)
    (h : r.s.ibuf.read (a + t) = none) : readInput r a n = .refused .undefinedByte := by
  induction n generalizing a t with
  | zero => omega
  | succ n ih =>
    rw [readInput]
    rcases input_cases r a with ⟨-, he⟩ | ⟨b, he⟩
    · rw [he]; rfl
    · rw [he, Flow.bind_ok]
      cases t with
      | zero => rw [Nat.add_zero] at h; rw [input_none h] at he; cases he
      | succ t => rw [ih (t := t) (by omega) (by rwa [Nat.add_right_comm, Nat.add_assoc])]; rfl

theorem huffEncode_undefined {cap : Cap} {s : State} {a : Nat} (ha : a < s.inLen.toNat)
    (h : s.ibuf.read a = none) :
    huffEncode cap (startCommand s) = .refused .undefinedByte := by
  have hcount : countInput (startCommand s) 0 s.inLen.toNat (List.replicate Config.nsym 0) =
      .refused .undefinedByte := countInput_undefined ha (by rwa [Nat.zero_add])
  rw [huffEncode, computeHistogram]
  exact congrArg (fun x => (Flow.bind x _).bind _) hcount

theorem huffDecode_header_undefined {cap : Cap} {s : State} {a : Nat} (ha : a < Config.hdr)
    (hlen : Config.hdr ≤ s.inLen.toNat) (h : s.ibuf.read a = none) :
    huffDecode cap (startCommand s) = .refused .undefinedByte := by
  have hread : readInput (startCommand s) 0 Config.hdr = .refused .undefinedByte :=
    readInput_undefined ha (by rwa [Nat.zero_add])
  rw [huffDecode, if_neg (by simpa using hlen), parseHeader, hread]
  rfl

/-! ## rle0.enc -/

/-- The scan of a run comes to an undefined byte. -/
theorem scanRun_undefined {r : Running} {k : Nat} (fuel : Nat) (hi : r.w.i + k < r.s.inLen.toNat)
    (h : r.s.ibuf.read (r.w.i + k) = none) : scanRun r (fuel + 1) k = .refused .undefinedByte := by
  rw [scanRun, if_pos hi, input_none h]; rfl

/-- The pass that comes to the undefined byte, after `k` zeros of an unfinished run. -/
theorem rle0EncPass_undefined (cap : Cap) {r : Running} {a : List Byte} {k : Nat}
    (hx : StartsWith r.s (a ++ List.replicate k 0x00#8)) (hi : r.w.i = a.length)
    (hlen : a.length + k < r.s.inLen.toNat) (h : r.s.ibuf.read (a.length + k) = none) :
    rle0EncPass cap r = .refused .undefinedByte := by
  rw [← hi] at hlen h
  cases k with
  | zero =>
    rw [Nat.add_zero] at h
    rw [rle0EncPass, input_none h]; rfl
  | succ k =>
    have hzeros : ZerosAhead r (1 + k) := by
      rw [Nat.add_comm]
      exact StartsWith.zerosAhead (c := []) (by rwa [List.append_nil]) hi
    obtain ⟨fuel, hfuel⟩ : ∃ fuel, r.s.inLen.toNat = fuel + 1 + k :=
      ⟨r.s.inLen.toNat - (k + 1), by omega⟩
    refine (rle0EncPass_zero cap (hzeros 0 (by omega)).2).1 _ ?_
    rw [hfuel, scanRun_zeros _ hzeros, Nat.add_comm 1 k]
    exact scanRun_undefined fuel hlen h

theorem rle0Encode_undefined {cap : Cap} {s : State} {y : List Byte} {k : Nat}
    (hx : InputBreaksOff s (y ++ List.replicate k 0x00#8)) (hy : y.getLast? ≠ some 0x00#8)
    (hfits : (rle0Of y).length ≤ cap.bytes) :
    rle0Encode cap (startCommand s) = .refused .undefinedByte := by
  have hstart := StartsWith.of_breaksOff hx
  have hlen := hx.goesOn
  have hnone := hx.undefined
  simp only [List.length_append, List.length_replicate] at hlen hnone
  obtain ⟨r, hp, hr⟩ := rle0Enc_passes (.inl hy) hstart (fun _ h => absurd h hy) hfits
  obtain ⟨fuel, hnext⟩ := hp.next (fuel := s.inLen.toNat)
    (by rw [hr.cursor, hr.coding.inLen]; omega) (by rw [hr.coding.inLen]; omega)
  have hpass := rle0EncPass_undefined cap (hr.startsWith hstart) hr.cursor
    (by rwa [hr.coding.inLen]) (by rwa [hr.coding.ibuf])
  rw [hpass] at hnext
  exact hnext

/-! ## The tokens of rle0.dec -/

/-- After `40 01` the bit-bytes are read. -/
theorem decodeToken_run (bs : List Byte) :
    decodeToken (0x40#8 :: 0x01#8 :: bs) =
      .ok (.run (readRun Config.runBitsMax bs).1 (readRun Config.runBitsMax bs).2.1)
        (readRun Config.runBitsMax bs).2.2 := rfl

theorem decodeToken_wellMade {i : Instr} (hi : wellMade i = true) (rest : List Byte) :
    decodeToken (tokenBytes i ++ rest) = .ok i rest := by
  cases i with
  | copy b => exact if_neg (by simpa [wellMade, Instr.wf] using hi)
  | escLit => rfl
  | run bits ending =>
    cases ending with
    | closed =>
      have hbits : bits.length ≤ Config.runBitsMax := by simpa [wellMade, Instr.wf, RunEnd.wf] using hi
      have hread := readRun_closed bits rest Config.runBitsMax hbits
      have hbytes : tokenBytes (.run bits .closed) ++ rest =
          0x40#8 :: 0x01#8 :: (bits.map bitByte ++ Config.esc :: rest) := by
        simp [tokenBytes, encode, runBytes, runTail, Config.esc, Config.tagRun]
      rw [hbytes, decodeToken_run, hread]
    | _ => cases hi
  | _ => cases hi

theorem length_tokenBytes {i : Instr} (hi : wellMade i = true) :
    1 ≤ (tokenBytes i).length ∧ (tokenBytes i).length ≤ longestToken := by
  cases i with
  | copy b => exact ⟨Nat.le_refl 1, (by decide : 1 ≤ longestToken)⟩
  | escLit => decide
  | run bits ending =>
    cases ending with
    | closed =>
      have h := Laws.EncodeForm.run bits .closed hi
      exact ⟨h.1, h.2.1⟩
    | _ => cases hi
  | _ => cases hi

/-- What the fetch sees of the input: the defined bytes under the cursor, as far as a token can reach. -/
def ahead (s : State) (a : Nat) : List Byte := s.ibuf.stretch a (min longestToken (s.inLen.toNat - a))

theorem fetchToken_of_decode {s : State} {a : Nat} {i : Instr} {rest : List Byte}
    (hd : decodeToken (ahead s a) = .ok i rest) (hi : wellMade i = true) : fetchToken s a = .token i := by
  unfold ahead at hd
  cases i with
  | run bits ending =>
    cases ending with
    | closed => simp only [fetchToken, hd]
    | _ => cases hi
  | copy b => simp only [fetchToken, hd]
  | escLit => simp only [fetchToken, hd]
  | _ => cases hi

theorem StartsWith.stretch {s : State} {x u z : List Byte} (h : StartsWith s (x ++ (u ++ z))) :
    s.ibuf.stretch x.length u.length = u :=
  Memory.stretch_eq _ _ _ fun t ht => by
    rw [h.read _ (by simp; omega), List.getElem?_append_right (by omega), Nat.add_sub_cancel_left,
      List.getElem?_append_left ht]

/-- The token under the cursor is fetched. -/
theorem fetchToken_wellMade {s : State} {x z : List Byte} {i : Instr} (hi : wellMade i = true)
    (hx : StartsWith s (x ++ (tokenBytes i ++ z))) : fetchToken s x.length = .token i := by
  have hlen := hx.le
  simp only [List.length_append] at hlen
  have hmax := (length_tokenBytes hi).2
  have hu := hx.stretch
  obtain ⟨k, hk⟩ := Nat.exists_eq_add_of_le
    (show (tokenBytes i).length ≤ min longestToken (s.inLen.toNat - x.length) by omega)
  have hahead : ahead s x.length = tokenBytes i ++ s.ibuf.stretch (x.length + (tokenBytes i).length) k := by
    rw [ahead, hk, Memory.stretch_add _ _ _ _ (by rw [hu]), hu]
  exact fetchToken_of_decode (hahead ▸ decodeToken_wellMade hi _) hi

theorem Reached.emitZeros {cap : Cap} {s : State} {n k : Nat} {y : List Byte} {r : Running}
    (h : Reached cap s n y r) (hc : (y ++ List.replicate k 0x00#8).length ≤ cap.bytes) :
    ∃ r', emitZeros cap k r = .ok r' ∧
      Reached cap s (r.w.j + 1) (y ++ List.replicate k 0x00#8) r' := by
  have hk : Reached cap s n y { r with w := { r.w with k := k } } := h.work h.cursor
  obtain ⟨he, hr⟩ := hk.emitAll hc
  rw [← repeatEmit_eq_emitAll] at he
  exact ⟨_, congrArg (Flow.bind · _) he, hr.work rfl⟩

theorem Reached.tokenMeaning {cap : Cap} {s : State} {n : Nat} {y : List Byte} {r : Running}
    (h : Reached cap s n y r) {i : Instr} (hi : wellMade i = true)
    (hc : (y ++ tokenOutput i).length ≤ cap.bytes) :
    ∃ r', tokenMeaning cap i r = .ok r' ∧
      Reached cap s (n + (tokenBytes i).length) (y ++ tokenOutput i) r' := by
  cases i with
  | copy b =>
    have he := emit_wrote (cap := cap) (b := b) h.wrote (by simpa [tokenOutput] using hc)
    refine ⟨_, by rw [Machine.tokenMeaning, copyToken, he]; rfl, (h.emitAll hc).2.work ?_⟩
    exact congrArg (· + 1) h.cursor
  | escLit =>
    have he := emit_wrote (cap := cap) (b := Config.esc) h.wrote (by simpa [tokenOutput] using hc)
    refine ⟨_, by rw [Machine.tokenMeaning, escLitToken, he]; rfl, (h.emitAll hc).2.work ?_⟩
    exact congrArg (· + 2) h.cursor
  | run bits ending =>
    cases ending with
    | closed =>
      rw [tokenOutput, ← runLength_eq] at hc ⊢
      obtain ⟨r', he, hr⟩ := Reached.emitZeros (r := afterBits bits r) (h.work h.cursor) hc
      have hcursor : (afterBits bits r).w.j + 1 = n + (tokenBytes (.run bits .closed)).length := by
        simp [tokenBytes, encode, runBytes, runTail, h.cursor]
        omega
      exact ⟨r', he, hcursor ▸ hr⟩
    | _ => cases hi
  | _ => cases hi

/-- The passes of `rle0.dec` come to the end of every string of well-made tokens whose meaning fits. -/
theorem rle0Dec_passes {cap : Cap} {s : State} {ts : List Instr} {z : List Byte}
    (hx : StartsWith s (ts.flatMap tokenBytes ++ z)) (hts : ∀ i ∈ ts, wellMade i = true)
    (hfits : (ts.flatMap tokenOutput).length ≤ cap.bytes) :
    ∃ r, Passes (rle0DecPass cap) (startCommand s) r ∧
      Reached cap s (ts.flatMap tokenBytes).length (ts.flatMap tokenOutput) r := by
  induction ts using List.reverseRecOn generalizing z with
  | nil => exact ⟨_, .refl, .start cap s⟩
  | append_singleton ts i ih =>
    simp only [List.flatMap_append, List.flatMap_singleton] at hx hfits ⊢
    rw [List.append_assoc] at hx
    have hlen := hx.le
    have hi : wellMade i = true := hts i (by simp)
    have hpos := (length_tokenBytes hi).1
    obtain ⟨r, hp, hr⟩ := ih hx (fun j hj => hts j (by simp [hj]))
      (by rw [List.length_append] at hfits; omega)
    obtain ⟨r', hpass, hr'⟩ := hr.tokenMeaning hi hfits
    simp only [List.length_append] at hlen ⊢
    have hfetch : fetchToken r.s r.w.i = .token i := by
      rw [hr.cursor]; exact fetchToken_wellMade hi (hr.startsWith hx)
    refine ⟨r', hp.pass ?_ (by rw [rle0DecPass, hfetch]; exact hpass) ?_, hr'⟩
    · rw [hr.cursor, hr.coding.inLen]; omega
    · rw [hr.cursor, hr'.cursor]; omega

/-! ## rle0.dec at an undefined byte -/

/-- A beginning of a token that needs one more byte. -/
def TokenBreaksOff (part : List Byte) : Prop :=
  part = [] ∨ part = [0x40#8] ∨
    ∃ bits : List Bool, bits.length ≤ 31 ∧ part = 0x40#8 :: 0x01#8 :: bits.map bitByte

theorem TokenBreaksOff.length_lt {part : List Byte} (h : TokenBreaksOff part) :
    part.length < longestToken := by
  rcases h with rfl | rfl | ⟨bits, hbits, rfl⟩
  · decide
  · decide
  · simp [longestToken]; omega

theorem fetchToken_undefined {s : State} {x part : List Byte} (hx : InputBreaksOff s (x ++ part))
    (hp : TokenBreaksOff part) : fetchToken s x.length = .undefinedByte := by
  have hlen := hx.goesOn
  have hnone := hx.undefined
  simp only [List.length_append] at hlen hnone
  have hmax := hp.length_lt
  have hu : s.ibuf.stretch x.length part.length = part :=
    StartsWith.stretch (z := []) (by rw [List.append_nil]; exact .of_breaksOff hx)
  obtain ⟨k, hk⟩ := Nat.exists_eq_add_of_lt
    (show part.length < min longestToken (s.inLen.toNat - x.length) by omega)
  have hahead : s.ibuf.stretch x.length (min longestToken (s.inLen.toNat - x.length)) = part := by
    rw [hk, Nat.add_assoc, Memory.stretch_add _ _ _ _ (by rw [hu]), hu, Memory.stretch, hnone,
      List.append_nil]
  have hne : part.length ≠ min longestToken (s.inLen.toNat - x.length) := by omega
  rcases hp with rfl | rfl | ⟨bits, hbits, rfl⟩
  · simp only [fetchToken, hahead, decodeToken]
  · have hd : decodeToken [0x40#8] = .reject .escapeAtEnd := rfl
    simp only [fetchToken, hahead, hd, if_neg hne]
  · have hd : decodeToken (0x40#8 :: 0x01#8 :: bits.map bitByte) = .ok (.run bits .truncated) [] := by
      rw [decodeToken_run, readRun_truncated bits Config.runBitsMax hbits]
    simp only [fetchToken, hahead, hd, if_neg hne]

theorem rle0Decode_undefined {cap : Cap} {s : State} {ts : List Instr} {part : List Byte}
    (hx : InputBreaksOff s (ts.flatMap tokenBytes ++ part)) (hts : ∀ i ∈ ts, wellMade i = true)
    (hfits : (ts.flatMap tokenOutput).length ≤ cap.bytes) (hp : TokenBreaksOff part) :
    rle0Decode cap (startCommand s) = .refused .undefinedByte := by
  have hlen := hx.goesOn
  rw [List.length_append] at hlen
  obtain ⟨r, hpasses, hr⟩ := rle0Dec_passes (.of_breaksOff hx) hts hfits
  obtain ⟨fuel, hnext⟩ := hpasses.next (fuel := s.inLen.toNat)
    (by rw [hr.cursor, hr.coding.inLen]; omega) (by rw [hr.coding.inLen]; omega)
  have hbreaks : InputBreaksOff r.s (ts.flatMap tokenBytes ++ part) :=
    ⟨by rw [hr.coding.ibuf]; exact hx.defined, by rw [hr.coding.ibuf]; exact hx.undefined,
      by rw [hr.coding.inLen]; exact hx.goesOn⟩
  rw [rle0DecPass, hr.cursor, fetchToken_undefined hbreaks hp] at hnext
  exact hnext

end Sys2Proof.Machine

end

section
/-! The bits that `huff.dec` takes for a symbol (42_huffman_model.md R150, R151, 43_huffman_codec.md R182,
R183): every code leads to the leaf of its byte value, and a tree of one leaf takes any one bit. -/

namespace Sys2Proof.Safety

open Sys2Proof.Machine

/-! ## Codes lead to leaves -/

theorem follow_append (node : List Node) (n : Nat) (p q : List Bool) :
    follow node n (p ++ q) = (follow node n p).bind fun m => follow node m q := by
  induction p generalizing n with
  | nil => rfl
  | cons d p ih =>
    rw [List.cons_append, follow, follow]
    split
    · exact ih _
    · rfl
    · rfl

/-- From node `n` the path leads to a leaf of byte value `sym`. -/
def LeadsTo (node : List Node) (n : Nat) (path : List Bool) (sym : Byte) : Prop :=
  ∃ m w, follow node n path = some m ∧ node[m]? = some (.leaf sym w)

theorem LeadsTo.leaf {node : List Node} {n : Nat} {sym : Byte} (h : LeadsTo node n [] sym) :
    ∃ w, node[n]? = some (.leaf sym w) := by
  obtain ⟨m, w, hf, hm⟩ := h
  cases hf
  exact ⟨w, hm⟩

/-- A path goes on only from an internal node. -/
theorem follow_cons {node : List Node} {n m : Nat} {d : Bool} {path : List Bool}
    (h : follow node n (d :: path) = some m) : ∃ w left right,
      node[n]? = some (.internal w left right) ∧
      follow node (if d then right else left) path = some m := by
  unfold follow at h
  split at h
  · next w left right hn => exact ⟨w, left, right, hn, h⟩
  · cases h
  · cases h

/-- A path that leads to a leaf leads there by each of its nodes. -/
theorem LeadsTo.split {node : List Node} {n : Nat} {ds es : List Bool} {sym : Byte}
    (h : LeadsTo node n (ds ++ es) sym) : ∃ m, follow node n ds = some m ∧ LeadsTo node m es sym := by
  obtain ⟨k, w, hf, hk⟩ := h
  rw [follow_append, Option.bind_eq_some_iff] at hf
  obtain ⟨m, hm, hf⟩ := hf
  exact ⟨m, hm, k, w, hf, hk⟩

theorem LeadsTo.internal {node : List Node} {n : Nat} {ds : List Bool} {sym : Byte}
    (h : LeadsTo node n ds sym) (hds : ds ≠ []) :
    ∃ w left right, node[n]? = some (.internal w left right) := by
  obtain ⟨d, path, rfl⟩ := List.exists_cons_of_ne_nil hds
  obtain ⟨m, w, hf, -⟩ := h
  obtain ⟨w, left, right, hn, -⟩ := follow_cons hf
  exact ⟨w, left, right, hn⟩

/-- Every code in the table leads from the root to a leaf of its byte value, and none is longer than the
arena. -/
structure CodesLead (node : List Node) (root : Nat) (code : List (List Bool)) : Prop where
  length : code.length = 256
  leads : ∀ b, codeOf code b ≠ [] →
    LeadsTo node root (codeOf code b) b ∧ (codeOf code b).length ≤ node.length

theorem codeOf_set {code : List (List Bool)} (hlen : code.length = 256) (sym b : Byte)
    (path : List Bool) : codeOf (code.set sym.toNat path) b = if b = sym then path else codeOf code b := by
  simp only [codeOf, List.getD_eq_getElem?_getD, List.getElem?_set, hlen, BitVec.toNat_inj,
    eq_comm (a := sym)]
  split
  · rw [if_pos (show sym.toNat < 256 from sym.isLt)]; rfl
  · rfl

theorem codeOf_empty (b : Byte) : codeOf (List.replicate Config.nsym []) b = [] := by
  simp only [codeOf, List.getD_eq_getElem?_getD, List.getElem?_replicate]
  split <;> rfl

theorem codesLead_empty (node : List Node) (root : Nat) :
    CodesLead node root (List.replicate Config.nsym []) :=
  ⟨List.length_replicate, fun b hb => absurd (codeOf_empty b) hb⟩

/-- The walk over the tree sets codes that lead to their leaves (R150). -/
theorem CodesLead.walkCodes {node : List Node} {root : Nat} {fuel n : Nat} {path : List Bool}
    {code : List (List Bool)} (h : CodesLead node root code) (hpath : follow node root path = some n)
    (hlen : path.length + fuel ≤ node.length) :
    CodesLead node root (walkCodes node fuel n path code) := by
  induction fuel generalizing n path code with
  | zero => exact h
  | succ fuel ih =>
    unfold Machine.walkCodes
    split
    · next sym w hn =>
      refine ⟨by rw [List.length_set, h.length], fun b hb => ?_⟩
      rw [codeOf_set h.length] at hb ⊢
      split
      · next hs => subst hs; exact ⟨⟨n, w, hpath, hn⟩, by omega⟩
      · next hs => rw [if_neg hs] at hb; exact h.leads b hb
    · next w left right hn =>
      have hchild : ∀ d, follow node root (path ++ [d]) = some (if d then right else left) := fun d => by
        simp only [follow_append, hpath, Option.bind_some, follow, hn]
      have hlen' : ∀ d, (path ++ [d]).length + fuel ≤ node.length := fun d => by simp; omega
      exact ih (ih h (hchild false) (hlen' _)) (hchild true) (hlen' _)
    · exact h

/-- `ds` are the bits that `decode_symbol` takes for `sym`: the path to its leaf, or any one bit where the
root is a leaf (R182, R183). -/
inductive SymbolBits (node : List Node) (root : Option Nat) (sym : Byte) (ds : List Bool) : Prop where
  | leaf {n w : Nat} (hr : root = some n) (hn : node[n]? = some (.leaf sym w)) (hd : ds.length = 1) :
      SymbolBits node root sym ds
  | path {n w left right : Nat} (hr : root = some n) (hn : node[n]? = some (.internal w left right))
      (hp : LeadsTo node n ds sym) (hl : ds.length ≤ node.length) : SymbolBits node root sym ds

/-- The code of a byte value is what is taken for it. -/
theorem symbolBits_code {node : List Node} {root : Option Nat} {b : Byte}
    (hb : codeOf (codeTable node root) b ≠ []) :
    SymbolBits node root b (codeOf (codeTable node root) b) := by
  cases root with
  | none => exact absurd (codeOf_empty b) hb
  | some n =>
    unfold codeTable at hb ⊢
    simp only at hb ⊢
    split at hb
    · next sym w hn =>
      rw [codeOf_set (codesLead_empty node n).length] at hb ⊢
      by_cases hs : b = sym
      · subst hs
        exact .leaf rfl hn (by rw [if_pos rfl]; rfl)
      · rw [if_neg hs] at hb
        exact absurd (codeOf_empty b) hb
    · next hleaf =>
      obtain ⟨hlead, hlen⟩ := ((codesLead_empty node n).walkCodes (fuel := node.length) (path := []) rfl
        (by simp)).leads b hb
      obtain ⟨w, left, right, hn⟩ := hlead.internal hb
      exact .path rfl hn hlead hlen

/-! ## A tree of one leaf -/

theorem leavesFrom_append (t : Nat) (cs ds : List Nat) :
    leavesFrom t (cs ++ ds) = leavesFrom t cs ++ leavesFrom (t + cs.length) ds := by
  induction cs generalizing t with
  | nil => rfl
  | cons c cs ih =>
    rw [List.cons_append, leavesFrom, leavesFrom, ih, List.length_cons, Nat.add_right_comm, Nat.add_assoc]
    split
    · rfl
    · rw [List.cons_append]

theorem leavesFrom_zeros (t : Nat) {cs : List Nat} (h : ∀ c ∈ cs, c = 0) : leavesFrom t cs = [] := by
  induction cs generalizing t with
  | nil => rfl
  | cons c cs ih =>
    rw [leavesFrom, if_pos (h c (by simp)), ih _ fun c hc => h c (by simp [hc])]

/-- With one nonzero count the tree is the leaf of its byte value (R146). -/
theorem buildArena_of_one {hist : List Nat} {b : Byte} (hlen : hist.length = 256)
    (h : ∀ c : Byte, hist.getD c.toNat 0 ≠ 0 ↔ c = b) :
    buildArena hist = ([.leaf b (hist.getD b.toNat 0)], [0]) := by
  have hb : b.toNat < hist.length := hlen ▸ b.isLt
  have hzero : ∀ t (ht : t < hist.length), t ≠ b.toNat → hist[t] = 0 := fun t ht hne => by
    have hc := h (BitVec.ofNat 8 t)
    have htn : (BitVec.ofNat 8 t).toNat = t := by rw [BitVec.toNat_ofNat]; omega
    rw [htn, List.getD_eq_getElem _ _ ht] at hc
    by_contra hn
    exact hne (by rw [← hc.1 hn, htn])
  have hsplit : hist = hist.take b.toNat ++ hist[b.toNat] :: hist.drop (b.toNat + 1) := by
    rw [List.getElem_cons_drop, List.take_append_drop]
  have hbefore : ∀ c ∈ hist.take b.toNat, c = 0 := fun c hc => by
    obtain ⟨t, ht, rfl⟩ := List.mem_iff_getElem.1 hc
    rw [List.length_take] at ht
    rw [List.getElem_take]
    exact hzero t (by omega) (by omega)
  have hafter : ∀ c ∈ hist.drop (b.toNat + 1), c = 0 := fun c hc => by
    obtain ⟨t, ht, rfl⟩ := List.mem_iff_getElem.1 hc
    rw [List.length_drop] at ht
    rw [List.getElem_drop]
    exact hzero _ (by omega) (by omega)
  have hne : hist[b.toNat] ≠ 0 := by
    have := (h b).2 rfl
    rwa [List.getD_eq_getElem _ _ hb] at this
  have hleaves : leavesFrom 0 hist = [.leaf b (hist.getD b.toNat 0)] := by
    rw [List.getD_eq_getElem _ _ hb]
    nth_rw 1 [hsplit]
    rw [leavesFrom_append, leavesFrom_zeros _ hbefore, List.nil_append, leavesFrom, if_neg hne,
      leavesFrom_zeros _ hafter, List.length_take, Nat.min_eq_left hb.le, Nat.zero_add,
      BitVec.ofNat_toNat, BitVec.setWidth_eq]
  rw [buildArena, hleaves]
  rfl

/-! ## Bits of a payload -/

theorem getElem?_flatMap_byteBits (l : List Byte) (k : Nat) :
    (l.flatMap byteBits)[k]? = (l[k / 8]?).map fun b => b.getLsbD (7 - k % 8) := by
  induction l generalizing k with
  | nil => rfl
  | cons b l ih =>
    rw [List.flatMap_cons]
    rcases Nat.lt_or_ge k 8 with hk | hk
    · rw [List.getElem?_append_left (by exact hk), Nat.div_eq_of_lt hk, Nat.mod_eq_of_lt hk]
      interval_cases k <;> rfl
    · obtain ⟨k, rfl⟩ := Nat.exists_eq_add_of_le' hk
      rw [List.getElem?_append_right (by exact hk), show (byteBits b).length = 8 from rfl,
        Nat.add_sub_cancel, ih, Nat.add_div_right _ (by decide), Nat.add_mod_right,
        List.getElem?_cons_succ]

theorem length_payloadBits (p : List Byte) : (payloadBits p).length = 8 * (p.length - 1028) := by
  rw [payloadBits, List.length_flatMap, ← List.length_drop]
  induction p.drop 1028 with
  | nil => rfl
  | cons b l ih => rw [List.map_cons, List.sum_cons, ih, List.length_cons]; simp [byteBits]; omega

/-- Bit `k` of a payload is bit 7 − (k mod 8) of its byte 1028 + k div 8 (R172). -/
theorem getElem?_payloadBits (p : List Byte) (k : Nat) :
    (payloadBits p)[k]? = (p[1028 + k / 8]?).map fun b => b.getLsbD (7 - k % 8) := by
  rw [payloadBits, getElem?_flatMap_byteBits, List.getElem?_drop]

/-! ## The header of a payload -/

theorem fieldNumbers_eq (n : Nat) (bs : List Byte) :
    fieldNumbers n bs = (List.range n).map fun t => beNumber ((bs.drop (4 * t)).take 4) := by
  induction n generalizing bs with
  | zero => rfl
  | succ n ih =>
    rw [fieldNumbers, ih, List.range_succ_eq_map, List.map_cons, List.map_map]
    refine congrArg _ (List.map_congr_left fun t _ => ?_)
    simp [Config.field, List.drop_drop, Nat.mul_succ, Nat.add_comm]

/-- The counts that are parsed from the 1028 bytes of the header (R181). -/
theorem fieldNumbers_header (p : List Byte) :
    fieldNumbers Config.nsym (p.take Config.hdr) = headerCounts p := by
  rw [fieldNumbers_eq, headerCounts]
  refine List.map_congr_left fun t ht => ?_
  have ht : t < 256 := List.mem_range.1 ht
  rw [List.drop_take, List.take_take, Nat.min_eq_left (by simp only [Config.hdr]; omega)]

theorem beNumber_header (p : List Byte) :
    beNumber ((p.take Config.hdr).drop (Config.nsym * Config.field)) = headerSymbols p := by
  rw [List.drop_take]; rfl

end Sys2Proof.Safety

end

section
/-! `huff.dec` symbol by symbol (43_huffman_codec.md R172, R180 to R183), up to an undefined byte of the
payload (70_reset_and_hazards.md R263). -/

namespace Sys2Proof.Machine

open Sys2Proof.Safety

/-! ## get_bit -/

/-- `huff.dec`, started in `s`, decodes with the arena `node` and the root `root`, has consumed `m` bits and
has written `y`. -/
structure Decoding (cap : Cap) (s : State) (node : List Node) (root : Option Nat) (m : Nat) (y : List Byte)
    (r : Running) : Prop where
  coding : Coding cap s r
  node : r.w.node = node
  root : r.w.root = root
  bp : r.w.bp = m
  cursor : r.w.i = 1028 + m / 8
  wrote : Wrote y r

section
variable {cap : Cap} {s : State} {node : List Node} {root : Option Nat} {y : List Byte} {r : Running}
  {p : List Byte} {pre : List Bool}

/-- The next bit of the payload is read. -/
theorem Decoding.getBit (h : Decoding cap s node root pre.length y r) (hx : StartsWith s p) {d : Bool}
    {post : List Bool} (hbits : payloadBits p = pre ++ d :: post) :
    ∃ r', getBit r = .ok (d, r') ∧ Decoding cap s node root (pre ++ [d]).length y r' := by
  have hd : (payloadBits p)[pre.length]? = some d := by simp [hbits]
  rw [getElem?_payloadBits, Option.map_eq_some_iff] at hd
  obtain ⟨b, hb, rfl⟩ := hd
  have hlt : 1028 + pre.length / 8 < p.length := (List.getElem?_eq_some_iff.1 hb).1
  have hle := hx.le
  have hread : r.s.ibuf.read (Config.hdr + r.w.bp / 8) = some b := by
    rw [h.bp, h.coding.ibuf, Config.hdr, hx.read _ hlt, hb]
  refine ⟨{ r with w := { r.w with bp := r.w.bp + 1, i := Config.hdr + (r.w.bp + 1) / 8 } }, ?_,
    h.coding.work _, h.node, h.root, ?_, ?_, h.wrote.of_s rfl⟩
  · rw [Machine.getBit, if_neg (by rw [h.bp, h.coding.inLen, Config.hdr]; omega), input_some hread,
      Flow.bind_ok, h.bp]
  · simp [h.bp]
  · simp [h.bp, Config.hdr]

/-- After the last defined bit comes an undefined byte. -/
theorem Decoding.getBit_undefined (h : Decoding cap s node root (payloadBits p).length y r)
    (hx : InputBreaksOff s p) (hp : 1028 ≤ p.length) :
    Machine.getBit r = .refused .undefinedByte := by
  have hbp : r.w.bp = 8 * (p.length - 1028) := h.bp.trans (length_payloadBits p)
  have hlt := hx.goesOn
  have hread : r.s.ibuf.read (Config.hdr + r.w.bp / 8) = none := by
    rw [hbp, h.coding.ibuf, Config.hdr, Nat.mul_div_cancel_left _ (by decide), Nat.add_sub_cancel' hp]
    exact hx.undefined
  rw [Machine.getBit, if_neg (by rw [hbp, h.coding.inLen, Config.hdr]; omega), input_none hread]
  rfl

/-! ## decode_symbol -/

/-- The walk goes down the path that the bits of the payload spell. -/
theorem Decoding.walkTree_follow (h : Decoding cap s node root pre.length y r) (hx : StartsWith s p)
    {ds post : List Bool} (hbits : payloadBits p = pre ++ ds ++ post) {n m : Nat}
    (hf : follow node n ds = some m) (fuel : Nat) :
    ∃ r', walkTree (fuel + ds.length) n r = walkTree fuel m r' ∧
      Decoding cap s node root (pre ++ ds).length y r' := by
  induction ds generalizing pre n r with
  | nil =>
    cases hf
    exact ⟨r, rfl, by rwa [List.append_nil]⟩
  | cons d ds ih =>
    obtain ⟨w, left, right, hn, hf'⟩ := follow_cons hf
    obtain ⟨r', hget, hr'⟩ := h.getBit hx (d := d) (post := ds ++ post) (by simpa using hbits)
    obtain ⟨r'', hwalk, hr''⟩ := ih hr' (by simpa using hbits) hf'
    refine ⟨r'', ?_, by simpa using hr''⟩
    simp only [List.length_cons, ← Nat.add_assoc, walkTree, h.node, hn, hget, Flow.bind_ok, hwalk]

theorem Decoding.walkTree (h : Decoding cap s node root pre.length y r) (hx : StartsWith s p)
    {ds post : List Bool} (hbits : payloadBits p = pre ++ ds ++ post) {fuel n : Nat} {sym : Byte}
    (hlead : LeadsTo node n ds sym) (hfuel : ds.length ≤ fuel) :
    ∃ r', walkTree fuel n r = .ok (sym, r') ∧ Decoding cap s node root (pre ++ ds).length y r' := by
  obtain ⟨k, rfl⟩ := Nat.exists_eq_add_of_le' hfuel
  obtain ⟨m, w, hf, hm⟩ := hlead
  obtain ⟨r', hwalk, hr'⟩ := h.walkTree_follow hx hbits hf k
  refine ⟨r', hwalk.trans ?_, hr'⟩
  cases k <;> simp only [Machine.walkTree, hr'.node, hm]

theorem Decoding.walkTree_undefined (h : Decoding cap s node root pre.length y r)
    (hx : InputBreaksOff s p) (hp : 1028 ≤ p.length) {ds rest : List Bool}
    (hbits : payloadBits p = pre ++ ds) {fuel n : Nat} {sym : Byte}
    (hlead : LeadsTo node n (ds ++ rest) sym) (hrest : rest ≠ []) (hfuel : (ds ++ rest).length ≤ fuel) :
    Machine.walkTree fuel n r = .refused .undefinedByte := by
  have hpos := List.length_pos_iff.2 hrest
  rw [List.length_append] at hfuel
  obtain ⟨k, rfl⟩ : ∃ k, fuel = k + 1 + ds.length := ⟨fuel - 1 - ds.length, by omega⟩
  obtain ⟨m, hf, hlead'⟩ := hlead.split
  obtain ⟨w, left, right, hm⟩ := hlead'.internal hrest
  obtain ⟨r', hwalk, hr'⟩ :=
    h.walkTree_follow (.of_breaksOff hx) (post := []) (by simpa using hbits) hf (k + 1)
  rw [← hbits] at hr'
  simp only [hwalk, Machine.walkTree, hr'.node, hm, hr'.getBit_undefined hx hp, Flow.bind_refused]

theorem Decoding.decodeSymbol (h : Decoding cap s node root pre.length y r) (hx : StartsWith s p)
    {ds post : List Bool} (hbits : payloadBits p = pre ++ ds ++ post) {sym : Byte}
    (hsym : SymbolBits node root sym ds) :
    ∃ r', decodeSymbol r = .ok (sym, r') ∧ Decoding cap s node root (pre ++ ds).length y r' := by
  cases hsym with
  | @leaf n w hr hn hd =>
    obtain ⟨d, rfl⟩ := List.length_eq_one_iff.1 hd
    obtain ⟨r', hget, hr'⟩ := h.getBit hx (d := d) (post := post) (by simpa using hbits)
    exact ⟨r', by simp only [Machine.decodeSymbol, h.root, hr, h.node, hn, hget, Flow.bind_ok], hr'⟩
  | @path n w left right hr hn hlead hlen =>
    obtain ⟨r', hwalk, hr'⟩ := h.walkTree hx hbits hlead hlen
    exact ⟨r', by simp only [Machine.decodeSymbol, h.root, hr, h.node, hn, hwalk], hr'⟩

theorem Decoding.decodeSymbol_undefined (h : Decoding cap s node root pre.length y r)
    (hx : InputBreaksOff s p) (hp : 1028 ≤ p.length) {ds rest : List Bool}
    (hbits : payloadBits p = pre ++ ds) {sym : Byte} (hsym : SymbolBits node root sym (ds ++ rest))
    (hrest : rest ≠ []) : Machine.decodeSymbol r = .refused .undefinedByte := by
  cases hsym with
  | @leaf n w hr hn hd =>
    have hpos := List.length_pos_iff.2 hrest
    obtain rfl : ds = [] := List.eq_nil_of_length_eq_zero (by rw [List.length_append] at hd; omega)
    have hget := Decoding.getBit_undefined (r := r) (by simpa [hbits] using h) hx hp
    simp only [Machine.decodeSymbol, h.root, hr, h.node, hn, hget, Flow.bind_refused]
  | @path n w left right hr hn hlead hlen =>
    have hwalk := h.walkTree_undefined hx hp hbits hlead hrest hlen
    simp only [Machine.decodeSymbol, h.root, hr, h.node, hn, hwalk]

/-! ## The symbol loop -/

theorem Decoding.emit (h : Decoding cap s node root pre.length y r) (b : Byte)
    (hc : y.length < cap.bytes) :
    ∃ r', emit cap b r = .ok r' ∧ Decoding cap s node root pre.length (y ++ [b]) r' := by
  have hr : Reached cap s r.w.i y r := ⟨h.coding, rfl, h.wrote⟩
  obtain ⟨-, hr'⟩ := hr.emitAll (bs := [b]) (by simpa using hc)
  exact ⟨_, emit_wrote h.wrote hc, hr'.coding, h.node, h.root, h.bp, h.cursor, hr'.wrote⟩

/-- The loop decodes the symbols whose bits are defined, and is refused in the one where they break off. -/
theorem Decoding.symbols_undefined (h : Decoding cap s node root pre.length y r)
    (hx : InputBreaksOff s p) (hp : 1028 ≤ p.length) {syms : List (Byte × List Bool)}
    (hsyms : ∀ q ∈ syms, SymbolBits node root q.1 q.2) {tail rest : List Bool} {b : Byte}
    (hbits : payloadBits p = pre ++ syms.flatMap Prod.snd ++ tail)
    (hb : SymbolBits node root b (tail ++ rest)) (hrest : rest ≠ [])
    (hc : y.length + syms.length ≤ cap.bytes) {n : Nat} (hn : syms.length < n) :
    repeatTimes n (symbolPass cap) r = .refused .undefinedByte := by
  obtain ⟨n, rfl⟩ : ∃ k, n = k + 1 := ⟨n - 1, by omega⟩
  induction syms generalizing pre y r n with
  | nil =>
    rw [repeatTimes, symbolPass, h.decodeSymbol_undefined hx hp (by simpa using hbits) hb hrest]
    rfl
  | cons q syms ih =>
    simp only [List.length_cons] at hc hn
    obtain ⟨r', hdec, hr'⟩ := h.decodeSymbol (.of_breaksOff hx) (ds := q.2)
      (post := syms.flatMap Prod.snd ++ tail) (by simpa using hbits) (hsyms q (by simp))
    obtain ⟨r'', hemit, hr''⟩ := hr'.emit q.1 (by omega)
    rw [repeatTimes, symbolPass, hdec, Flow.bind_ok, hemit, Flow.bind_ok]
    obtain ⟨n, rfl⟩ : ∃ k, n = k + 1 := ⟨n - 1, by omega⟩
    exact ih hr'' (fun q hq => hsyms q (by simp [hq])) (by simpa using hbits) (by simp; omega) n (by omega)

end

/-! ## huff.dec -/

theorem readInput_defined {r : Running} {x : List Byte} {a : Nat}
    (hx : ∀ t, t < x.length → r.s.ibuf.read (a + t) = x[t]?) : readInput r a x.length = .ok x := by
  induction x generalizing a with
  | nil => rfl
  | cons b x ih =>
    have hb : r.s.ibuf.read a = some b := hx 0 (by simp)
    have hrest := ih (a := a + 1) fun t ht => by
      simpa [Nat.add_right_comm, Nat.add_assoc] using hx (t + 1) (by simpa using ht)
    rw [List.length_cons, readInput, input_some hb, Flow.bind_ok, hrest, Flow.bind_ok]

/-- `huff_dec` up to the symbol loop (R180, R181): the tree is that of the header's counts. -/
theorem huffDecode_header {cap : Cap} {s : State} {p : List Byte} (hx : StartsWith s p)
    (hp : 1028 ≤ p.length) (hn : headerSymbols p ≠ 0)
    (hroot : (buildArena (headerCounts p)).2.head? ≠ none) :
    ∃ r, Decoding cap s (buildArena (headerCounts p)).1 (buildArena (headerCounts p)).2.head? 0 [] r ∧
      huffDecode cap (startCommand s) = repeatTimes (headerSymbols p) (symbolPass cap) r := by
  have htake : (p.take Config.hdr).length = Config.hdr := by rw [List.length_take]; exact Nat.min_eq_left hp
  have hread : readInput (startCommand s) 0 Config.hdr = .ok (p.take Config.hdr) := by
    rw [← htake]
    nth_rw 2 [htake]
    refine readInput_defined fun t ht => ?_
    rw [htake] at ht
    rw [Nat.zero_add, List.getElem?_take_of_lt ht]
    exact hx.read t (by simp only [Config.hdr] at ht; omega)
  have hlen : ¬ s.inLen.toNat < Config.hdr := Nat.not_lt.2 (hp.trans hx.le)
  refine ⟨⟨(startCommand s).s,
    { buildTree { Work.init with hist := headerCounts p, n := headerSymbols p } with
      bp := 0, i := Config.hdr }⟩,
    ⟨(Coding.start cap s).work _, rfl, rfl, rfl, rfl, (Wrote.start s).of_s rfl⟩, ?_⟩
  rw [huffDecode, if_neg (by exact hlen), parseHeader, hread]
  simp only [Flow.bind_ok, fieldNumbers_header, beNumber_header, if_neg hn]
  rw [decodeSymbols, if_neg (by exact hroot)]
  rfl

/-- `huff.dec` takes the bits `ds` for `sym`, by the tree of the header of `p`. -/
def HeaderSymbolBits (p : List Byte) (sym : Byte) (ds : List Bool) : Prop :=
  SymbolBits (buildArena (headerCounts p)).1 (buildArena (headerCounts p)).2.head? sym ds

/-- `huff.dec` comes to an undefined byte in the symbol after `syms`, whose own bits are defined. -/
theorem huffDecode_undefined {cap : Cap} {s : State} {p : List Byte} (hx : InputBreaksOff s p)
    (hp : 1028 ≤ p.length) {syms : List (Byte × List Bool)} {tail rest : List Bool} {b : Byte}
    (hsyms : ∀ q ∈ syms, HeaderSymbolBits p q.1 q.2) (hb : HeaderSymbolBits p b (tail ++ rest))
    (hrest : rest ≠ []) (hbits : payloadBits p = syms.flatMap Prod.snd ++ tail)
    (hc : syms.length ≤ cap.bytes) (hn : syms.length < headerSymbols p) :
    huffDecode cap (startCommand s) = .refused .undefinedByte := by
  have hroot : (buildArena (headerCounts p)).2.head? ≠ none := by
    cases hb with
    | leaf hr => rw [hr]; simp
    | path hr => rw [hr]; simp
  obtain ⟨r, hr, he⟩ := huffDecode_header (cap := cap) (.of_breaksOff hx) hp (by omega) hroot
  rw [he]
  exact Decoding.symbols_undefined (pre := []) hr hx hp hsyms (by simpa using hbits) hb hrest
    (by simpa using hc) hn

end Sys2Proof.Machine

open Sys2Proof Sys2Proof.Machine Sys2Proof.Safety

/-- Settles O33: each coder is run up to the byte that it must read and cannot. -/
theorem undefinedInputIsRefused : Obligations.UndefinedInputIsRefused := by
  refine ⟨fun s hf hl => ⟨fun a ha h => ?_, fun a ha hlen h => ?_, fun y k hx hy hfits => ?_,
    fun ts part hx hts hfits hpart => ?_⟩, fun _ => rfl, fun cap s p b hf hl hx hp => ⟨?_, ?_⟩⟩
  · exact issueCoder_refused hf hl (huffEncode_undefined ha h)
  · exact issueCoder_refused hf hl (huffDecode_header_undefined ha hlen h)
  · exact issueCoder_refused hf hl (rle0Encode_undefined (hx.withCmd _) hy hfits)
  · exact issueCoder_refused hf hl (rle0Decode_undefined (hx.withCmd _) hts hfits hpart)
  · rintro y tail hn hc hy hbits ⟨rest, hcode⟩ htail
    have hrest : rest ≠ [] := by rintro rfl; exact htail (by simpa using hcode)
    have hb : codeOf (codesOf (headerCounts p)) b ≠ [] := by rw [← hcode]; simp [hrest]
    refine issueCoder_refused hf hl (huffDecode_undefined (hx.withCmd _) hp
      (syms := y.map fun c => (c, codeOf (codesOf (headerCounts p)) c)) ?_
      (hcode ▸ symbolBits_code hb) hrest ?_ (by simpa using hc) (by simpa using hn))
    · intro q hq
      obtain ⟨c, hcy, rfl⟩ := List.mem_map.1 hq
      exact symbolBits_code (hy c hcy)
    · rw [hbits, List.flatMap_map]; rfl
  · intro hone hn hc
    have htree := buildArena_of_one (by simp [headerCounts]) hone
    have hbit : ∀ d, HeaderSymbolBits p b [d] := fun d => by
      rw [HeaderSymbolBits, htree]; exact .leaf rfl rfl rfl
    have hlen := length_payloadBits p
    refine issueCoder_refused hf hl (huffDecode_undefined (hx.withCmd _) hp
      (syms := (payloadBits p).map fun d => (b, [d])) (tail := []) (rest := [false]) ?_
      (hbit false) (by simp) ?_ (by simpa [hlen] using hc) (by simpa [hlen] using hn))
    · intro q hq
      obtain ⟨d, -, rfl⟩ := List.mem_map.1 hq
      exact hbit d
    · rw [List.flatMap_map, List.append_nil]; simp

end

section
/-! The two decoders against the encoder (30_encoding.md R71 to R79): the spelling of every token is decoded to
it and leaves what follows, and what is decoded is spelled by the bytes consumed. The fetch then reads the
token under the cursor (41_rle0.md R116). -/

namespace Sys2Proof.Machine

open Sys2Proof.Safety

/-! ## The command word -/

theorem reservedCode_iff (op : Byte) :
    reservedCode op = true ↔ op.toNat = 0 ∨ (6 ≤ op.toNat ∧ op.toNat ≤ 0xFE) := by
  simp [reservedCode, BitVec.toNat_eq]

/-- A code is either one of the six commands or reserved (R71, R72). -/
theorem reservedCode_iff_ne (op : Byte) :
    reservedCode op = true ↔
      op ≠ 0x01#8 ∧ op ≠ 0x02#8 ∧ op ≠ 0x03#8 ∧ op ≠ 0x04#8 ∧ op ≠ 0x05#8 ∧ op ≠ 0xFF#8 := by
  have hlt := op.isLt
  simp only [reservedCode_iff, ne_eq, BitVec.toNat_eq, BitVec.toNat_ofNat]
  omega

theorem decodeCommand_of_reserved {v : Word} (h : reservedCode (opOf v) = true) :
    decodeCommand v = .reserved (opOf v) := by
  obtain ⟨h1, h2, h3, h4, h5, h6⟩ := (reservedCode_iff_ne _).1 h
  simp only [decodeCommand, if_neg h1, if_neg h2, if_neg h3, if_neg h4, if_neg h5, if_neg h6]

theorem reserved_of_decodeCommand {v : Word} {op : Byte} (h : decodeCommand v = .reserved op) :
    reservedCode (opOf v) = true := by
  by_contra hr
  simp only [reservedCode_iff_ne, not_and_or, ne_eq, not_not] at hr
  rcases hr with hr | hr | hr | hr | hr | hr <;> simp [decodeCommand, hr] at h

/-- The low byte of the word that a code is encoded as. -/
theorem opOf_setWidth (op : Byte) : opOf (op.setWidth 32) = op := by
  refine BitVec.eq_of_toNat_eq ?_
  have := op.isLt
  simp only [opOf, BitVec.toNat_setWidth]
  omega

/-! ## Tokens: decoding the encoding -/

/-- The bit-bytes and the ending of a RUN are read back, with what follows them left over; nothing can follow
an ending by the end of the input. -/
theorem readRun_spelling {bits : List Bool} {ending : RunEnd} (hwf : ending.wf bits.length = true)
    {rest : List Byte} (hrest : ending = .truncated → rest = []) :
    readRun Config.runBitsMax (bits.map bitByte ++ runTail ending ++ rest) = (bits, ending, rest) := by
  rw [List.append_assoc]
  cases ending with
  | closed => exact readRun_closed bits rest _ (RunEnd.wf_bits hwf)
  | truncated =>
    rw [hrest rfl]
    simpa [runTail] using readRun_truncated bits _ (RunEnd.wf_bits hwf)
  | badByte b =>
    simp only [RunEnd.wf, Bool.and_eq_true, decide_eq_true_eq, bne_iff_ne] at hwf
    exact readRun_badByte bits b rest _ hwf.2.1 hwf.2.2 hwf.1
  | tooLong d =>
    have hlen : bits.length = Config.runBitsMax := by simpa [RunEnd.wf] using hwf
    rw [← hlen]
    exact readRun_tooLong bits d rest

theorem encode_of_isToken {i : Instr} (hi : isToken i = true) : encode i = .token (tokenBytes i) := by
  cases i with
  | copy b => rfl
  | escLit => rfl
  | run bits ending => rfl
  | _ => cases hi

theorem isToken_of_encode {i : Instr} {bs : List Byte} (h : encode i = .token bs) :
    isToken i = true ∧ tokenBytes i = bs := by
  cases i with
  | copy b => cases h; exact ⟨rfl, rfl⟩
  | escLit => cases h; exact ⟨rfl, rfl⟩
  | run bits ending => cases h; exact ⟨rfl, rfl⟩
  | _ => cases h

/-- A token's bytes are decoded to it, and what follows is left; nothing can follow a RUN that the end of the
input cut off. -/
theorem decodeToken_tokenBytes {i : Instr} (hi : isToken i = true) (hwf : i.wf = true) {rest : List Byte}
    (hrest : ∀ bits, i = .run bits .truncated → rest = []) :
    decodeToken (tokenBytes i ++ rest) = .ok i rest := by
  cases i with
  | copy b => exact if_neg (by simpa [Instr.wf] using hwf)
  | escLit => rfl
  | run bits ending =>
    have hread := readRun_spelling (bits := bits) hwf (rest := rest) fun h => hrest bits (by rw [h])
    have hbytes : tokenBytes (.run bits ending) ++ rest =
        0x40#8 :: 0x01#8 :: (bits.map bitByte ++ runTail ending ++ rest) := rfl
    rw [hbytes, decodeToken_run, hread]
  | _ => cases hi

/-! ## Tokens: encoding what was decoded -/

/-- What is read after `40 01` is well formed. -/
theorem readRun_wf (bs : List Byte) :
    (readRun Config.runBitsMax bs).2.1.wf (readRun Config.runBitsMax bs).1.length = true := by
  obtain ⟨hlen, hbad, hlong, -, -⟩ := readRun_inv bs Config.runBitsMax
  cases hend : (readRun Config.runBitsMax bs).2.1 with
  | closed => simpa [RunEnd.wf] using hlen
  | truncated => simpa [RunEnd.wf] using hlen
  | badByte b => simpa [RunEnd.wf, hlen] using hbad b hend
  | tooLong d => simpa [RunEnd.wf] using hlong d hend

theorem wf_of_decodeToken {bs rest : List Byte} {i : Instr} (h : decodeToken bs = .ok i rest) :
    i.wf = true := by
  unfold decodeToken at h
  split at h
  · cases h
  · split at h
    · split at h
      · cases h
      · next c cs =>
        split at h
        · cases h; rfl
        · split at h
          · cases h; exact readRun_wf cs
          · cases h
    · next hb => cases h; simpa [Instr.wf] using hb

/-! ## The fetch -/

/-- The fetch answers what is decoded from the bytes ahead, unless a RUN is cut off before the end of the
input string. -/
theorem fetchToken_of_decodeToken {s : State} {a : Nat} {i : Instr} {rest : List Byte}
    (hd : decodeToken (ahead s a) = .ok i rest)
    (hend : ∀ bits, i = .run bits .truncated →
      (ahead s a).length = min longestToken (s.inLen.toNat - a)) : fetchToken s a = .token i := by
  unfold ahead at hd hend
  cases i with
  | run bits ending =>
    cases ending with
    | truncated => simp only [fetchToken, hd, hend bits rfl, if_true]
    | _ => simp only [fetchToken, hd]
  | _ => simp only [fetchToken, hd]

theorem length_tokenBytes_le {i : Instr} (hi : isToken i = true) (hwf : i.wf = true) :
    (tokenBytes i).length ≤ longestToken := by
  cases i with
  | copy b => exact (Laws.EncodeForm.copy b hwf).2.1
  | escLit => exact (Laws.EncodeForm.escLit hwf).2.1
  | run bits ending => exact (Laws.EncodeForm.run bits ending hwf).2.1
  | _ => cases hi

/-- The token whose bytes stand at address `a` is fetched; a RUN that is cut off, where the input string ends
with it. -/
theorem fetchToken_tokenBytes {s : State} {a : Nat} {i : Instr} (hi : isToken i = true) (hwf : i.wf = true)
    (hread : ∀ t, t < (tokenBytes i).length → s.ibuf.read (a + t) = (tokenBytes i)[t]?)
    (hlen : a + (tokenBytes i).length ≤ s.inLen.toNat)
    (hend : ∀ bits, i = .run bits .truncated → a + (tokenBytes i).length = s.inLen.toNat) :
    fetchToken s a = .token i := by
  have hmax := length_tokenBytes_le hi hwf
  have hu := Memory.stretch_eq s.ibuf (tokenBytes i) a hread
  obtain ⟨k, hk⟩ := Nat.exists_eq_add_of_le
    (show (tokenBytes i).length ≤ min longestToken (s.inLen.toNat - a) by omega)
  have hahead : ahead s a = tokenBytes i ++ s.ibuf.stretch (a + (tokenBytes i).length) k := by
    rw [ahead, hk, Memory.stretch_add _ _ _ _ (by rw [hu]), hu]
  have hcut : ∀ bits, i = .run bits .truncated → k = 0 := fun bits h => by
    have := hend bits h; omega
  refine fetchToken_of_decodeToken (rest := s.ibuf.stretch (a + (tokenBytes i).length) k) ?_ ?_
  · rw [hahead]
    exact decodeToken_tokenBytes hi hwf fun bits h => by rw [hcut bits h]; rfl
  · intro bits h
    rw [hahead, hk, hcut bits h, Memory.stretch, List.append_nil, Nat.add_zero]

end Sys2Proof.Machine

open Sys2Proof Sys2Proof.Machine Sys2Proof.Safety

/-- Settles O2: a command word keeps its code in the low byte, and a token's bytes are decoded to it. -/
theorem decodeInvertsEncode : Obligations.DecodeInvertsEncode := by
  intro i hwf
  have htoken : isToken i = true → decode (encode i) = .ok i [] := fun hi => by
    have hd := decodeToken_tokenBytes hi hwf (rest := []) fun _ _ => rfl
    rw [List.append_nil] at hd
    rw [encode_of_isToken hi]
    exact hd
  cases i with
  | rle0Enc => rfl
  | rle0Dec => rfl
  | huffEnc => rfl
  | huffDec => rfl
  | xchg => rfl
  | srst => rfl
  | reserved op =>
    have hop := opOf_setWidth op
    have hd : decodeCommand (op.setWidth 32) = .reserved op := by
      rw [decodeCommand_of_reserved (by rw [hop]; exact hwf), hop]
    rw [encode, decode, hd]
  | copy b => exact htoken rfl
  | escLit => exact htoken rfl
  | run bits ending => exact htoken rfl

/-- Settles O3: every ending of a RUN but the end of the input is one of its own bytes. -/
theorem tokenDecodeLeavesTheRest : Obligations.TokenDecodeLeavesTheRest := by
  intro i bs rest hwf he hne
  obtain ⟨hi, rfl⟩ := isToken_of_encode he
  exact decodeToken_tokenBytes hi hwf fun bits h => absurd h (hne bits)

/-- Settles O4, by inverting the token decoder and the reading of a RUN. -/
theorem encodeInvertsDecodeToken : Obligations.EncodeInvertsDecodeToken := by
  intro bs rest i h
  obtain ⟨hi, hbs⟩ := decodeToken_spells h
  exact ⟨wf_of_decodeToken h, hi, tokenBytes i, encode_of_isToken hi, hbs⟩

/-- Settles O13: as many bytes as a token can have stand ahead, or the input string ends with it. -/
theorem fetchReadsTheTokenUnderTheCursor : Obligations.FetchReadsTheTokenUnderTheCursor := by
  intro s a i bs hwf he hread hlen hend
  obtain ⟨hi, rfl⟩ := isToken_of_encode he
  exact fetchToken_tokenBytes hi hwf hread hlen hend

/-- Settles O1, word by word and token by token. -/
theorem specWordsDecode : Obligations.SpecWordsDecode := by
  unfold Obligations.SpecWordsDecode
  decide

/-- Settles O5: `OP` alone is looked at, and what is no command is reserved. -/
theorem commandWordIsItsLowByte : Obligations.CommandWordIsItsLowByte := by
  refine ⟨fun v w h => by rw [decodeCommand, decodeCommand, h], fun v => ?_⟩
  rw [← reservedCode_iff]
  exact ⟨fun ⟨_, h⟩ => reserved_of_decodeCommand h, fun h => ⟨_, decodeCommand_of_reserved h⟩⟩

/-- Settles O23: the issue of a reserved code raises before any length check. -/
theorem reservedCodesFault : Obligations.ReservedCodesFault :=
  ⟨fun _ h => decodeCommand_of_reserved ((reservedCode_iff _).2 h), fun _ op hf =>
    issue_of_ne (op := op) (body := fun s => .next (raiseFault .badCmd 0 s)) hf⟩

end

section
/-! The tokens that a running `rle0.dec` executes, and `rle0.dec` on strings of them (30_encoding.md R73 to
R79, 41_rle0.md R113, R116). -/

namespace Sys2Proof.Safety

open Sys2Proof.Machine

/-! ## The bits of a run length -/

theorem length_bitsOf (v m : Nat) : (bitsOf v m).length = m := by
  induction m with
  | zero => rfl
  | succ m ih => rw [bitsOf, List.length_cons, ih]

/-- The `m`-bit spelling of a number below 2^m is read as the number (R76). -/
theorem bitSum_bitsOf (v m : Nat) : bitSum (bitsOf v m) = v % 2 ^ m := by
  induction m with
  | zero => simp [bitsOf, bitSum, Nat.mod_one]
  | succ m ih =>
    rw [bitsOf, bitSum, ih, length_bitsOf, Nat.toNat_testBit, Nat.mod_pow_succ, Nat.add_comm, Nat.mul_comm]

/-- `m` and `number` of R113: k + 1 = 2^m + number with number < 2^m. -/
theorem runBits_bounds (k : Nat) : 2 ^ runBits k ≤ k + 1 ∧ k + 1 < 2 ^ (runBits k + 1) :=
  ⟨Nat.log2_self_le (by omega), Nat.lt_log2_self⟩

theorem runNumber_lt (k : Nat) : runNumber k < 2 ^ runBits k := by
  have hlt := (runBits_bounds k).2
  rw [Nat.pow_succ] at hlt
  rw [runNumber]
  omega

/-- The token written for a run of at least 6 is a RUN of `m` bits that spell `number` (R113). -/
theorem codedRun_eq_tokenBytes {k : Nat} (hk : 6 ≤ k) :
    codedRun k = tokenBytes (.run (bitsOf (runNumber k) (runBits k)) .closed) := by
  rw [codedRun, if_neg (by omega)]
  rfl

/-! ## The state a command ends in -/

/-- A command that has written `y` ends with `y` as its output string. -/
theorem finishCommand_of_wrote {cap : Cap} {op : Byte} {s : State} {y : List Byte} {r : Running}
    (hc : Coding cap { s with cmd := op } r) (hw : Wrote y r) : finishCommand r = doneWith op y s := by
  rw [hw.eq_withOutput, finishCommand, Running.withOutput, hc.same]
  rfl

end Sys2Proof.Safety

namespace Sys2Proof.Machine

open Sys2Proof.Safety

/-! ## Zeros -/

/-- `k` times `emit` with room left, whatever `OBUF` holds. -/
theorem repeatEmit_writeAll {cap : Cap} {k : Nat} {b : Byte} {r : Running}
    (hc : r.s.outLen.toNat + k ≤ cap.bytes) :
    repeatTimes k (emit cap b) r = .ok { r with s := { r.s with
      obuf := r.s.obuf.writeAll r.s.outLen.toNat (List.replicate k b)
      outLen := r.s.outLen + BitVec.ofNat 32 k } } := by
  induction k generalizing r with
  | zero => simp [repeatTimes, Memory.writeAll]
  | succ k ih =>
    have hl : r.s.outLen.toNat < cap.bytes := by omega
    have hlen := afterEmit_outLen (b := b) hl
    have hsum : r.s.outLen + 1#32 + BitVec.ofNat 32 k = r.s.outLen + BitVec.ofNat 32 (k + 1) := by
      rw [BitVec.add_assoc, ← BitVec.ofNat_add, Nat.add_comm 1 k]
    rw [repeatTimes, emit_ok hl, Flow.bind_ok, ih (by omega), hlen, List.replicate_succ, Memory.writeAll,
      ← hsum]
    rfl

/-! ## The commands that fault -/

theorem issueCoder_faults {op : Byte} {cap : Cap} {coder : Running → Flow Running} {s : State}
    {code : FaultCode} {pos : Nat} (hf : s.status ≠ .fault) (hl : s.inLen.toNat ≤ cap.bytes)
    (h : coder (startCommand { s with cmd := op }) =
      .ended (raiseFault code pos (startCommand { s with cmd := op }).s)) :
    issueCoder op cap coder s = .next (faultWith op code pos s) :=
  (issueCoder_runs hf hl).trans (congrArg endCommand h)

/-! ## The fetch on a defined input string -/

/-- The fetch sees the input string from the cursor on, as far as a token can reach. -/
theorem ahead_of_inputIs {s : State} {x z : List Byte} (hx : InputIs s (x ++ z)) :
    ahead s x.length = z.take longestToken ∧
      (ahead s x.length).length = min longestToken (s.inLen.toNat - x.length) := by
  have hlen : s.inLen.toNat - x.length = z.length := by
    rw [hx.1, List.length_append, Nat.add_sub_cancel_left]
  have htake : ahead s x.length = z.take longestToken := by
    have hu := Memory.stretch_eq s.ibuf (z.take longestToken) x.length fun t ht => by
      rw [List.length_take] at ht
      rw [hx.2 _ (by rw [List.length_append]; omega), List.getElem?_append_right (by omega),
        Nat.add_sub_cancel_left, List.getElem?_take_of_lt (by omega)]
    rwa [List.length_take, ← hlen] at hu
  exact ⟨htake, by rw [htake, List.length_take, hlen]⟩

/-- 0x40 as the last byte starts no token (R79, first row). -/
theorem fetchToken_escapeAtEnd {s : State} {x : List Byte} (hx : InputIs s (x ++ [0x40#8])) :
    fetchToken s x.length = .escape := by
  obtain ⟨htake, hlen⟩ := ahead_of_inputIs hx
  have hd : decodeToken (ahead s x.length) = .reject .escapeAtEnd := by rw [htake]; rfl
  unfold ahead at hd hlen
  simp only [fetchToken, hd, hlen, if_true]

/-- 0x40 before a byte other than 0x00 and 0x01 starts no token (R79, second row). -/
theorem fetchToken_escapeFollower {s : State} {x rest : List Byte} {b : Byte}
    (hx : InputIs s (x ++ 0x40#8 :: b :: rest)) (h0 : b ≠ 0x00#8) (h1 : b ≠ 0x01#8) :
    fetchToken s x.length = .escape := by
  have hd : decodeToken (ahead s x.length) = .reject (.escapeFollower b) := by
    rw [(ahead_of_inputIs hx).1]
    exact (if_neg h0).trans (if_neg h1)
  unfold ahead at hd
  simp only [fetchToken, hd]

/-- A RUN under the cursor is fetched, also a malformed one. -/
theorem fetchToken_run {s : State} {x rest : List Byte} {bits : List Bool} {ending : RunEnd}
    (hx : InputIs s (x ++ (tokenBytes (.run bits ending) ++ rest))) (hwf : ending.wf bits.length = true)
    (hrest : ending = .truncated → rest = []) : fetchToken s x.length = .token (.run bits ending) := by
  have hlen := hx.1
  simp only [List.length_append] at hlen
  refine fetchToken_tokenBytes rfl hwf (fun t ht => ?_) (by omega) fun bits' h => ?_
  · rw [hx.2 _ (by simp only [List.length_append]; omega), List.getElem?_append_right (by omega),
      Nat.add_sub_cancel_left, List.getElem?_append_left ht]
  · have : rest.length = 0 := by rw [hrest (Instr.run.inj h).2]; rfl
    omega

/-! ## rle0.dec -/

/-- The input string that a running command sees is the one it was started with. -/
theorem Reached.inputIs {cap : Cap} {s : State} {n : Nat} {x y : List Byte} {r : Running}
    (h : Reached cap s n y r) (hx : InputIs s x) : InputIs r.s x :=
  ⟨by rw [h.coding.inLen]; exact hx.1, by rw [h.coding.ibuf]; exact hx.2⟩

/-- `rle0.dec` completes with the meaning of a string of well-made tokens. -/
theorem rle0Decode_tokens {cap : Cap} {s : State} {ts : List Instr}
    (hx : InputIs s (ts.flatMap tokenBytes)) (hts : ∀ i ∈ ts, wellMade i = true)
    (hfits : (ts.flatMap tokenOutput).length ≤ cap.bytes) :
    ∃ r, rle0Decode cap (startCommand s) = .ok r ∧
      Reached cap s (ts.flatMap tokenBytes).length (ts.flatMap tokenOutput) r := by
  obtain ⟨r, hp, hr⟩ := rle0Dec_passes (cap := cap) (z := [])
    (by rw [List.append_nil]; exact .of_inputIs hx) hts hfits
  have hend : r.w.i = r.s.inLen.toNat := by rw [hr.cursor, hr.coding.inLen, hx.1]
  exact ⟨r, hp.done hend (by rw [hr.coding.inLen]; exact Nat.le_add_right _ _), hr⟩

/-- `rle0.dec` ends where the pass after some well-made tokens ends the command. -/
theorem rle0Decode_ended {cap : Cap} {s t : State} {ts : List Instr} {z : List Byte}
    (hx : InputIs s (ts.flatMap tokenBytes ++ z)) (hz : z ≠ []) (hts : ∀ i ∈ ts, wellMade i = true)
    (hfits : (ts.flatMap tokenOutput).length ≤ cap.bytes)
    (hpass : ∀ r, Reached cap s (ts.flatMap tokenBytes).length (ts.flatMap tokenOutput) r →
      rle0DecPass cap r = .ended t) :
    rle0Decode cap (startCommand s) = .ended t := by
  have hpos := List.length_pos_iff.2 hz
  have hlen := hx.1
  rw [List.length_append] at hlen
  obtain ⟨r, hp, hr⟩ := rle0Dec_passes (cap := cap) (.of_inputIs hx) hts hfits
  obtain ⟨fuel, hnext⟩ := hp.next (fuel := s.inLen.toNat)
    (by rw [hr.cursor, hr.coding.inLen]; omega) (by rw [hr.coding.inLen]; omega)
  rw [hpass r hr] at hnext
  exact hnext

/-- A 0x40 that starts no token raises `F_RLE0_ESC` at its address (R116). -/
theorem rle0DecPass_escape {cap : Cap} {s : State} {n : Nat} {y : List Byte} {r : Running}
    (h : Reached cap s n y r) (hfetch : fetchToken r.s n = .escape) :
    rle0DecPass cap r = .ended (raiseFault .rle0Esc n (startCommand s).s) := by
  rw [rle0DecPass, h.cursor, hfetch]
  exact h.coding.raise_eq _ _

/-- The fault that a malformed RUN of `m` bits takes whose opening 0x40 stands at address `n`
(R116, R232); a closed one takes none. -/
def runFault (n m : Nat) : RunEnd → FaultCode × Nat
  | .truncated => (.rle0Trunc, n)
  | .badByte _ => (.rle0Bit, n + 2 + m)
  | .tooLong _ => (.rle0Len, n + 2 + m)
  | .closed => (.none, 0)

theorem runToken_malformed (cap : Cap) (bits : List Bool) {ending : RunEnd} (he : ending ≠ .closed)
    (r : Running) :
    runToken cap bits ending r =
      (afterBits bits r).raise (runFault r.w.i bits.length ending).1 (runFault r.w.i bits.length ending).2 := by
  cases ending with
  | closed => exact absurd rfl he
  | truncated => rfl
  | badByte b => rfl
  | tooLong d => rfl

theorem tokenBytes_run_append (bits : List Bool) (ending : RunEnd) (rest : List Byte) :
    tokenBytes (.run bits ending) ++ rest =
      0x40#8 :: 0x01#8 :: (bits.map bitByte ++ (runTail ending ++ rest)) := by
  rw [← List.append_assoc]
  rfl

/-- `rle0.dec` comes to a malformed RUN after some well-made tokens. -/
theorem execRle0Dec_malformedRun {s : State} {ts : List Instr} {bits : List Bool} {ending : RunEnd}
    {rest : List Byte} (hf : s.status ≠ .fault) (hl : s.inLen.toNat ≤ Config.bufCap.bytes)
    (hx : InputIs s (ts.flatMap tokenBytes ++ (tokenBytes (.run bits ending) ++ rest)))
    (hts : ∀ i ∈ ts, wellMade i = true) (hfits : (ts.flatMap tokenOutput).length ≤ Config.bufCap.bytes)
    (hwf : ending.wf bits.length = true) (he : ending ≠ .closed) (hrest : ending = .truncated → rest = []) :
    exec .rle0Dec s = .next (faultWith 0x02#8
      (runFault (ts.flatMap tokenBytes).length bits.length ending).1
      (runFault (ts.flatMap tokenBytes).length bits.length ending).2 s) := by
  refine issueCoder_faults hf hl (rle0Decode_ended (s := { s with cmd := 0x02#8 }) hx
    (by simp [tokenBytes_run_append]) hts hfits fun r hr => ?_)
  have hfetch := fetchToken_run (hr.inputIs hx) hwf hrest
  have hbits : Coding Config.bufCap { s with cmd := 0x02#8 } (afterBits bits r) := hr.coding.work _
  rw [rle0DecPass, hr.cursor, hfetch, ← hr.cursor]
  exact (runToken_malformed Config.bufCap bits he r).trans (hbits.raise_eq _ _)

end Sys2Proof.Machine

open Sys2Proof Sys2Proof.Machine Sys2Proof.Safety

/-- Settles O39: the passes of the loop come to the end of the tokens, with their meanings written. -/
theorem rle0DecWritesTheMeaning : Obligations.Rle0DecWritesTheMeaning := by
  intro s ts hts hx hf hl hfits
  obtain ⟨r, hrun, hr⟩ := rle0Decode_tokens (cap := Config.bufCap) (s := { s with cmd := 0x02#8 }) hx hts hfits
  exact (issueCoder_done hf (hx.1 ▸ hl) hrun).trans
    (congrArg Host.Outcome.next (finishCommand_of_wrote hr.coding hr.wrote))

/-- Settles O40: the pass after the well-made tokens meets a 0x40 that starts no token, or a malformed RUN. -/
theorem malformedStringsFault : Obligations.MalformedStringsFault := by
  intro s ts bits b d rest hts hf hl hfits hbits
  refine ⟨fun hx => ?_, fun hx h0 h1 => ?_, fun hx => ?_, fun hx h0 h1 h2 => ?_, fun hx h31 => ?_⟩
  · exact issueCoder_faults hf hl (rle0Decode_ended hx (by simp) hts hfits fun r hr =>
      rle0DecPass_escape hr (fetchToken_escapeAtEnd (hr.inputIs hx)))
  · exact issueCoder_faults hf hl (rle0Decode_ended hx (by simp) hts hfits fun r hr =>
      rle0DecPass_escape hr (fetchToken_escapeFollower (hr.inputIs hx) h0 h1))
  · refine execRle0Dec_malformedRun (bits := bits) (ending := .truncated) (rest := []) hf hl ?_ hts hfits
      (decide_eq_true hbits) (by simp) fun _ => rfl
    rw [tokenBytes_run_append]
    simpa [runTail] using hx
  · have hb : 1 < b.toNat := by
      simp only [ne_eq, BitVec.toNat_eq, BitVec.toNat_ofNat] at h0 h1
      omega
    have hwf : (RunEnd.badByte b).wf bits.length = true := by
      simp only [RunEnd.wf, Bool.and_eq_true, decide_eq_true_eq, bne_iff_ne]
      exact ⟨hbits, hb, h2⟩
    refine execRle0Dec_malformedRun (rest := rest) hf hl ?_ hts hfits hwf (by simp) nofun
    rw [tokenBytes_run_append]
    exact hx
  · have hrun := execRle0Dec_malformedRun (bits := bits) (ending := .tooLong d) (rest := rest) hf hl
      (by rw [tokenBytes_run_append]; exact hx) hts hfits (beq_of_eq h31) (by simp) nofun
    rw [runFault, h31] at hrun
    exact hrun

/-- Settles O27: the zeros are emitted one after another, and the closing 0x40 is passed. -/
theorem runTokenEmitsItsZeros : Obligations.RunTokenEmitsItsZeros := by
  intro s w bits hw hc
  have hlt := bitSum_lt bits
  have hpow : 2 ^ (bits.length + 1) = 2 * 2 ^ bits.length := Nat.pow_succ'
  refine ⟨by omega, by omega, ?_⟩
  have hcursor : w.i + 2 + bits.length + 1 = w.i + bits.length + 3 := by omega
  refine (onRunning_some hw _).trans ?_
  rw [← runLength_eq] at hc ⊢
  rw [runToken, emitZeros, repeatEmit_writeAll (by exact hc)]
  simp only [Flow.bind_ok, endToken, suspend, afterBits, bitsNumber_eq_bitSum, hcursor]
  rfl

/-- Settles O38: `m` and `number` are within the bounds of R113, and the token's bits spell `number`. -/
theorem writtenRunTokenSpellsItsLength : Obligations.WrittenRunTokenSpellsItsLength := by
  intro k h6 hk
  obtain ⟨hlow, hhigh⟩ := runBits_bounds k
  have hnum := runNumber_lt k
  have hlen := length_bitsOf (runNumber k) (runBits k)
  have hsum : bitSum (bitsOf (runNumber k) (runBits k)) = runNumber k := by
    rw [bitSum_bitsOf, Nat.mod_eq_of_lt hnum]
  have h2 : 2 ≤ runBits k := (Nat.le_log2 (by omega)).2 (by omega)
  have h31 : runBits k ≤ 31 := Nat.le_of_lt_succ ((Nat.log2_lt (by omega)).2 (by omega))
  have hmade : wellMade (.run (bitsOf (runNumber k) (runBits k)) .closed) = true := by
    simpa [wellMade, Instr.wf, RunEnd.wf, Config.runBitsMax, hlen] using h31
  have hdec := decodeToken_wellMade hmade []
  rw [List.append_nil, ← codedRun_eq_tokenBytes h6] at hdec
  refine ⟨h2, h31, hlow, hhigh, rfl, hnum, ?_, _, hdec, hlen, hsum, ?_⟩
  · simp [codedRun_eq_tokenBytes h6, tokenBytes, encode, runBytes, runTail, hlen]
  · rw [hlen, hsum, runNumber]; omega

/-- Settles O26: one byte is emitted and the cursor moves past the token. -/
theorem copyAndEscLitComplete : Obligations.CopyAndEscLitComplete := by
  intro s w b hw hl
  have hrun : ∀ (b : Byte) (n : Nat),
      endToken ((emit Config.bufCap b ⟨s, w⟩).bind fun r => .ok (r.advance n)) = .next { s with
        obuf := s.obuf.write s.outLen.toNat b
        outLen := s.outLen + 1#32
        work := some { w with i := w.i + n } } := fun b n => by rw [emit_ok (r := ⟨s, w⟩) hl]; rfl
  exact ⟨(onRunning_some hw _).trans (hrun b 1), (onRunning_some hw _).trans (hrun _ 2)⟩

/-- Settles O28, ending by ending. -/
theorem malformedRunFaults : Obligations.MalformedRunFaults := by
  intro s w bits b d hw
  refine ⟨onRunning_some hw _, onRunning_some hw _, fun h31 => (onRunning_some hw _).trans ?_⟩
  rw [runToken_malformed _ _ (by simp), runFault, h31]
  rfl

end

section
/-! The codes of a Huffman tree (42_huffman_model.md R143 to R150, R153): the queue of the merge loop names
trees whose leaves are together the byte values that occur, the walk gives each leaf of the last tree its
path, and no path of a tree begins another. -/

namespace Sys2Proof.Safety

open Sys2Proof.Machine

/-! ## The leaves of a histogram (R143) -/

/-- The byte value of a leaf. -/
def nodeSym : Node → Byte
  | .leaf sym _ => sym
  | .internal _ _ _ => 0x00#8

theorem leavesFrom_eq (t : Nat) (cs : List Nat) :
    leavesFrom t cs = ((List.range cs.length).filter fun s => cs.getD s 0 ≠ 0).map
      fun s => Node.leaf (BitVec.ofNat 8 (t + s)) (cs.getD s 0) := by
  induction cs generalizing t with
  | nil => rfl
  | cons c cs ih =>
    have hnext : ∀ s, t + 1 + s = t + (s + 1) := fun s => by omega
    rw [leavesFrom, ih, List.length_cons, List.range_succ_eq_map, List.filter_cons, List.filter_map]
    by_cases hc : c = 0 <;> simp [hc, hnext, Function.comp_def]

/-- Step 1 of the tree builder gives the leaves of R143. -/
theorem leavesFrom_eq_leavesOf {hist : List Nat} (hlen : hist.length = 256) :
    leavesFrom 0 hist = leavesOf hist := by
  simp only [leavesFrom_eq, leavesOf, hlen, Nat.zero_add]

theorem length_leavesFrom (t : Nat) (cs : List Nat) : (leavesFrom t cs).length = leafCount cs := by
  induction cs generalizing t with
  | nil => rfl
  | cons c cs ih =>
    rw [leavesFrom, leafCount, List.filter_cons]
    by_cases hc : c = 0
    · simpa [hc, leafCount] using ih _
    · simpa [hc, leafCount] using ih _

/-- A leaf has a byte value that occurs and its count. -/
theorem mem_leavesOf {hist : List Nat} {b : Byte} {w : Nat} :
    Node.leaf b w ∈ leavesOf hist ↔ hist.getD b.toNat 0 = w ∧ w ≠ 0 := by
  simp only [leavesOf, List.mem_map, List.mem_filter, List.mem_range, Node.leaf.injEq,
    decide_eq_true_eq]
  constructor
  · rintro ⟨s, ⟨hs, hne⟩, rfl, rfl⟩
    rw [BitVec.toNat_ofNat, Nat.mod_eq_of_lt hs]
    exact ⟨rfl, hne⟩
  · rintro ⟨rfl, hne⟩
    exact ⟨b.toNat, ⟨b.isLt, hne⟩, by rw [BitVec.ofNat_toNat, BitVec.setWidth_eq], rfl⟩

theorem mem_leafSyms {hist : List Nat} {b : Byte} :
    b ∈ (leavesOf hist).map nodeSym ↔ hist.getD b.toNat 0 ≠ 0 := by
  constructor
  · intro h
    obtain ⟨n, hn, rfl⟩ := List.mem_map.1 h
    obtain ⟨s, -, rfl⟩ := List.mem_map.1 hn
    obtain ⟨hw, hne⟩ := mem_leavesOf.1 hn
    exact hw ▸ hne
  · exact fun h => List.mem_map.2 ⟨_, mem_leavesOf.2 ⟨rfl, h⟩, rfl⟩

theorem nodup_leafSyms (hist : List Nat) : ((leavesOf hist).map nodeSym).Nodup := by
  rw [leavesOf, List.map_map]
  refine (List.nodup_range.filter _).map_on fun s hs t ht h => ?_
  have hs : s < 256 := List.mem_range.1 (List.mem_filter.1 hs).1
  have ht : t < 256 := List.mem_range.1 (List.mem_filter.1 ht).1
  have h : (BitVec.ofNat 8 s).toNat = (BitVec.ofNat 8 t).toNat := congrArg BitVec.toNat h
  rw [BitVec.toNat_ofNat, BitVec.toNat_ofNat] at h
  omega

/-! ## The paths of a tree -/

/-- Byte values with the paths to their leaves. -/
abbrev Paths := List (Byte × List Bool)

/-- The paths, each behind `path`. -/
def under (path : List Bool) (cs : Paths) : Paths := cs.map fun p => (p.1, path ++ p.2)

@[simp] theorem length_under (path : List Bool) (cs : Paths) : (under path cs).length = cs.length :=
  List.length_map _

@[simp] theorem map_fst_under (path : List Bool) (cs : Paths) :
    (under path cs).map Prod.fst = cs.map Prod.fst := by simp [under]

theorem under_append (path : List Bool) (cs ds : Paths) :
    under path (cs ++ ds) = under path cs ++ under path ds := List.map_append

theorem under_under (path path' : List Bool) (cs : Paths) :
    under path (under path' cs) = under (path ++ path') cs := by simp [under]

theorem under_nil (cs : Paths) : under [] cs = cs := by simp [under]

theorem mem_under {path : List Bool} {cs : Paths} {p : Byte × List Bool} :
    p ∈ under path cs ↔ ∃ q ∈ cs, p = (q.1, path ++ q.2) := by
  simp only [under, List.mem_map, eq_comm]

/-- Node `n` is the root of a tree with the paths `cs`, its leaves from left to right; 0 goes left and 1 goes
right (R150). -/
inductive Spans (node : List Node) : Nat → Paths → Prop where
  | leaf {n w : Nat} {sym : Byte} (hn : node[n]? = some (.leaf sym w)) : Spans node n [(sym, [])]
  | internal {n w left right : Nat} {cl cr : Paths} (hn : node[n]? = some (.internal w left right))
      (hl : Spans node left cl) (hr : Spans node right cr) :
      Spans node n (under [false] cl ++ under [true] cr)

section
variable {node : List Node} {n : Nat} {cs : Paths}

/-- New nodes leave the trees as they are. -/
theorem Spans.append (h : Spans node n cs) (new : List Node) : Spans (node ++ new) n cs := by
  have hold : ∀ {n : Nat} {x : Node}, node[n]? = some x → (node ++ new)[n]? = some x := fun hn => by
    rw [List.getElem?_append_left (List.getElem?_eq_some_iff.1 hn).1, hn]
  induction h with
  | leaf hn => exact .leaf (hold hn)
  | internal hn _ _ ihl ihr => exact .internal (hold hn) ihl ihr

theorem Spans.length_pos (h : Spans node n cs) : 0 < cs.length := by
  induction h with
  | leaf => exact Nat.one_pos
  | internal _ _ _ ihl => rw [List.length_append, length_under]; omega

/-- Every path leads to the leaf of its byte value. -/
theorem Spans.leadsTo (h : Spans node n cs) {p : Byte × List Bool} (hp : p ∈ cs) :
    LeadsTo node n p.2 p.1 := by
  induction h generalizing p with
  | @leaf n w sym hn =>
    obtain rfl := List.mem_singleton.1 hp
    exact ⟨n, w, rfl, hn⟩
  | internal hn _ _ ihl ihr =>
    rcases List.mem_append.1 hp with hp | hp
    · obtain ⟨q, hq, rfl⟩ := mem_under.1 hp
      obtain ⟨m, w, hf, hm⟩ := ihl hq
      exact ⟨m, w, by simpa [follow, hn] using hf, hm⟩
    · obtain ⟨q, hq, rfl⟩ := mem_under.1 hp
      obtain ⟨m, w, hf, hm⟩ := ihr hq
      exact ⟨m, w, by simpa [follow, hn] using hf, hm⟩

/-- A path is shorter than the number of leaves: each of its nodes has a leaf to the other side. -/
theorem Spans.length_lt (h : Spans node n cs) {p : Byte × List Bool} (hp : p ∈ cs) :
    p.2.length < cs.length := by
  induction h generalizing p with
  | leaf => obtain rfl := List.mem_singleton.1 hp; exact Nat.one_pos
  | internal _ hl hr ihl ihr =>
    have hl := hl.length_pos
    have hr := hr.length_pos
    rw [List.length_append, length_under, length_under]
    rcases List.mem_append.1 hp with hp | hp
    · obtain ⟨q, hq, rfl⟩ := mem_under.1 hp
      have := ihl hq
      simp only [List.singleton_append, List.length_cons]
      omega
    · obtain ⟨q, hq, rfl⟩ := mem_under.1 hp
      have := ihr hq
      simp only [List.singleton_append, List.length_cons]
      omega

/-- In a tree of more than one leaf no path is empty. -/
theorem Spans.path_ne_nil (h : Spans node n cs) (h2 : 2 ≤ cs.length) {p : Byte × List Bool} (hp : p ∈ cs) :
    p.2 ≠ [] := by
  cases h with
  | leaf => simp at h2
  | internal =>
    rcases List.mem_append.1 hp with hp | hp
    · obtain ⟨q, -, rfl⟩ := mem_under.1 hp; exact List.cons_ne_nil _ _
    · obtain ⟨q, -, rfl⟩ := mem_under.1 hp; exact List.cons_ne_nil _ _

/-- Neither path goes through the end of the other. -/
def Diverge (p q : Byte × List Bool) : Prop := ¬ p.2 <+: q.2 ∧ ¬ q.2 <+: p.2

theorem pairwise_diverge_under (path : List Bool) (h : cs.Pairwise Diverge) :
    (under path cs).Pairwise Diverge :=
  List.pairwise_map.2 (h.imp fun h => by
    simpa only [Diverge, List.prefix_append_right_inj] using h)

/-- No path of a tree begins another: two of them part at some node (R153). -/
theorem Spans.pairwise_diverge (h : Spans node n cs) : cs.Pairwise Diverge := by
  induction h with
  | leaf => exact List.pairwise_singleton _ _
  | internal _ _ _ ihl ihr =>
    refine List.pairwise_append.2
      ⟨pairwise_diverge_under _ ihl, pairwise_diverge_under _ ihr, fun p hp q hq => ?_⟩
    obtain ⟨p, -, rfl⟩ := mem_under.1 hp
    obtain ⟨q, -, rfl⟩ := mem_under.1 hq
    simp [Diverge]

theorem Spans.eq_of_prefix (h : Spans node n cs) {p q : Byte × List Bool} (hp : p ∈ cs) (hq : q ∈ cs)
    (hpq : p.2 <+: q.2) : p = q := by
  by_contra hne
  have : Std.Symm Diverge := ⟨fun _ _ h => ⟨h.2, h.1⟩⟩
  exact (h.pairwise_diverge.forall hp hq hne).1 hpq

/-! ## The walk (R150) -/

/-- The code table with the paths set as codes, one after another. -/
def setCodes (cs : Paths) (code : List (List Bool)) : List (List Bool) :=
  cs.foldl (fun code p => code.set p.1.toNat p.2) code

/-- The walk sets every path of the tree, behind the path to its root. -/
theorem Spans.walkCodes (h : Spans node n cs) {fuel : Nat} (hfuel : cs.length ≤ fuel) (path : List Bool)
    (code : List (List Bool)) : walkCodes node fuel n path code = setCodes (under path cs) code := by
  obtain ⟨fuel, rfl⟩ : ∃ k, fuel = k + 1 := ⟨fuel - 1, by have := h.length_pos; omega⟩
  induction h generalizing fuel path code with
  | leaf hn => simp only [Machine.walkCodes, hn, under, setCodes, List.map_cons, List.map_nil,
      List.foldl_cons, List.foldl_nil, List.append_nil]
  | internal hn hl hr ihl ihr =>
    have hlpos := hl.length_pos
    have hrpos := hr.length_pos
    rw [List.length_append, length_under, length_under] at hfuel
    obtain ⟨fuel, rfl⟩ : ∃ k, fuel = k + 1 := ⟨fuel - 1, by omega⟩
    rw [Machine.walkCodes, hn]
    simp only [ihl _ _ fuel (by omega), ihr _ _ fuel (by omega), under_append, under_under, setCodes,
      List.foldl_append]

end

theorem codeOf_setCodes_of_notMem {cs : Paths} {b : Byte} (hb : b ∉ cs.map Prod.fst)
    {code : List (List Bool)} (hlen : code.length = 256) : codeOf (setCodes cs code) b = codeOf code b := by
  induction cs generalizing code with
  | nil => rfl
  | cons p cs ih =>
    simp only [List.map_cons, List.mem_cons, not_or] at hb
    exact (ih hb.2 (by rw [List.length_set, hlen])).trans
      ((codeOf_set hlen _ _ _).trans (if_neg hb.1))

/-- With distinct byte values every path is the code of its byte value. -/
theorem codeOf_setCodes {cs : Paths} (hnodup : (cs.map Prod.fst).Nodup) {p : Byte × List Bool} (hp : p ∈ cs)
    {code : List (List Bool)} (hlen : code.length = 256) : codeOf (setCodes cs code) p.1 = p.2 := by
  induction cs generalizing code with
  | nil => cases hp
  | cons q cs ih =>
    rw [List.map_cons, List.nodup_cons] at hnodup
    have hlen' : (code.set q.1.toNat q.2).length = 256 := by rw [List.length_set, hlen]
    rcases List.mem_cons.1 hp with rfl | hp
    · exact (codeOf_setCodes_of_notMem hnodup.1 hlen').trans
        ((codeOf_set hlen _ _ _).trans (if_pos rfl))
    · exact ih hnodup.2 hp hlen'

/-! ## The merge loop (R145, R146) -/

/-- The queued ids are roots of trees whose leaves have, together, the byte values `syms`. -/
def Forest (node : List Node) (q : List Nat) (syms : List Byte) : Prop :=
  ∃ css, List.Forall₂ (Spans node) q css ∧ (css.flatten.map Prod.fst).Perm syms

section
variable {node : List Node} {q q' : List Nat} {syms : List Byte}

theorem Forest.perm (h : Forest node q syms) (hq : q'.Perm q) : Forest node q' syms := by
  obtain ⟨css, hspans, hsyms⟩ := h
  obtain ⟨css', hspans', hperm⟩ := List.perm_comp_forall₂ hq hspans
  exact ⟨css', hspans', (hperm.flatten.map _).trans hsyms⟩

/-- One merge puts the trees of the two front ids below a new node. -/
theorem Forest.merge {a b w : Nat} {rest : List Nat} (h : Forest node (a :: b :: rest) syms) :
    Forest (node ++ [.internal w a b])
      (insertNode (node ++ [.internal w a b]) node.length rest) syms := by
  refine Forest.perm (q := node.length :: rest) ?_ (insertNode_perm _ _ _)
  obtain ⟨css, hspans, hsyms⟩ := h
  obtain ⟨ca, _, ha, htail, rfl⟩ := List.forall₂_cons_left_iff.1 hspans
  obtain ⟨cb, css, hb, hrest, rfl⟩ := List.forall₂_cons_left_iff.1 htail
  have hnew : (node ++ [Node.internal w a b])[node.length]? = some (.internal w a b) := by simp
  refine ⟨(under [false] ca ++ under [true] cb) :: css,
    .cons (.internal hnew (ha.append _) (hb.append _)) (hrest.imp fun _ _ h => h.append _), ?_⟩
  simpa using hsyms

theorem mergeLoop_forest (fuel : Nat) (h : Forest node q syms) :
    Forest (mergeLoop fuel node q).1 (mergeLoop fuel node q).2 syms := by
  fun_induction mergeLoop fuel node q with
  | case1 node fuel a b rest node' ih => exact ih h.merge
  | case2 => exact h

theorem length_insertNode (node : List Node) (n : Nat) (q : List Nat) :
    (insertNode node n q).length = q.length + 1 := (insertNode_perm node n q).length_eq

theorem mergeLoop_length_le_one (fuel : Nat) (hq : q.length ≤ fuel) :
    (mergeLoop fuel node q).2.length ≤ 1 := by
  fun_induction mergeLoop fuel node q with
  | case1 node fuel a b rest node' ih =>
    refine ih ?_
    rw [length_insertNode]
    simp only [List.length_cons] at hq
    omega
  | case2 fuel node q hshort =>
    match fuel, q with
    | _, [] => exact Nat.zero_le 1
    | _, [_] => exact Nat.le_refl 1
    | fuel + 1, a :: b :: rest => exact absurd rfl (hshort fuel a b rest rfl)

/-- The loop only adds internal nodes to the arena. -/
theorem mergeLoop_append (fuel : Nat) (node : List Node) (q : List Nat) :
    ∃ new, (mergeLoop fuel node q).1 = node ++ new ∧ ∀ sym w, Node.leaf sym w ∉ new := by
  fun_induction mergeLoop fuel node q with
  | case1 node fuel a b rest node' ih =>
    obtain ⟨new, he, hnew⟩ := ih
    exact ⟨_ :: new, by rw [he, List.append_assoc]; rfl, by simpa using hnew⟩
  | case2 => exact ⟨[], (List.append_nil _).symm, by simp⟩

end

/-! ## The code table of a histogram -/

/-- The initial queue: every leaf is a tree of its own (R144). -/
theorem forest_leavesOf (hist : List Nat) :
    Forest (leavesOf hist) (List.range (leavesOf hist).length) ((leavesOf hist).map nodeSym) := by
  refine ⟨(leavesOf hist).map fun n => [(nodeSym n, [])], List.forall₂_iff_get.2 ⟨by simp, ?_⟩, ?_⟩
  · intro x hx hx'
    have hx : x < (leavesOf hist).length := by simpa using hx
    obtain ⟨s, -, hs⟩ := List.mem_map.1 (List.getElem_mem hx)
    simp only [List.get_eq_getElem, List.getElem_range, List.getElem_map]
    refine .leaf (w := hist.getD s 0) ?_
    rw [List.getElem?_eq_getElem hx, ← hs]
    rfl
  · rw [← List.flatMap_def, List.map_flatMap, List.map_eq_flatMap]
    exact .refl _

/-- With at least one byte value the tree builder leaves one tree, over the byte values that occur. -/
theorem buildArena_spans {hist : List Nat} (hlen : hist.length = 256) (h1 : 1 ≤ leafCount hist) :
    ∃ root cs, (buildArena hist).2 = [root] ∧ Spans (buildArena hist).1 root cs ∧
      (cs.map Prod.fst).Perm ((leavesOf hist).map nodeSym) := by
  have hcount : (leavesOf hist).length = leafCount hist := by
    rw [← leavesFrom_eq_leavesOf hlen, length_leavesFrom]
  have hsort := sortIds_perm (leavesOf hist) (List.range (leavesOf hist).length)
  have hone : (buildArena hist).2.length ≤ 1 := by
    rw [buildArena, leavesFrom_eq_leavesOf hlen]
    exact mergeLoop_length_le_one _ (by rw [hsort.length_eq, List.length_range])
  have hforest : Forest (buildArena hist).1 (buildArena hist).2 ((leavesOf hist).map nodeSym) := by
    rw [buildArena, leavesFrom_eq_leavesOf hlen]
    exact mergeLoop_forest _ ((forest_leavesOf hist).perm hsort)
  obtain ⟨css, hspans, hsyms⟩ := hforest
  revert hone hspans
  generalize (buildArena hist).2 = q
  intro hone hspans
  match q, hspans with
  | [], .nil =>
    have := hsyms.length_eq
    simp at this
    omega
  | [root], .cons h .nil => exact ⟨root, _, rfl, h, by simpa using hsyms⟩

/-- The arena begins with the leaves, and no other node is a leaf. -/
theorem buildArena_leaves {hist : List Nat} (hlen : hist.length = 256) :
    ∃ new, (buildArena hist).1 = leavesOf hist ++ new ∧ ∀ sym w, Node.leaf sym w ∉ new := by
  rw [buildArena, leavesFrom_eq_leavesOf hlen]
  exact mergeLoop_append _ _ _

/-- A leaf of the tree has the count of its byte value. -/
theorem buildArena_leaf_weight {hist : List Nat} (hlen : hist.length = 256) {n w : Nat} {sym : Byte}
    (h : (buildArena hist).1[n]? = some (.leaf sym w)) : w = hist.getD sym.toNat 0 := by
  obtain ⟨new, he, hnew⟩ := buildArena_leaves hlen
  rw [he] at h
  rcases List.mem_append.1 (List.mem_of_getElem? h) with h | h
  · exact (mem_leavesOf.1 h).1.symm
  · exact absurd h (hnew sym w)

/-- The tree of a histogram of at least two byte values, with root `root` and paths `cs`, and its code
table. -/
structure TreeCodes (hist : List Nat) (root : Nat) (cs : Paths) : Prop where
  queue : (buildArena hist).2 = [root]
  spans : Spans (buildArena hist).1 root cs
  count : cs.length = leafCount hist
  occurs : ∀ b, b ∈ cs.map Prod.fst ↔ hist.getD b.toNat 0 ≠ 0
  code : ∀ p ∈ cs, codeOf (codesOf hist) p.1 = p.2
  noCode : ∀ b, b ∉ cs.map Prod.fst → codeOf (codesOf hist) b = []

theorem exists_treeCodes {hist : List Nat} (hlen : hist.length = 256) (h2 : 2 ≤ leafCount hist) :
    ∃ root cs, TreeCodes hist root cs := by
  obtain ⟨root, cs, hroot, hspans, hsyms⟩ := buildArena_spans hlen (by omega)
  obtain ⟨new, harena, -⟩ := buildArena_leaves hlen
  have hleaves : (leavesOf hist).length = leafCount hist := by
    rw [← leavesFrom_eq_leavesOf hlen, length_leavesFrom]
  have hcount : cs.length = leafCount hist := by
    simpa [hleaves] using hsyms.length_eq
  have hfuel : cs.length ≤ (buildArena hist).1.length := by
    rw [harena, List.length_append, hleaves]; omega
  have htable : codesOf hist = setCodes cs (List.replicate Config.nsym []) := by
    have hwalk := hspans.walkCodes hfuel [] (List.replicate Config.nsym [])
    rw [under_nil] at hwalk
    rw [codesOf, hroot, List.head?_cons, codeTable]
    cases hspans with
    | leaf => simp at hcount; omega
    | internal hn => simp only [hn, hwalk]
  have hnodup : (cs.map Prod.fst).Nodup := hsyms.nodup_iff.2 (nodup_leafSyms hist)
  have hempty : (List.replicate Config.nsym ([] : List Bool)).length = 256 := List.length_replicate
  refine ⟨root, cs, hroot, hspans, hcount, fun b => hsyms.mem_iff.trans mem_leafSyms, fun p hp => ?_,
    fun b hb => ?_⟩
  · rw [htable, codeOf_setCodes hnodup hp hempty]
  · rw [htable, codeOf_setCodes_of_notMem hb hempty, codeOf_empty]

section
variable {hist : List Nat} {root : Nat} {cs : Paths}

/-- A byte value that occurs has its path as its code. -/
theorem TreeCodes.mem (h : TreeCodes hist root cs) {b : Byte} (hb : hist.getD b.toNat 0 ≠ 0) :
    (b, codeOf (codesOf hist) b) ∈ cs := by
  obtain ⟨p, hp, rfl⟩ := List.mem_map.1 ((h.occurs b).2 hb)
  rw [h.code p hp]
  exact hp

theorem TreeCodes.code_ne_nil_iff (h : TreeCodes hist root cs) (h2 : 2 ≤ leafCount hist) (b : Byte) :
    codeOf (codesOf hist) b ≠ [] ↔ hist.getD b.toNat 0 ≠ 0 := by
  refine ⟨fun hne => ?_, fun hb => h.spans.path_ne_nil (h.count ▸ h2) (h.mem hb)⟩
  by_contra hb
  exact hne (h.noCode b fun hmem => (h.occurs b).1 hmem hb)

end

end Sys2Proof.Safety

open Sys2Proof Sys2Proof.Machine Sys2Proof.Safety

/-- Settles O48: the code table holds the paths of the one tree that the merge loop leaves. -/
theorem codesArePrefixFree : Obligations.CodesArePrefixFree := by
  intro hist hlen h2
  obtain ⟨root, cs, h⟩ := exists_treeCodes hlen h2
  have hcode := h.code_ne_nil_iff h2
  refine ⟨hcode, fun s hs => ?_, fun s => ?_, fun s t hst hs hpre => ?_⟩
  · obtain ⟨n, w, hf, hn⟩ := h.spans.leadsTo (h.mem hs)
    exact ⟨root, n, h.queue, hf, buildArena_leaf_weight hlen hn ▸ hn⟩
  · by_cases hs : codeOf (codesOf hist) s = []
    · rw [hs]; exact Nat.zero_le _
    · have hlt := h.spans.length_lt (h.mem ((hcode s).1 hs))
      rw [h.count] at hlt
      exact Nat.le_sub_one_of_lt hlt
  · have ht : codeOf (codesOf hist) t ≠ [] := fun ht => hs (List.prefix_nil.1 (ht ▸ hpre))
    exact hst (congrArg Prod.fst
      (h.spans.eq_of_prefix (h.mem ((hcode s).1 hs)) (h.mem ((hcode t).1 ht)) hpre))

end

section
/-! `huff.enc` bit by bit (43_huffman_codec.md R170, R171, R175 to R177; 20_memory.md R57): the output is the
header and the packed whole bytes of the code bits put so far, and the other bits stand in `ACC`. -/

namespace Sys2Proof.Safety

open Sys2Proof.Machine

/-! ## Packing (R57) -/

theorem packBytes_nil : packBytes [] = [] := rfl

theorem packBytes_byte {ds : List Bool} (h : ds.length = 8) (rest : List Bool) :
    packBytes (ds ++ rest) = packByte ds :: packBytes rest := by
  match ds, h with
  | [_, _, _, _, _, _, _, _], _ => rfl

theorem packBytes_short {ds : List Bool} (hne : ds ≠ []) (h : ds.length < 8) :
    packBytes ds = [packByte ds] := by
  match ds, hne, h with
  | [_], _, _ | [_, _], _, _ | [_, _, _], _, _ | [_, _, _, _], _, _ | [_, _, _, _, _], _, _
    | [_, _, _, _, _, _], _, _ | [_, _, _, _, _, _, _], _, _ => rfl

/-- Behind whole bytes packing starts afresh. -/
theorem packBytes_append {k : Nat} {full : List Bool} (h : full.length = 8 * k) (rest : List Bool) :
    packBytes (full ++ rest) = packBytes full ++ packBytes rest := by
  induction k generalizing full with
  | zero => rw [List.eq_nil_of_length_eq_zero h]; rfl
  | succ k ih =>
    have hbyte : (full.take 8).length = 8 := by rw [List.length_take]; omega
    have hdrop : (full.drop 8).length = 8 * k := by rw [List.length_drop]; omega
    have hsplit := List.take_append_drop 8 full
    rw [← hsplit, List.append_assoc, packBytes_byte hbyte, packBytes_byte hbyte, ih hdrop,
      List.cons_append]

theorem payloadOf_eq (x : List Byte) :
    payloadOf x = headerBytes (histOf x) x.length ++ packBytes (codeBits (histOf x) x) := rfl

end Sys2Proof.Safety

namespace Sys2Proof.Machine

open Sys2Proof.Safety

/-! ## The bit writer with what it has written -/

theorem Reached.emit {cap : Cap} {s : State} {n : Nat} {y : List Byte} {r : Running}
    (h : Reached cap s n y r) {b : Byte} (hc : (y ++ [b]).length ≤ cap.bytes) :
    emit cap b r = .ok (r.withOutput (y ++ [b])) ∧ Reached cap s n (y ++ [b]) (r.withOutput (y ++ [b])) :=
  ⟨emit_wrote h.wrote (by rw [List.length_append, List.length_singleton] at hc; omega), (h.emitAll hc).2⟩

/-- Behind the bytes `hd` the bits `ds` are put: the whole bytes `full` of them are written, the others,
`part`, stand in `ACC`. -/
structure PutAs (hd : List Byte) (ds full part : List Bool) (r : Running) : Prop where
  bits : ds = full ++ part
  whole : full.length = 8 * (full.length / 8)
  short : part.length < 8
  pending : Pending part r.w
  wrote : Wrote (hd ++ packBytes full) r

/-- `huff.enc`, started in `s`, with the code table `code`, stands at input address `n` and has put the bits
`ds` behind the header `hd`. -/
structure Writing (cap : Cap) (s : State) (code : List (List Bool)) (hd : List Byte) (n : Nat)
    (ds : List Bool) (r : Running) : Prop where
  coding : Coding cap s r
  code : r.w.code = code
  cursor : r.w.i = n
  put : ∃ full part, PutAs hd ds full part r

section
variable {cap : Cap} {s : State} {code : List (List Bool)} {hd : List Byte} {n : Nat} {ds : List Bool}
  {r : Running}

/-- The input cursor plays no part in what is put. -/
theorem Writing.moveTo (h : Writing cap s code hd n ds r) (i : Nat) :
    Writing cap s code hd i ds { r with w := { r.w with i := i } } := by
  obtain ⟨full, part, hput⟩ := h.put
  exact ⟨h.coding.work _, h.code, rfl, full, part, hput.bits, hput.whole, hput.short,
    ⟨hput.pending.acc, hput.pending.nacc⟩, hput.wrote.of_s rfl⟩

theorem Writing.packed (h : Writing cap s code hd n ds r) (hhd : hd.length = 1028) :
    Packed cap s code n ds.length r := by
  obtain ⟨full, part, hput⟩ := h.put
  have hwhole := hput.whole
  have hshort := hput.short
  have hlen : ds.length = full.length + part.length := by rw [hput.bits, List.length_append]
  refine ⟨h.coding, h.code, h.cursor, ?_, ?_⟩
  · rw [hput.wrote.outLen, List.length_append, hhd, length_packBytes]; omega
  · rw [hput.pending.nacc]; omega

/-- A bit that leaves the byte in `ACC` unfilled changes `ACC` and `NACC` only; one that fills it writes the
byte. -/
theorem Writing.putBit (h : Writing cap s code hd n ds r) (d : Bool)
    (hc : (hd ++ packBytes (ds ++ [d])).length ≤ cap.bytes) :
    ∃ r', putBit cap d r = .ok r' ∧ Writing cap s code hd n (ds ++ [d]) r' := by
  obtain ⟨full, part, hput⟩ := h.put
  have hbits : ds ++ [d] = full ++ (part ++ [d]) := by rw [hput.bits, List.append_assoc]
  rcases Nat.lt_or_eq_of_le (Nat.le_of_lt_succ hput.short) with hlt | h7
  · refine ⟨_, putBit_pending hput.pending hlt d, h.coding.work _, h.code, h.cursor, full, part ++ [d],
      hbits, hput.whole, by rw [List.length_append, List.length_singleton]; omega, ⟨rfl, by simp⟩, hput.wrote.of_s rfl⟩
  · have h8 : (part ++ [d]).length = 8 := by simp [h7]
    have hpack : packBytes (ds ++ [d]) = packBytes full ++ [packByte (part ++ [d])] := by
      have hlast := packBytes_byte h8 []
      rw [List.append_nil] at hlast
      rw [hbits, packBytes_append hput.whole, hlast]
      rfl
    rw [hpack, ← List.append_assoc] at hc
    have hr : Reached cap s n (hd ++ packBytes full) (r.withAcc (packByte (part ++ [d])) 7) :=
      ⟨h.coding.work _, h.cursor, hput.wrote.of_s rfl⟩
    obtain ⟨hemit, hr'⟩ := hr.emit hc
    have hwhole := hput.whole
    have hlen : (ds ++ [d]).length = full.length + 8 := by rw [hbits, List.length_append, h8]
    refine ⟨Running.withAcc _ 0#8 0, (putBit_full hput.pending h7 d).trans (congrArg (Flow.bind · _) hemit),
      hr'.coding.work _, h.code, h.cursor, ds ++ [d], [], (List.append_nil _).symm, by omega, by simp,
      ⟨packByte_nil.symm, rfl⟩, ?_⟩
    rw [hpack, ← List.append_assoc]
    exact hr'.wrote.of_s rfl

theorem Writing.putBits (h : Writing cap s code hd n ds r) (es : List Bool)
    (hc : (hd ++ packBytes (ds ++ es)).length ≤ cap.bytes) :
    ∃ r', putBits cap es r = .ok r' ∧ Writing cap s code hd n (ds ++ es) r' := by
  induction es generalizing ds r with
  | nil => exact ⟨r, rfl, by rwa [List.append_nil]⟩
  | cons e es ih =>
    have hsplit : ds ++ e :: es = ds ++ [e] ++ es := by simp
    rw [hsplit] at hc ⊢
    obtain ⟨r', hput, hr'⟩ := h.putBit e (by
      simp only [List.length_append, length_packBytes, List.length_singleton] at hc ⊢; omega)
    rw [Machine.putBits, hput]
    exact ih hr' hc

/-- `flush` writes the byte that the bits in `ACC` begin (R171). -/
theorem Writing.flush (h : Writing cap s code hd n ds r)
    (hc : (hd ++ packBytes ds).length ≤ cap.bytes) :
    ∃ r', flush cap r = .ok r' ∧ Coding cap s r' ∧ Wrote (hd ++ packBytes ds) r' := by
  obtain ⟨full, part, hput⟩ := h.put
  rw [Machine.flush, hput.pending.nacc]
  have hpack : packBytes ds = packBytes full ++ packBytes part := by
    rw [hput.bits, packBytes_append hput.whole]
  by_cases hpart : part = []
  · refine ⟨r, if_pos (by rw [hpart]; rfl), h.coding, ?_⟩
    rw [hpack, hpart, packBytes_nil, List.append_nil]
    exact hput.wrote
  · rw [if_neg (by simpa using hpart), hput.pending.acc]
    rw [hpack, packBytes_short hpart hput.short, ← List.append_assoc] at hc ⊢
    have hr : Reached cap s n (hd ++ packBytes full) r := ⟨h.coding, h.cursor, hput.wrote⟩
    obtain ⟨hemit, hr'⟩ := hr.emit hc
    rw [hemit]
    exact ⟨_, rfl, hr'.coding.work _, hr'.wrote.of_s rfl⟩

end

/-! ## huff.enc -/

/-- `huff_enc` up to the end of the header: the header is written, and no bit is put yet (R173 to R176). -/
theorem huffEncode_writesHeader {cap : Cap} {s : State} {x : List Byte} (hx : InputIs s x) :
    ∃ r, Writing cap s (codesOf (histOf x)) (headerBytes (histOf x) x.length) 0 [] r ∧
      huffEncode cap (startCommand s) =
        (scanInput x.length (packPass cap) r).bind fun r =>
          flush cap { r with w := { r.w with i := r.s.inLen.toNat } } := by
  have hcount := computeHistogram_eq (r := startCommand s) hx
  have hmodel : Reached cap s 0 []
      (modelOf { (startCommand s) with w := { Work.init with hist := histOf x } }) :=
    (Reached.start cap s).work rfl
  have hlen : (startCommand s).s.inLen.toNat = x.length := hx.1
  have hheader := length_headerBytes (histOf x) x.length (length_histOf x)
  obtain ⟨he, hr⟩ := hmodel.emitAll (bs := headerBytes (histOf x) x.length)
    (by rw [List.nil_append, hheader]; exact (cap_bounds cap).1)
  have hmade : emitHeader cap (modelOf { (startCommand s) with w := { Work.init with hist := histOf x } }) =
      emitAll cap (headerBytes (histOf x) x.length)
        (modelOf { (startCommand s) with w := { Work.init with hist := histOf x } }) := by
    rw [← hlen]; rfl
  refine ⟨Running.withAcc _ 0#8 0, ⟨hr.coding.work _, rfl, hr.cursor, [], [], rfl, rfl, by simp,
    ⟨packByte_nil.symm, rfl⟩, ?_⟩, ?_⟩
  · rw [packBytes_nil, List.append_nil]
    exact hr.wrote.of_s rfl
  · rw [huffEncode, hcount, Flow.bind_ok]
    refine (congrArg (Flow.bind · _) (hmade.trans he)).trans ?_
    rw [Flow.bind_ok, ← hlen]
    rfl

/-- The passes of PACK put the codes of the input bytes (R177). -/
theorem pack_writes {cap : Cap} {s : State} {hist : List Nat} {hd : List Byte} (hhd : hd.length = 1028)
    {r₀ : Running} {a c : List Byte} (h₀ : Writing cap s (codesOf hist) hd 0 [] r₀)
    (hx : StartsWith s (a ++ c)) (hfits : (hd ++ packBytes (codeBits hist a)).length ≤ cap.bytes) :
    ∃ r, Passes (packPass cap) r₀ r ∧ Writing cap s (codesOf hist) hd a.length (codeBits hist a) r := by
  induction a using List.reverseRecOn generalizing c with
  | nil => exact ⟨r₀, .refl, h₀⟩
  | append_singleton a b ih =>
    have hlen := hx.le
    rw [codeBits_append, codeBits_singleton] at hfits ⊢
    rw [List.append_assoc, List.singleton_append] at hx
    simp only [List.length_append, List.length_singleton] at hlen ⊢
    obtain ⟨r, hp, hr⟩ := ih hx (by
      simp only [List.length_append, length_packBytes] at hfits ⊢; omega)
    obtain ⟨r', hput, hr'⟩ := hr.putBits _ hfits
    have hpass : packPass cap r = .ok (r'.advance 1) := by rw [packPass_eq (hr.packed hhd) hx, hput]; rfl
    refine ⟨_, hp.pass ?_ hpass ?_, hr'.cursor ▸ hr'.moveTo (r'.w.i + 1)⟩
    · rw [hr.cursor, hr.coding.inLen]; omega
    · rw [hr.cursor, Running.advance_w_i, hr'.cursor]; omega

/-- `huff.enc` completes with the payload of its input string. -/
theorem huffEncode_payload {cap : Cap} {s : State} {x : List Byte} (hx : InputIs s x)
    (hfits : (payloadOf x).length ≤ cap.bytes) :
    ∃ r, huffEncode cap (startCommand s) = .ok r ∧ Coding cap s r ∧ Wrote (payloadOf x) r := by
  rw [payloadOf_eq] at hfits ⊢
  obtain ⟨r₀, h₀, he⟩ := huffEncode_writesHeader (cap := cap) hx
  obtain ⟨r, hp, hr⟩ := pack_writes (c := []) (length_headerBytes _ _ (length_histOf x)) h₀
    (by rw [List.append_nil]; exact .of_inputIs hx) hfits
  have hinLen : r.s.inLen.toNat = x.length := by rw [hr.coding.inLen, hx.1]
  have hscan := hp.done (fuel := x.length) (by rw [hr.cursor, hinLen]) (by omega)
  rw [he, hscan, Flow.bind_ok]
  exact (hr.moveTo r.s.inLen.toNat).flush hfits

end Sys2Proof.Machine

open Sys2Proof Sys2Proof.Machine Sys2Proof.Safety

/-- Settles O52: the header is written, then the packed code bits of every input byte, then what `ACC` holds. -/
theorem huffEncWritesThePayload : Obligations.HuffEncWritesThePayload := by
  intro s x hx hf hl hfits
  obtain ⟨r, hrun, hc, hw⟩ := huffEncode_payload (cap := Config.bufCap) (s := { s with cmd := 0x03#8 })
    hx hfits
  exact (issueCoder_done hf (hx.1 ▸ hl) hrun).trans
    (congrArg Host.Outcome.next (finishCommand_of_wrote hc hw))

end

section
/-! `huff.dec` over a defined payload (43_huffman_codec.md R180 to R184, 30_encoding.md R86): the symbols whose
bits the payload holds, and the ways the symbol loop ends after them. -/

namespace Sys2Proof.Machine

open Sys2Proof.Safety

/-! ## The header (R181) -/

theorem parseHeader_eq {r : Running} {p : List Byte} (hx : StartsWith r.s p) (hp : 1028 ≤ p.length) :
    parseHeader r =
      .ok { r with w := { r.w with hist := headerCounts p, n := headerSymbols p } } := by
  have htake : (p.take Config.hdr).length = Config.hdr := by
    rw [List.length_take]; exact Nat.min_eq_left hp
  have hread : readInput r 0 (p.take Config.hdr).length = .ok (p.take Config.hdr) :=
    readInput_defined fun t ht => by
      rw [htake] at ht
      rw [Nat.zero_add, List.getElem?_take_of_lt ht]
      exact hx.read t (ht.trans_le hp)
  rw [htake] at hread
  rw [parseHeader, hread, Flow.bind_ok, fieldNumbers_header, beNumber_header]

/-- The working state after the header is parsed. -/
def headerWork (p : List Byte) : Work :=
  { Work.init with hist := headerCounts p, n := headerSymbols p }

theorem huffDecode_eq (cap : Cap) {s : State} {p : List Byte} (hx : StartsWith s p)
    (hp : 1028 ≤ p.length) :
    huffDecode cap (startCommand s) =
      if headerSymbols p = 0 then .ok ⟨(startCommand s).s, headerWork p⟩
      else decodeSymbols cap ⟨(startCommand s).s, buildTree (headerWork p)⟩ := by
  have hparse := parseHeader_eq (r := startCommand s) ⟨hx.read, hx.le⟩ hp
  have hlong : ¬ (startCommand s).s.inLen.toNat < Config.hdr := Nat.not_lt.2 (hp.trans hx.le)
  rw [huffDecode, if_neg hlong, hparse]
  rfl

/-- A payload without a nonzero count has no tree (R146, R180). -/
theorem huffDecode_noTree (cap : Cap) {s : State} {p : List Byte} (hx : StartsWith s p)
    (hp : 1028 ≤ p.length) (hn : headerSymbols p ≠ 0) (hzero : ∀ c ∈ headerCounts p, c = 0) :
    huffDecode cap (startCommand s) = .ended (raiseFault .huffTree 1024 (startCommand s).s) := by
  have hroot : (buildTree (headerWork p)).root = none := by
    rw [buildTree, headerWork, buildArena, leavesFrom_zeros 0 hzero]; rfl
  rw [huffDecode_eq cap hx hp, if_neg hn, decodeSymbols, if_pos hroot]
  rfl

/-! ## The symbol loop -/

section
variable {cap : Cap} {s : State} {node : List Node} {root : Option Nat} {y : List Byte} {r : Running}
  {p : List Byte} {pre : List Bool}

/-- The loop decodes and emits the symbols whose bits come next. -/
theorem Decoding.symbols (h : Decoding cap s node root pre.length y r) (hx : StartsWith s p)
    {syms : List (Byte × List Bool)} (hsyms : ∀ q ∈ syms, SymbolBits node root q.1 q.2) {post : List Bool}
    (hbits : payloadBits p = pre ++ syms.flatMap Prod.snd ++ post)
    (hc : y.length + syms.length ≤ cap.bytes) (n : Nat) :
    ∃ r', repeatTimes (n + syms.length) (symbolPass cap) r = repeatTimes n (symbolPass cap) r' ∧
      Decoding cap s node root (pre ++ syms.flatMap Prod.snd).length (y ++ syms.map Prod.fst) r' := by
  induction syms generalizing pre y r with
  | nil => exact ⟨r, rfl, by simpa using h⟩
  | cons q syms ih =>
    rw [List.length_cons] at hc
    obtain ⟨r₁, hdec, h₁⟩ := h.decodeSymbol hx (ds := q.2) (post := syms.flatMap Prod.snd ++ post)
      (by simpa using hbits) (hsyms q (by simp))
    obtain ⟨r₂, hemit, h₂⟩ := h₁.emit q.1 (by omega)
    obtain ⟨r', hrest, h'⟩ := ih h₂ (fun q hq => hsyms q (by simp [hq])) (by simpa using hbits)
      (by simp; omega)
    refine ⟨r', ?_, by simpa using h'⟩
    rw [List.length_cons, ← Nat.add_assoc, repeatTimes, symbolPass, hdec, Flow.bind_ok, hemit,
      Flow.bind_ok, hrest]

/-- A symbol that does not fit is raised where its last bit was taken (R232). -/
theorem Decoding.symbolPass_overflow (h : Decoding cap s node root pre.length y r) (hx : StartsWith s p)
    {ds post : List Bool} (hbits : payloadBits p = pre ++ ds ++ post) {sym : Byte}
    (hsym : SymbolBits node root sym ds) (hfull : y.length = cap.bytes) :
    symbolPass cap r =
      .ended (raiseFault .outOvf (1028 + (pre ++ ds).length / 8) (startCommand s).s) := by
  obtain ⟨r', hdec, h'⟩ := h.decodeSymbol hx hbits hsym
  rw [symbolPass, hdec, Flow.bind_ok, emit_full (h'.wrote.outLen.trans hfull), h'.coding.raise_eq,
    h'.cursor]

/-! ## The end of the bits -/

/-- No bit is left (R172). -/
theorem Decoding.getBit_ended (h : Decoding cap s node root (payloadBits p).length y r)
    (hx : InputIs s p) :
    Machine.getBit r = .ended (raiseFault .huffBits p.length (startCommand s).s) := by
  have hlen : r.s.inLen.toNat = p.length := by rw [h.coding.inLen, hx.1]
  have hbp : 8 * (r.s.inLen.toNat - Config.hdr) ≤ r.w.bp := by
    rw [hlen, h.bp, length_payloadBits]; exact Nat.le_refl _
  rw [Machine.getBit, if_pos hbp, h.coding.raise_eq, hlen]

/-- The walk comes to the end of the bits above a leaf. -/
theorem Decoding.walkTree_ended (h : Decoding cap s node root pre.length y r) (hx : InputIs s p)
    {ds rest : List Bool} (hbits : payloadBits p = pre ++ ds) {fuel n : Nat} {sym : Byte}
    (hlead : LeadsTo node n (ds ++ rest) sym) (hrest : rest ≠ []) (hfuel : (ds ++ rest).length ≤ fuel) :
    Machine.walkTree fuel n r = .ended (raiseFault .huffBits p.length (startCommand s).s) := by
  have hpos := List.length_pos_iff.2 hrest
  rw [List.length_append] at hfuel
  obtain ⟨k, rfl⟩ : ∃ k, fuel = k + 1 + ds.length := ⟨fuel - 1 - ds.length, by omega⟩
  obtain ⟨m, hf, hlead'⟩ := hlead.split
  obtain ⟨w, left, right, hm⟩ := hlead'.internal hrest
  obtain ⟨r', hwalk, hr'⟩ := h.walkTree_follow (.of_inputIs hx) (post := []) (by simpa using hbits) hf (k + 1)
  rw [← hbits] at hr'
  simp only [hwalk, Machine.walkTree, hr'.node, hm, hr'.getBit_ended hx, Flow.bind_ended]

theorem Decoding.symbolPass_ended (h : Decoding cap s node root pre.length y r) (hx : InputIs s p)
    {ds rest : List Bool} (hbits : payloadBits p = pre ++ ds) {sym : Byte}
    (hsym : SymbolBits node root sym (ds ++ rest)) (hrest : rest ≠ []) :
    symbolPass cap r = .ended (raiseFault .huffBits p.length (startCommand s).s) := by
  have hdec : Machine.decodeSymbol r = .ended (raiseFault .huffBits p.length (startCommand s).s) := by
    cases hsym with
    | leaf hr hn hd =>
      have hpos := List.length_pos_iff.2 hrest
      obtain rfl : ds = [] := List.eq_nil_of_length_eq_zero (by rw [List.length_append] at hd; omega)
      have hget := Decoding.getBit_ended (r := r) (by simpa [hbits] using h) hx
      simp only [Machine.decodeSymbol, h.root, hr, h.node, hn, hget, Flow.bind_ended]
    | path hr hn hlead hlen =>
      have hwalk := h.walkTree_ended hx hbits hlead hrest hlen
      simp only [Machine.decodeSymbol, h.root, hr, h.node, hn, hwalk]
  rw [symbolPass, hdec]
  rfl

end

/-! ## huff.dec -/

theorem HeaderSymbolBits.root_ne_none {p : List Byte} {sym : Byte} {ds : List Bool}
    (h : HeaderSymbolBits p sym ds) : (buildArena (headerCounts p)).2.head? ≠ none := by
  cases h with
  | leaf hr => rw [hr]; simp
  | path hr => rw [hr]; simp

/-- `huff.dec` decodes the symbols whose bits the payload begins with, and the symbol loop goes on after
them. -/
theorem huffDecode_symbols {cap : Cap} {s : State} {p : List Byte} (hx : StartsWith s p)
    (hp : 1028 ≤ p.length) (hn : headerSymbols p ≠ 0)
    (hroot : (buildArena (headerCounts p)).2.head? ≠ none) {syms : List (Byte × List Bool)}
    (hsyms : ∀ q ∈ syms, HeaderSymbolBits p q.1 q.2) {post : List Bool}
    (hbits : payloadBits p = syms.flatMap Prod.snd ++ post) (hc : syms.length ≤ cap.bytes) {n : Nat}
    (hcount : headerSymbols p = n + syms.length) :
    ∃ r, huffDecode cap (startCommand s) = repeatTimes n (symbolPass cap) r ∧
      Decoding cap s (buildArena (headerCounts p)).1 (buildArena (headerCounts p)).2.head?
        (syms.flatMap Prod.snd).length (syms.map Prod.fst) r := by
  obtain ⟨r, hr, he⟩ := huffDecode_header (cap := cap) hx hp hn hroot
  obtain ⟨r', hloop, hr'⟩ := Decoding.symbols (pre := []) hr hx hsyms (by simpa using hbits)
    (by simpa using hc) n
  exact ⟨r', by rw [he, hcount, hloop], hr'⟩

/-- The payload asks for more symbols than fit. -/
theorem huffDecode_overflow {cap : Cap} {s : State} {p : List Byte} (hx : StartsWith s p)
    (hp : 1028 ≤ p.length) {syms : List (Byte × List Bool)} {sym : Byte} {ds post : List Bool}
    (hsyms : ∀ q ∈ syms, HeaderSymbolBits p q.1 q.2) (hsym : HeaderSymbolBits p sym ds)
    (hbits : payloadBits p = syms.flatMap Prod.snd ++ ds ++ post) (hc : syms.length = cap.bytes)
    (hn : syms.length < headerSymbols p) :
    huffDecode cap (startCommand s) = .ended (raiseFault .outOvf
      (1028 + (syms.flatMap Prod.snd ++ ds).length / 8) (startCommand s).s) := by
  obtain ⟨n, hcount⟩ : ∃ n, headerSymbols p = n + 1 + syms.length :=
    ⟨headerSymbols p - 1 - syms.length, by omega⟩
  obtain ⟨r, he, hr⟩ := huffDecode_symbols (cap := cap) hx hp (by omega) hsym.root_ne_none hsyms
    (by rw [hbits, List.append_assoc]) hc.le hcount
  rw [he, repeatTimes, hr.symbolPass_overflow hx hbits hsym (by simpa using hc)]
  rfl

/-- The bits of the payload end in or before the bits of a symbol that the count asks for. -/
theorem huffDecode_bitsEnd {cap : Cap} {s : State} {p : List Byte} (hx : InputIs s p)
    (hp : 1028 ≤ p.length) {syms : List (Byte × List Bool)} {tail rest : List Bool} {sym : Byte}
    (hsyms : ∀ q ∈ syms, HeaderSymbolBits p q.1 q.2) (hsym : HeaderSymbolBits p sym (tail ++ rest))
    (hrest : rest ≠ []) (hbits : payloadBits p = syms.flatMap Prod.snd ++ tail)
    (hc : syms.length ≤ cap.bytes) (hn : syms.length < headerSymbols p) :
    huffDecode cap (startCommand s) = .ended (raiseFault .huffBits p.length (startCommand s).s) := by
  obtain ⟨n, hcount⟩ : ∃ n, headerSymbols p = n + 1 + syms.length :=
    ⟨headerSymbols p - 1 - syms.length, by omega⟩
  obtain ⟨r, he, hr⟩ := huffDecode_symbols (cap := cap) (.of_inputIs hx) hp (by omega) hsym.root_ne_none hsyms
    hbits hc hcount
  rw [he, repeatTimes, hr.symbolPass_ended hx hbits hsym hrest]
  rfl

/-! ## Symbols by their codes -/

/-- The byte values of `y` with their codes, by the code table of the header of `p`. -/
def codedSymbols (p y : List Byte) : List (Byte × List Bool) :=
  y.map fun b => (b, codeOf (codesOf (headerCounts p)) b)

theorem length_codedSymbols (p y : List Byte) : (codedSymbols p y).length = y.length := List.length_map _

theorem codedSymbols_fst (p y : List Byte) : (codedSymbols p y).map Prod.fst = y := by
  rw [codedSymbols, List.map_map]
  exact List.map_id y

theorem codedSymbols_bits (p y : List Byte) :
    (codedSymbols p y).flatMap Prod.snd = codeBits (headerCounts p) y := by
  rw [codedSymbols, List.flatMap_map]; rfl

theorem codedSymbols_taken {p y : List Byte} (hy : ∀ b ∈ y, codeOf (codesOf (headerCounts p)) b ≠ []) :
    ∀ q ∈ codedSymbols p y, HeaderSymbolBits p q.1 q.2 := by
  intro q hq
  obtain ⟨b, hb, rfl⟩ := List.mem_map.1 hq
  exact symbolBits_code (hy b hb)

/-- `huff.dec` completes with the symbols whose codes the payload begins with. -/
theorem huffDecode_codes {cap : Cap} {s : State} {p y : List Byte} (hx : StartsWith s p)
    (hp : 1028 ≤ p.length) (hc : y.length ≤ cap.bytes) (hn : headerSymbols p = y.length)
    (hy : ∀ b ∈ y, codeOf (codesOf (headerCounts p)) b ≠ [])
    (hpre : codeBits (headerCounts p) y <+: payloadBits p) :
    ∃ r, huffDecode cap (startCommand s) = .ok r ∧ Coding cap s r ∧ Wrote y r := by
  cases y with
  | nil =>
    refine ⟨⟨(startCommand s).s, headerWork p⟩, ?_, (Coding.start cap s).work _, (Wrote.start s).of_s rfl⟩
    rw [huffDecode_eq cap hx hp, if_pos (by exact hn)]
  | cons b y =>
    obtain ⟨post, hpost⟩ := hpre
    have hsyms := codedSymbols_taken hy
    have hroot := (hsyms (b, _) List.mem_cons_self).root_ne_none
    have hlen := length_codedSymbols p (b :: y)
    obtain ⟨r, he, hr⟩ := huffDecode_symbols (cap := cap) (n := 0) hx hp (by rw [hn]; simp) hroot hsyms
      (by rw [codedSymbols_bits, hpost]) (by omega) (by omega)
    exact ⟨r, he, hr.coding, codedSymbols_fst p (b :: y) ▸ hr.wrote⟩

end Sys2Proof.Machine

open Sys2Proof Sys2Proof.Machine Sys2Proof.Safety

/-- Settles O56: the loop decodes a symbol from each code, until the count is reached or `OBUF` is full. -/
theorem huffDecWritesTheSymbols : Obligations.HuffDecWritesTheSymbols := by
  refine ⟨fun s p y hx hf hp hl hc hn hy hpre => ?_, fun _ => rfl,
    fun cap s p y hx hf hp hl hc hn hy hpre => ?_⟩
  · obtain ⟨r, hrun, hcoding, hwrote⟩ := huffDecode_codes (cap := Config.bufCap)
      (s := { s with cmd := 0x04#8 }) (.of_inputIs hx) hp hc hn hy hpre
    exact (issueCoder_done hf (hx.1 ▸ hl) hrun).trans
      (congrArg Host.Outcome.next (finishCommand_of_wrote hcoding hwrote))
  · obtain ⟨y, b, rfl⟩ := (List.eq_nil_or_concat' y).resolve_left (by rintro rfl; simp at hc)
    obtain ⟨post, hpost⟩ := hpre
    have hlen := length_codedSymbols p y
    rw [List.length_append, List.length_singleton] at hc hn
    rw [codeBits_append, codeBits_singleton, ← codedSymbols_bits p y] at hpost ⊢
    exact issueCoder_faults hf (hx.1 ▸ hl) (huffDecode_overflow (s := { s with cmd := 0x04#8 })
      (.of_inputIs hx) hp (codedSymbols_taken fun c hcy => hy c (by simp [hcy]))
      (symbolBits_code (hy b (by simp))) hpost.symm (by omega) (by omega))

/-- Settles O58: the length, the tree and the bits are looked at in this order. -/
theorem malformedPayloadsFault : Obligations.MalformedPayloadsFault := by
  intro s p hx hf hl
  have hl' : s.inLen.toNat ≤ Config.bufCap.bytes := hx.1 ▸ hl
  refine ⟨fun hshort => ?_, fun hp hn hzero => ?_, fun y tail b hp hn hc hy hbits hpre htail => ?_,
    fun b hp hone hn hc => ?_⟩
  · refine issueCoder_faults hf hl' ?_
    have hlt : s.inLen.toNat < Config.hdr := hx.1 ▸ hshort
    rw [huffDecode, if_pos (by exact hlt), ← hx.1]
    rfl
  · exact issueCoder_faults hf hl' (huffDecode_noTree _ (s := { s with cmd := 0x04#8 }) (.of_inputIs hx) hp
      (by omega) hzero)
  · obtain ⟨rest, hcode⟩ := hpre
    have hrest : rest ≠ [] := by rintro rfl; exact htail (by simpa using hcode)
    have hb : codeOf (codesOf (headerCounts p)) b ≠ [] := by rw [← hcode]; simp [hrest]
    have hlen := length_codedSymbols p y
    exact issueCoder_faults hf hl' (huffDecode_bitsEnd (s := { s with cmd := 0x04#8 }) hx hp
      (codedSymbols_taken hy) (hcode ▸ symbolBits_code hb) hrest (by rw [codedSymbols_bits, hbits])
      (by omega) (by omega))
  · have htree := buildArena_of_one (by simp [headerCounts]) hone
    have hbit : ∀ d, HeaderSymbolBits p b [d] := fun d => by
      rw [HeaderSymbolBits, htree]; exact .leaf rfl rfl rfl
    have hlen := length_payloadBits p
    refine issueCoder_faults hf hl' (huffDecode_bitsEnd (s := { s with cmd := 0x04#8 }) hx hp
      (syms := (payloadBits p).map fun d => (b, [d])) (tail := []) (rest := [false]) ?_ (hbit false)
      (by simp) ?_ (by simpa [hlen] using hc) (by simpa [hlen] using hn))
    · intro q hq
      obtain ⟨d, -, rfl⟩ := List.mem_map.1 hq
      exact hbit d
    · rw [List.flatMap_map, List.append_nil, ← List.map_eq_flatMap, List.map_id']

end

section
/-! Big-endian byte strings (40_numbercodec.md R100 to R102): a byte put before a string counts at the weight
`2 ^ (8 * length)` of the bytes behind it, so a string and the number it spells determine each other. -/

namespace Sys2Proof

theorem byteWeight_succ (k : Nat) : 2 ^ (8 * (k + 1)) = 256 * 2 ^ (8 * k) := by
  rw [Nat.mul_succ, Nat.pow_add, Nat.mul_comm]

theorem beNumber_foldl (bs : List Byte) (v : Nat) :
    bs.foldl (fun v b => v * 256 + b.toNat) v = v * 2 ^ (8 * bs.length) + beNumber bs := by
  induction bs generalizing v with
  | nil => simp [beNumber]
  | cons b bs ih =>
    rw [beNumber, List.foldl_cons, List.foldl_cons, ih, ih (0 * 256 + b.toNat), List.length_cons,
      byteWeight_succ]
    ring

theorem beNumber_cons (b : Byte) (bs : List Byte) :
    beNumber (b :: bs) = b.toNat * 2 ^ (8 * bs.length) + beNumber bs := by
  rw [beNumber, List.foldl_cons, beNumber_foldl, Nat.zero_mul, Nat.zero_add]

/-- R101: the bound of the number. -/
theorem beNumber_lt (bs : List Byte) : beNumber bs < 2 ^ (8 * bs.length) := by
  induction bs with
  | nil => simp [beNumber]
  | cons b bs ih =>
    calc beNumber (b :: bs) = b.toNat * 2 ^ (8 * bs.length) + beNumber bs := beNumber_cons b bs
      _ < b.toNat * 2 ^ (8 * bs.length) + 2 ^ (8 * bs.length) := Nat.add_lt_add_left ih _
      _ = (b.toNat + 1) * 2 ^ (8 * bs.length) := (Nat.succ_mul ..).symm
      _ ≤ 256 * 2 ^ (8 * bs.length) := Nat.mul_le_mul_right _ b.isLt
      _ = 2 ^ (8 * (b :: bs).length) := (byteWeight_succ _).symm

/-- R100: what stands above the `k` low bytes of a value vanishes. -/
theorem beBytes_mul_add (a v k : Nat) : beBytes (a * 2 ^ (8 * k) + v) k = beBytes v k := by
  induction k generalizing a with
  | zero => rfl
  | succ k ih =>
    have hhead : (a * 256 * 2 ^ (8 * k) + v) / 2 ^ (8 * k) = a * 256 + v / 2 ^ (8 * k) := by
      rw [Nat.add_comm, Nat.add_mul_div_right _ _ (Nat.two_pow_pos _), Nat.add_comm]
    have hlow : BitVec.ofNat 8 (a * 256 + v / 2 ^ (8 * k)) = BitVec.ofNat 8 (v / 2 ^ (8 * k)) :=
      BitVec.eq_of_toNat_eq (Nat.mul_add_mod_self_right ..)
    rw [byteWeight_succ, ← Nat.mul_assoc, beBytes, ih, hhead, hlow, beBytes]

/-- R102: the first round trip, at every byte count. -/
theorem beNumber_beBytes (v k : Nat) : beNumber (beBytes v k) = v % 2 ^ (8 * k) := by
  induction k with
  | zero => exact (Nat.mod_one v).symm
  | succ k ih =>
    rw [beBytes, beNumber_cons, Safety.length_beBytes, ih, BitVec.toNat_ofNat, byteWeight_succ,
      Nat.mul_comm 256, Nat.mod_mul, Nat.mul_comm, Nat.add_comm]

/-- R102: the second round trip, at every length. -/
theorem beBytes_beNumber (bs : List Byte) : beBytes (beNumber bs) bs.length = bs := by
  induction bs with
  | nil => rfl
  | cons b bs ih =>
    have hhead : (b.toNat * 2 ^ (8 * bs.length) + beNumber bs) / 2 ^ (8 * bs.length) = b.toNat := by
      rw [Nat.add_comm, Nat.add_mul_div_right _ _ (Nat.two_pow_pos _), Nat.div_eq_of_lt (beNumber_lt bs),
        Nat.zero_add]
    rw [beNumber_cons, List.length_cons, beBytes, beBytes_mul_add, ih, hhead, BitVec.ofNat_toNat,
      BitVec.setWidth_eq]

end Sys2Proof

open Sys2Proof Sys2Proof.Machine Sys2Proof.Safety

/-- Settles O6: both directions are the round trips of `beBytes` and `beNumber`, at the byte counts where
the codec has a meaning (R103). -/
theorem numberCodecContract : Obligations.NumberCodecContract := by
  refine ⟨fun v k hpos hle => ⟨beBytes v k, if_pos ⟨hpos, hle⟩, length_beBytes v k, ?_⟩,
    fun bs hpos hle => ⟨beNumber bs, if_pos ⟨hpos, hle⟩, beNumber_lt bs, ?_⟩⟩
  · rw [beDecode, length_beBytes, if_pos ⟨hpos, hle⟩, beNumber_beBytes]
  · rw [beEncode, if_pos ⟨hpos, hle⟩, beBytes_beNumber]

end

section
/-! `rle0.dec` one token at a time (41_rle0.md R116, 44_control.md R203): a step in the middle of the command is
one pass of its loop, so the steps from the start of the command come to what the loop comes to. -/

namespace Sys2Proof.Machine

open Sys2Proof.Safety

/-! ## One step is one pass -/

/-- While a command runs and no reset comes, a step is the engine's (R266). -/
theorem step_busy {s : State} (hb : s.status = .busy) (hp : ∀ rest, s.pending ≠ .reset :: rest) :
    step s = engineStep s := by
  have hr : ¬ resetComes s = true := fun h => ((resetComes_iff s).1 h).elim hp
  rw [step, transition, if_neg hr, if_pos hb]

/-- In the middle of `rle0.dec`, with input left, the engine makes one pass of the loop. -/
theorem engineStep_pass {s : State} {w : Work} (hw : s.work = some w) (hc : s.cmd = 0x02#8)
    (hi : w.i < s.inLen.toNat) : engineStep s = endToken (rle0DecPass Config.bufCap ⟨s, w⟩) := by
  simp only [engineStep, hw, hc, hi, if_true, rle0DecPass]
  cases hfetch : fetchToken s w.i with
  | token i =>
    exact (exec_token (fetchToken_inside hi.le hfetch).1 s).trans (onRunning_some hw _)
  | escape => rfl
  | undefinedByte => rfl

/-- At the end of the input, the engine ends `rle0.dec` (R204). -/
theorem engineStep_end {s : State} {w : Work} (hw : s.work = some w) (hc : s.cmd = 0x02#8)
    (hi : ¬ w.i < s.inLen.toNat) : engineStep s = .next (finishCommand ⟨s, w⟩) := by
  simp only [engineStep, hw, hc, hi, if_true, if_false]

/-! ## The working state kept between two passes -/

theorem rle0DecPass_appended (cap : Cap) (r : Running) :
    (rle0DecPass cap r).All (Appended r.s) (FaultedFrom r.s) := by
  have hr : Appended r.s r := .refl r.s r.w
  unfold rle0DecPass
  split
  · exact hr.tokenMeaning _
  · exact hr.raise (by decide) _
  · exact .refused _

/-- A pass that finds its working state in the suspended command comes to what the pass of the command that
was never suspended comes to. -/
theorem endToken_rle0DecPass_suspend (cap : Cap) (r : Running) :
    endToken (rle0DecPass cap ⟨suspend r, r.w⟩) = endToken (rle0DecPass cap r) := by
  have hsame : SameStrings r.s (suspend r) := ⟨rfl, fun _ _ => rfl, rfl, rfl⟩
  have halike := rle0DecPass_alike cap r ⟨suspend r, r.w⟩ (.mk hsame r.w)
  have h₁ := rle0DecPass_appended cap r
  have h₂ := rle0DecPass_appended cap ⟨suspend r, r.w⟩
  revert halike h₁ h₂
  generalize rle0DecPass cap r = x₁
  generalize rle0DecPass cap ⟨suspend r, r.w⟩ = x₂
  intro halike h₁ h₂
  cases halike with
  | ok h =>
    cases h with
    | @mk s₁ s₂ hs w =>
      cases h₁ with
      | ok h₁ =>
        cases h₂ with
        | ok h₂ =>
          have e₁ : s₁ = { r.s with obuf := s₁.obuf, outLen := s₁.outLen } := h₁.same
          have e₂ : s₂ = { suspend r with obuf := s₂.obuf, outLen := s₂.outLen } := h₂.same
          rw [hs.obuf, hs.outLen] at e₂
          rw [e₂, e₁]
          rfl
  | ended h =>
    cases h₁ with
    | ended h₁ =>
      cases h₂ with
      | ended h₂ =>
        obtain ⟨code₁, pos₁, -, rfl⟩ := h₁
        obtain ⟨code₂, pos₂, -, rfl⟩ := h₂
        obtain ⟨hcode, hpos⟩ := h.fault rfl
        simp only [raiseFault_fault, raiseFault_faultPos] at hcode hpos
        simp only [endToken, raiseFault, hcode, hpos, suspend]
  | refused e => rfl
  | fault e => rfl

/-! ## A pass moves the cursor on -/

theorem tokenMeaning_advances {cap : Cap} {s : State} (i : Instr) {r : Running} (h : Coding cap s r) :
    (tokenMeaning cap i r).All (fun r' => r.w.i < r'.w.i) (Faulted s) := by
  have hemit : ∀ b n, 0 < n → ((emit cap b r).bind fun r => .ok (r.advance n)).All
      (fun r' => r.w.i < r'.w.i) (Faulted s) := fun b n hn =>
    (emit_coding b r h).bind fun r' hr' => .ok (by rw [Running.advance_w_i, hr'.2]; omega)
  cases i with
  | copy b => exact hemit b 1 (by decide)
  | escLit => exact hemit _ 2 (by decide)
  | run bits ending =>
    have hbits : Coding cap s (afterBits bits r) := h.work _
    cases ending with
    | closed =>
      refine (repeatEmit_coding _ _ _ (hbits.work _)).bind fun r' hr' => .ok ?_
      simp only [hr'.2, afterBits_w_j]
      omega
    | truncated => exact hbits.raise _ _ (by decide)
    | badByte b => exact hbits.raise _ _ (by decide)
    | tooLong d => exact hbits.raise _ _ (by decide)
  | _ => exact .refused _

theorem rle0DecPass_advances {cap : Cap} {s : State} {r : Running} (h : Coding cap s r) :
    (rle0DecPass cap r).All (fun r' => r.w.i < r'.w.i) (Faulted s) := by
  unfold rle0DecPass
  split
  · exact tokenMeaning_advances _ h
  · exact h.raise _ _ (by decide)
  · exact .refused _

/-! ## The steps of the command -/

/-- A step in the middle of a running `rle0.dec`, seen from its suspended state. -/
theorem step_suspend {cap : Cap} {s : State} {r : Running} (h : Coding cap s r) (hc : s.cmd = 0x02#8)
    (hp : ∀ rest, s.pending ≠ .reset :: rest) :
    step (suspend r) =
      if r.w.i < r.s.inLen.toNat then endToken (rle0DecPass Config.bufCap r)
      else .next (finishCommand r) := by
  have hb : (suspend r).status = .busy := by rw [suspend, h.same]; rfl
  have hcmd : (suspend r).cmd = 0x02#8 := h.cmd.trans hc
  have hpend : (suspend r).pending = s.pending := h.pending
  rw [step_busy hb (by rwa [hpend])]
  split
  · next hi => rw [engineStep_pass rfl hcmd hi, endToken_rle0DecPass_suspend]
  · next hi => rw [engineStep_end rfl hcmd hi]; rfl

theorem run_succ_of_next {M : Host.Core} {s s' : M.State} (h : M.step s = .next s') (n : Nat) :
    M.run (n + 1) s = M.run n s' := by rw [Host.Core.run, h]

theorem run_one (M : Host.Core) (s : M.State) : M.run 1 s = M.step s := by
  rw [Host.Core.run]
  cases M.step s <;> rfl

/-- From a suspended `rle0.dec`, some number of steps comes to what the rest of its loop comes to. -/
theorem exists_run_suspend {s : State} (hc : s.cmd = 0x02#8) (hp : ∀ rest, s.pending ≠ .reset :: rest)
    (fuel : Nat) {r : Running} (h : Coding Config.bufCap s r) (hf : r.s.inLen.toNat ≤ fuel + r.w.i) :
    ∃ n, core.run n (suspend r) = endCommand (scanInput fuel (rle0DecPass Config.bufCap) r) := by
  have hstep := step_suspend h hc hp
  induction fuel generalizing r with
  | zero => exact ⟨1, (run_one core _).trans (hstep.trans (if_neg (by omega)))⟩
  | succ fuel ih =>
    rw [scanInput]
    by_cases hi : r.w.i < r.s.inLen.toNat
    · rw [if_pos hi] at hstep ⊢
      have hcoding := rle0DecPass_coding r h
      have hadvances := rle0DecPass_advances h
      cases hpass : rle0DecPass Config.bufCap r with
      | ok r' =>
        rw [hpass] at hstep hcoding hadvances
        cases hcoding with
        | ok hr' =>
          cases hadvances with
          | ok hi' =>
            obtain ⟨n, hn⟩ := ih hr' (by rw [hr'.inLen, ← h.inLen]; omega) (step_suspend hr' hc hp)
            exact ⟨n + 1, (run_succ_of_next (M := core) hstep n).trans hn⟩
      | _ => exact ⟨1, (run_one core _).trans (by rw [hpass] at hstep; exact hstep)⟩
    · rw [if_neg hi] at hstep ⊢
      exact ⟨1, (run_one core _).trans hstep⟩

end Sys2Proof.Machine

open Sys2Proof Sys2Proof.Machine Sys2Proof.Safety

/-- Settles O14: each step is a pass of the loop, and the cursor moves on until the passes end. -/
theorem rle0DecIsItsTokensOneByOne : Obligations.Rle0DecIsItsTokensOneByOne := by
  intro s hf hl hp
  obtain ⟨n, hn⟩ := exists_run_suspend (s := { s with cmd := 0x02#8 }) rfl hp s.inLen.toNat
    (Coding.start Config.bufCap _) (Nat.le_add_right _ _)
  exact ⟨n, hn.trans (issueCoder_runs hf hl).symm⟩

/-- Settles O12: the engine executes what it fetches. -/
theorem stepRunsTheFetchedToken : Obligations.StepRunsTheFetchedToken := by
  intro s w i hb hw hc hi hp hfetch
  have htoken := (fetchToken_inside hi.le hfetch).1
  rw [step_busy hb hp, engineStep_pass hw hc hi, rle0DecPass, hfetch, exec_token htoken, onRunning_some hw]

end

section
/-! `rle0.enc` on an input string whose coding fits, the length of the coding, and the tokens that spell it
(41_rle0.md R112, R113, R118, R123, R124). -/

namespace Sys2Proof.Safety

open Sys2Proof.Machine

/-! ## Output strings -/

theorem outputIs_doneWith (op : Byte) (s : State) {y : List Byte} (hy : y.length ≤ Config.bufCap.bytes) :
    OutputIs (doneWith op y s) y := by
  have hcap := cap_bounds Config.bufCap
  exact ⟨Nat.mod_eq_of_lt (by omega), fun a _ => Memory.read_loaded y a⟩

/-- `xchg` after a command that wrote `y` makes `y` the input string (44_control.md R206). -/
theorem execXchg_inputIs {s : State} {y : List Byte} (hf : s.status ≠ .fault)
    (hl : s.inLen.toNat ≤ Config.bufCap.bytes) (hy : OutputIs s y) :
    ∃ t, exec .xchg s = .next t ∧ t.status = .done ∧ InputIs t y :=
  ⟨exchange { s with cmd := 0x05#8 },
    (issue_of_ne hf).trans (checkLength_ok (s := { s with cmd := 0x05#8 }) hl), rfl, hy⟩

/-! ## The length of a coding -/

/-- The token of a run is shorter than twice the run. -/
theorem length_codedRun_lt {k : Nat} (hk : 1 ≤ k) : (codedRun k).length < 2 * k := by
  by_cases h : k ≤ 5
  · rw [codedRun, if_pos h, List.length_replicate]; omega
  · have hlen : (codedRun k).length = runBits k + 3 := by
      simp [codedRun_eq_tokenBytes (show 6 ≤ k by omega), tokenBytes, encode, runBytes, runTail,
        length_bitsOf]
    have hpow := (runBits_bounds k).1
    have hlt : runBits k < 2 ^ runBits k := Nat.lt_two_pow_self
    omega

/-- R124 for one group: at most twice its bytes, and exactly twice only for 0x40. -/
theorem CodedInOneGo.length_rle0Of {a u c : List Byte} (h : CodedInOneGo a u c) :
    (rle0Of u).length ≤ 2 * u.length ∧ ((rle0Of u).length = 2 * u.length ↔ ∀ b ∈ u, b = 0x40#8) := by
  rcases h with ⟨b, hb, rfl⟩ | ⟨k, hk, rfl, -, -⟩
  · rw [rle0Of_singleton hb]
    by_cases h40 : b = 0x40#8
    · simp [h40]
    · simp [h40]
  · have hlt := length_codedRun_lt hk
    rw [rle0Of_replicate, List.length_replicate]
    refine ⟨hlt.le, fun he => absurd he hlt.ne, fun hall => ?_⟩
    exact absurd (hall 0x00#8 (by simp; omega)) (by decide)

theorem length_rle0Of {x z : List Byte} (hz : Boundary x z) :
    (rle0Of x).length ≤ 2 * x.length ∧ ((rle0Of x).length = 2 * x.length ↔ ∀ b ∈ x, b = 0x40#8) := by
  induction x, z, hz using groups_induction with
  | nil => simp [rle0Of, rle0From, codedRun]
  | group a u z hz hu ih =>
    obtain ⟨hle, heq⟩ := ih
    obtain ⟨hule, hueq⟩ := hu.length_rle0Of
    rw [rle0Of_append hu.boundaries.1, List.length_append, List.length_append, List.forall_mem_append,
      ← heq, ← hueq]
    omega

/-! ## The tokens of a coding -/

/-- The well-made tokens `ts` are spelled `y` and stand for `x`. -/
structure Spells (ts : List Instr) (y x : List Byte) : Prop where
  wellMade : ∀ i ∈ ts, wellMade i = true
  bytes : ts.flatMap tokenBytes = y
  output : ts.flatMap tokenOutput = x

theorem Spells.append {ts ts' : List Instr} {y y' x x' : List Byte} (h : Spells ts y x)
    (h' : Spells ts' y' x') : Spells (ts ++ ts') (y ++ y') (x ++ x') where
  wellMade := List.forall_mem_append.2 ⟨h.wellMade, h'.wellMade⟩
  bytes := by rw [List.flatMap_append, h.bytes, h'.bytes]
  output := by rw [List.flatMap_append, h.output, h'.output]

/-- One token. -/
theorem Spells.single {i : Instr} (hi : Safety.wellMade i = true) :
    Spells [i] (tokenBytes i) (tokenOutput i) :=
  ⟨by simpa using hi, List.flatMap_singleton .., List.flatMap_singleton ..⟩

theorem exists_spells_byte {b : Byte} (hb : b ≠ 0x00#8) : ∃ ts, Spells ts (rle0Of [b]) [b] := by
  rw [rle0Of_singleton hb]
  by_cases h40 : b = 0x40#8
  · rw [if_pos h40, h40]; exact ⟨_, .single (i := .escLit) rfl⟩
  · rw [if_neg h40]; exact ⟨_, .single (i := .copy b) (bne_iff_ne.2 h40)⟩

theorem exists_spells_zeros (k : Nat) :
    ∃ ts, Spells ts (List.replicate k 0x00#8) (List.replicate k 0x00#8) := by
  induction k with
  | zero => exact ⟨[], nofun, rfl, rfl⟩
  | succ k ih =>
    obtain ⟨ts, h⟩ := ih
    exact ⟨_, (Spells.single (i := .copy 0x00#8) rfl).append h⟩

theorem exists_spells_run {k : Nat} (hk : k ≤ 2 ^ 32 - 2) :
    ∃ ts, Spells ts (codedRun k) (List.replicate k 0x00#8) := by
  by_cases h5 : k ≤ 5
  · rw [codedRun, if_pos h5]; exact exists_spells_zeros k
  · obtain ⟨-, -, -, -, -, -, -, bits, hdec, -, -, hlen⟩ := writtenRunTokenSpellsItsLength k (by omega) hk
    have hmade : wellMade (.run bits .closed) = true := wf_of_decodeToken hdec
    have hbytes : codedRun k = tokenBytes (.run bits .closed) := by
      rw [(decodeToken_spells hdec).2, List.append_nil]
    have hspells := Spells.single hmade
    rw [tokenOutput, hlen, ← hbytes] at hspells
    exact ⟨_, hspells⟩

/-- The coding of a string is a string of well-made tokens that stand for the string. -/
theorem exists_spells {x z : List Byte} (hz : Boundary x z) (hx : x.length ≤ 2 ^ 32 - 2) :
    ∃ ts, Spells ts (rle0Of x) x := by
  induction x, z, hz using groups_induction with
  | nil => exact ⟨[], nofun, rfl, rfl⟩
  | group a u z hz hu ih =>
    rw [List.length_append] at hx
    obtain ⟨ts, hts⟩ := ih (by omega)
    have hgroup : ∃ ts, Spells ts (rle0Of u) u := by
      rcases hu with ⟨b, hb, rfl⟩ | ⟨k, -, rfl, -, -⟩
      · exact exists_spells_byte hb
      · rw [List.length_replicate] at hx
        rw [rle0Of_replicate]
        exact exists_spells_run (by omega)
    obtain ⟨us, hus⟩ := hgroup
    exact ⟨ts ++ us, rle0Of_append hu.boundaries.1 ▸ hts.append hus⟩

end Sys2Proof.Safety

namespace Sys2Proof.Machine

open Sys2Proof.Safety

/-- `rle0.enc` completes with the coding of its input string. -/
theorem rle0Encode_coded {cap : Cap} {s : State} {x : List Byte} (hx : InputIs s x)
    (hfits : (rle0Of x).length ≤ cap.bytes) :
    ∃ r, rle0Encode cap (startCommand s) = .ok r ∧ Reached cap s x.length (rle0Of x) r := by
  obtain ⟨r, hp, hr⟩ := rle0Enc_passes (a := x) (z := []) (.inr (by simp))
    (by rw [List.append_nil]; exact .of_inputIs hx) (fun _ _ => hx.1) hfits
  have hend : r.w.i = r.s.inLen.toNat := by rw [hr.cursor, hr.coding.inLen, hx.1]
  exact ⟨r, hp.done hend (by rw [hr.coding.inLen]; exact Nat.le_add_right _ _), hr⟩

end Sys2Proof.Machine

open Sys2Proof Sys2Proof.Machine Sys2Proof.Safety

/-- Settles O34: the passes come to the end of the input, with the coding of every group written. -/
theorem rle0EncWritesTheCoding : Obligations.Rle0EncWritesTheCoding := by
  intro s x hx hf hl hfits
  obtain ⟨r, hrun, hr⟩ := rle0Encode_coded (cap := Config.bufCap) (s := { s with cmd := 0x01#8 }) hx hfits
  exact (issueCoder_done hf (hx.1 ▸ hl) hrun).trans
    (congrArg Host.Outcome.next (finishCommand_of_wrote hr.coding hr.wrote))

/-- Settles O41: the coding is a string of well-made tokens that stand for `x`, and `rle0.dec` writes what its
tokens stand for. -/
theorem rle0RoundTrip : Obligations.Rle0RoundTrip := by
  intro s x hx hf hl hfits
  have hcap := cap_bounds Config.bufCap
  have henc := rle0EncWritesTheCoding s x hx hf hl hfits
  have hout := outputIs_doneWith 0x01#8 s hfits
  obtain ⟨t, hxchg, hdone, hin⟩ := execXchg_inputIs (by simp [doneWith]) (hx.1 ▸ hl) hout
  obtain ⟨ts, hts⟩ := exists_spells (x := x) (z := []) (.inr (by simp)) (by omega)
  have hdec := rle0DecWritesTheMeaning t ts hts.wellMade (by rwa [hts.bytes]) (by simp [hdone])
    (by rwa [hts.bytes]) (by rwa [hts.output])
  rw [hts.output] at hdec
  exact ⟨_, t, _, henc, rfl, hout, hxchg, hin, hdec, rfl, outputIs_doneWith _ _ hl⟩

/-- Settles O36: every group at most doubles, so at most half of `BUF_CAP` fits. -/
theorem rle0EncAtMostDoubles : Obligations.Rle0EncAtMostDoubles := by
  refine ⟨fun x => length_rle0Of (z := []) (.inr (by simp)), fun s x hx hf hl => ?_⟩
  have hle := (length_rle0Of (x := x) (z := []) (.inr (by simp))).1
  exact ⟨_, rle0EncWritesTheCoding s x hx hf (by omega) (by omega), rfl,
    outputIs_doneWith _ _ (by omega)⟩

/-- Settles O37: both are codings of one run, on the two sides of `RUN_MIN`. -/
theorem runThreshold : Obligations.RunThreshold := by
  intro s hf
  have hcap := cap_bounds Config.bufCap
  have hrun : ∀ k ≤ 6, InputIs s (List.replicate k 0x00#8) →
      exec .rle0Enc s = .next (doneWith 0x01#8 (codedRun k) s) := fun k hk hx => by
    have hle := (length_rle0Of (x := List.replicate k 0x00#8) (z := []) (.inr (by simp))).1
    rw [List.length_replicate] at hle
    rw [← rle0Of_replicate]
    exact rle0EncWritesTheCoding s _ hx hf (by simp; omega) (by omega)
  have h6 : codedRun 6 = [0x40#8, 0x01#8, 0x01#8, 0x01#8, 0x40#8] := by decide
  exact ⟨hrun 5 (by decide), fun hx => h6 ▸ hrun 6 (by decide) hx⟩

end

section
/-! The Huffman model (42_huffman_model.md): the histogram (R140), the queue of the tree builder, ordered and
stable (R144, R145), the shape of the arena (R143 to R146), and code tables that are degenerate or complete
(R151 to R153). -/

namespace Sys2Proof.Safety

open Sys2Proof.Machine

/-! ## The histogram (R140) -/

/-- A list that names every member of `x` once counts each of them once. -/
theorem sum_map_count {values x : List Byte} (hnodup : values.Nodup) (hmem : ∀ b ∈ x, b ∈ values) :
    (values.map fun b => x.count b).sum = x.length := by
  rw [← List.sum_toFinset _ hnodup]
  simpa using Multiset.sum_count_eq_card (m := (x : Multiset Byte)) fun b hb =>
    List.mem_toFinset.2 (hmem b hb)

/-- The 256 counters name every byte value once. -/
theorem sum_histOf (x : List Byte) : (histOf x).sum = x.length := by
  have hnodup : ((List.range 256).map (BitVec.ofNat 8)).Nodup :=
    List.nodup_range.map_on fun s hs t ht h => by
      have h := congrArg BitVec.toNat h
      rwa [BitVec.toNat_ofNat, BitVec.toNat_ofNat, Nat.mod_eq_of_lt (List.mem_range.1 hs),
        Nat.mod_eq_of_lt (List.mem_range.1 ht)] at h
  have hmem : ∀ b : Byte, b ∈ (List.range 256).map (BitVec.ofNat 8) := fun b =>
    List.mem_map.2 ⟨b.toNat, List.mem_range.2 b.isLt, by rw [BitVec.ofNat_toNat, BitVec.setWidth_eq]⟩
  have hsum := sum_map_count hnodup fun b (_ : b ∈ x) => hmem b
  rwa [List.map_map] at hsum

/-! ## The queue (R144, R145) -/

/-- `x` may stand before `y`: it weighs less, or it weighs the same and `P` orders them. -/
def Before (node : List Node) (P : Nat → Nat → Prop) (x y : Nat) : Prop :=
  nodeWeight node x < nodeWeight node y ∨ (nodeWeight node x = nodeWeight node y ∧ P x y)

/-- The queue ascends by weight. -/
abbrev Ascending (node : List Node) (q : List Nat) : Prop :=
  q.Pairwise fun x y => nodeWeight node x ≤ nodeWeight node y

section
variable {node : List Node} {P : Nat → Nat → Prop} {n : Nat} {q : List Nat}

theorem Before.le {x y : Nat} (h : Before node P x y) : nodeWeight node x ≤ nodeWeight node y :=
  h.elim Nat.le_of_lt fun h => h.1.le

theorem insertNode_cons_of_le {x : Nat} (h : nodeWeight node x ≤ nodeWeight node n) (q : List Nat) :
    insertNode node n (x :: q) = x :: insertNode node n q := by
  simp [insertNode, h]

theorem insertNode_of_forall_lt (h : ∀ x ∈ q, nodeWeight node n < nodeWeight node x) :
    insertNode node n q = n :: q := by
  have hnone : q.filter (fun x => decide (nodeWeight node x ≤ nodeWeight node n)) = [] :=
    List.filter_eq_nil_iff.2 fun x hx => by simpa using h x hx
  rw [insertNode, hnone]
  rfl

/-- An ascending queue is cut where the weights pass that of the node, and the node goes there. -/
theorem insertNode_split (n : Nat) (hq : Ascending node q) :
    ∃ front back, q = front ++ back ∧ insertNode node n q = front ++ n :: back ∧
      (∀ x ∈ front, nodeWeight node x ≤ nodeWeight node n) ∧
      (∀ x ∈ back, nodeWeight node n < nodeWeight node x) := by
  induction q with
  | nil => exact ⟨[], [], rfl, rfl, by simp, by simp⟩
  | cons x q ih =>
    obtain ⟨hx, hq⟩ := List.pairwise_cons.1 hq
    rcases Nat.lt_or_ge (nodeWeight node n) (nodeWeight node x) with hlt | hle
    · have hall : ∀ y ∈ x :: q, nodeWeight node n < nodeWeight node y :=
        List.forall_mem_cons.2 ⟨hlt, fun y hy => hlt.trans_le (hx y hy)⟩
      exact ⟨[], x :: q, rfl, insertNode_of_forall_lt hall, by simp, hall⟩
    · obtain ⟨front, back, rfl, hinsert, hfront, hback⟩ := ih hq
      exact ⟨x :: front, back, rfl, by rw [insertNode_cons_of_le hle, hinsert]; rfl,
        List.forall_mem_cons.2 ⟨hle, hfront⟩, hback⟩

/-- A node that `P` puts behind its equals keeps the order of the queue. -/
theorem insertNode_pairwise (hq : q.Pairwise (Before node P)) (hn : ∀ x ∈ q, P x n) :
    (insertNode node n q).Pairwise (Before node P) := by
  obtain ⟨front, back, rfl, hinsert, hfront, hback⟩ := insertNode_split n (hq.imp Before.le)
  obtain ⟨hf, hb, hfb⟩ := List.pairwise_append.1 hq
  have hbehind : ∀ x ∈ front, Before node P x n := fun x hx =>
    (hfront x hx).lt_or_eq.imp_right fun he => ⟨he, hn x (List.mem_append_left _ hx)⟩
  rw [hinsert]
  exact List.pairwise_append.2 ⟨hf, List.pairwise_cons.2 ⟨fun y hy => .inl (hback y hy), hb⟩,
    fun x hx => List.forall_mem_cons.2 ⟨hbehind x hx, hfb x hx⟩⟩

theorem insertNode_ascending (n : Nat) (hq : Ascending node q) : Ascending node (insertNode node n q) :=
  (insertNode_pairwise (P := fun _ _ => True)
    (hq.imp fun h => h.lt_or_eq.imp_right fun he => ⟨he, trivial⟩) fun _ _ => trivial).imp Before.le

/-- Insertion one after another is a stable sort: ids that stand in the order `P` keep it among equals. -/
theorem sortIds_pairwise {ids : List Nat} (h : ids.Pairwise P) :
    (sortIds node ids).Pairwise (Before node P) := by
  induction ids using List.reverseRecOn with
  | nil => exact List.Pairwise.nil
  | append_singleton ids x ih =>
    obtain ⟨hids, -, hx⟩ := List.pairwise_append.1 h
    rw [sortIds, List.foldl_append, List.foldl_cons, List.foldl_nil]
    refine insertNode_pairwise (ih hids) fun y hy => ?_
    exact hx y ((sortIds_perm node ids).mem_iff.1 hy) x (List.mem_singleton_self x)

end

theorem leafSym_eq {node : List Node} {x : Nat} (hx : x < node.length) :
    leafSym node x = (nodeSym node[x]).toNat := by
  rw [leafSym, List.getElem?_eq_getElem hx]
  cases node[x] <;> rfl

/-- The leaves stand in ascending byte value (R143). -/
theorem pairwise_leafSym (hist : List Nat) :
    (List.range (leavesOf hist).length).Pairwise
      fun x y => leafSym (leavesOf hist) x < leafSym (leavesOf hist) y := by
  have hsyms : (leavesOf hist).Pairwise fun m n => (nodeSym m).toNat < (nodeSym n).toNat := by
    refine List.pairwise_map.2 ((List.pairwise_lt_range.filter _).imp_of_mem fun {s t} hs ht h => ?_)
    have hs : s < 256 := List.mem_range.1 (List.mem_filter.1 hs).1
    have ht : t < 256 := List.mem_range.1 (List.mem_filter.1 ht).1
    simpa [nodeSym, Nat.mod_eq_of_lt hs, Nat.mod_eq_of_lt ht] using h
  refine List.pairwise_lt_range.imp_of_mem fun {x y} hx hy h => ?_
  rw [leafSym_eq (List.mem_range.1 hx), leafSym_eq (List.mem_range.1 hy)]
  exact List.pairwise_iff_getElem.1 hsyms x y _ _ h

/-- Step 2 of the tree builder gives the initial queue of R144. -/
theorem initialQueue_sortIds (hist : List Nat) :
    InitialQueue (leavesOf hist) (sortIds (leavesOf hist) (List.range (leavesOf hist).length)) :=
  ⟨sortIds_perm _ _, sortIds_pairwise (pairwise_leafSym hist)⟩

/-! ## The merge loop (R145, R146) -/

/-- The arena `node` and the queue `q` in the middle of the merge loop over the leaves `leaves`: the ids in
the queue name nodes, each once, and they ascend by weight; every merge so far has made one node of two ids;
behind the leaves stand internal nodes over earlier ones; an id alone in the queue is the newest. -/
structure Merging (leaves node : List Node) (q : List Nat) : Prop where
  valid : ∀ x ∈ q, x < node.length
  nodup : q.Nodup
  ascending : Ascending node q
  count : node.length + q.length = 2 * leaves.length
  newest : ∀ n, q = [n] → n + 1 = node.length
  prefixed : leaves <+: node
  internals : ∀ id, leaves.length ≤ id → id < node.length → ∃ l r,
    node[id]? = some (.internal (nodeWeight node l + nodeWeight node r) l r) ∧ l < id ∧ r < id ∧ l ≠ r

section
variable {leaves node : List Node} {q : List Nat}

theorem Merging.initial (leaves : List Node) :
    Merging leaves leaves (sortIds leaves (List.range leaves.length)) where
  valid x hx := List.mem_range.1 ((sortIds_perm _ _).mem_iff.1 hx)
  nodup := (sortIds_perm _ _).nodup_iff.2 List.nodup_range
  ascending := (sortIds_pairwise (P := (· < ·)) List.pairwise_lt_range).imp Before.le
  count := by rw [(sortIds_perm _ _).length_eq, List.length_range]; omega
  newest n hn := by
    have hperm := sortIds_perm leaves (List.range leaves.length)
    rw [hn] at hperm
    have hlen := hperm.length_eq
    have hmem : n < leaves.length := List.mem_range.1 (hperm.mem_iff.1 (List.mem_singleton_self n))
    rw [List.length_singleton, List.length_range] at hlen
    omega
  prefixed := List.prefix_refl leaves
  internals id hle hlt := absurd hlt (Nat.not_lt.2 hle)

/-- A new node changes no weight in the queue. -/
theorem ascending_append (hv : ∀ x ∈ q, x < node.length) (h : Ascending node q) (new : List Node) :
    Ascending (node ++ new) q :=
  h.imp_of_mem fun hx hy h => by
    rwa [nodeWeight_append_of_lt (hv _ hx), nodeWeight_append_of_lt (hv _ hy)]

/-- The arena after the merge of `a` and `b` (R145). -/
def mergeNode (node : List Node) (a b : Nat) : List Node :=
  node ++ [.internal (nodeWeight node a + nodeWeight node b) a b]

/-- One pass of the merge loop. -/
theorem Merging.merge {a b : Nat} {rest : List Nat} (h : Merging leaves node (a :: b :: rest)) :
    Merging leaves (mergeNode node a b) (insertNode (mergeNode node a b) node.length rest) := by
  obtain ⟨hva, hvb, hvalid⟩ : a < node.length ∧ b < node.length ∧ ∀ x ∈ rest, x < node.length := by
    simpa using h.valid
  obtain ⟨hab, hnodup⟩ : a ≠ b ∧ rest.Nodup := by
    have := h.nodup
    simp only [List.nodup_cons, List.mem_cons, not_or] at this
    exact ⟨this.1.1, this.2.2⟩
  have hlen : (mergeNode node a b).length = node.length + 1 := List.length_append
  have hperm := insertNode_perm (mergeNode node a b) node.length rest
  have hweight : ∀ x < node.length, nodeWeight (mergeNode node a b) x = nodeWeight node x :=
    fun x hx => nodeWeight_append_of_lt hx
  refine ⟨fun x hx => ?_, ?_, ?_, ?_, fun n hn => ?_, h.prefixed.trans (List.prefix_append _ _),
    fun id hle hlt => ?_⟩
  · rw [hlen]
    rcases List.mem_cons.1 (hperm.mem_iff.1 hx) with rfl | hx
    · omega
    · exact Nat.lt_succ_of_lt (hvalid x hx)
  · exact hperm.nodup_iff.2 (List.nodup_cons.2 ⟨fun hx => (hvalid _ hx).false, hnodup⟩)
  · exact insertNode_ascending _
      (ascending_append hvalid h.ascending.of_cons.of_cons _)
  · have hcount := h.count
    rw [List.length_cons, List.length_cons] at hcount
    rw [hlen, hperm.length_eq, List.length_cons]; omega
  · rw [hn] at hperm
    have hnew : node.length = n :=
      List.mem_singleton.1 (hperm.mem_iff.2 List.mem_cons_self)
    rw [hlen, hnew]
  · rw [hlen] at hlt
    rcases Nat.lt_succ_iff_lt_or_eq.1 hlt with hold | hnew
    · obtain ⟨l, r, hn, hl, hr, hne⟩ := h.internals id hle hold
      refine ⟨l, r, ?_, hl, hr, hne⟩
      rw [hweight l (hl.trans hold), hweight r (hr.trans hold), mergeNode,
        List.getElem?_append_left hold, hn]
    · refine ⟨a, b, ?_, hnew ▸ hva, hnew ▸ hvb, hab⟩
      rw [hnew, hweight a hva, hweight b hvb, mergeNode, List.getElem?_concat_length]

theorem Merging.mergeLoop (h : Merging leaves node q) (fuel : Nat) :
    Merging leaves (mergeLoop fuel node q).1 (mergeLoop fuel node q).2 := by
  fun_induction Machine.mergeLoop fuel node q with
  | case1 node fuel a b rest node' ih => exact ih h.merge
  | case2 => exact h

/-- With a pass for every queued id the loop does the steps 3 and 4. -/
theorem Merging.mergesTo (h : Merging leaves node q) {fuel : Nat} (hfuel : q.length ≤ fuel) :
    MergesTo node q (Machine.mergeLoop fuel node q).1 (Machine.mergeLoop fuel node q).2.head? := by
  fun_induction Machine.mergeLoop fuel node q with
  | case1 fuel node a b rest node' ih =>
    have hvalid : ∀ x ∈ rest, x < node.length := fun x hx => h.valid x (by simp [hx])
    have hrest : Ascending node' rest :=
      ascending_append hvalid h.ascending.of_cons.of_cons _
    have hnew : nodeWeight node' node.length = nodeWeight node a + nodeWeight node b :=
      nodeWeight_append_new _ _
    obtain ⟨front, back, rfl, hinsert, hfront, hback⟩ := insertNode_split node.length hrest
    have ih := ih h.merge (by rw [length_insertNode]; simpa using hfuel)
    rw [hinsert] at ih ⊢
    refine .merge (fun x hx => ?_) (fun x hx => ?_) ih
    · rw [← hnew, ← nodeWeight_append_of_lt (hvalid x (List.mem_append_left _ hx))]
      exact hfront x hx
    · rw [← hnew, ← nodeWeight_append_of_lt (hvalid x (List.mem_append_right _ hx))]
      exact hback x hx
  | case2 fuel node q hshort =>
    match fuel, q with
    | _, [] => exact .empty node
    | _, [n] => exact .root node n
    | fuel + 1, a :: b :: rest => exact absurd rfl (hshort fuel a b rest rfl)

end

/-- Steps 1 and 2 of the tree builder give the leaves of R143 and their queue. -/
theorem buildArena_eq {hist : List Nat} (hlen : hist.length = 256) :
    buildArena hist = mergeLoop (leavesOf hist).length (leavesOf hist)
      (sortIds (leavesOf hist) (List.range (leavesOf hist).length)) := by
  rw [buildArena, leavesFrom_eq_leavesOf hlen]

theorem length_leavesOf {hist : List Nat} (hlen : hist.length = 256) :
    (leavesOf hist).length = leafCount hist := by
  rw [← leavesFrom_eq_leavesOf hlen, length_leavesFrom]

/-- Without counts there is no node and no root (R146). -/
theorem buildArena_of_none {hist : List Nat} (h : ∀ c ∈ hist, c = 0) : buildArena hist = ([], []) := by
  rw [buildArena, leavesFrom_zeros 0 h]
  rfl

theorem eq_zero_of_leafCount {hist : List Nat} (h : leafCount hist = 0) : ∀ c ∈ hist, c = 0 := by
  simpa [leafCount] using h

/-- Where the merge loop ends the arena has 2L − 1 nodes and the root is the last. -/
theorem buildArena_merged {hist : List Nat} (hlen : hist.length = 256) (h1 : 1 ≤ leafCount hist) :
    (buildArena hist).1.length = 2 * leafCount hist - 1 ∧
      (buildArena hist).2 = [2 * leafCount hist - 2] ∧
      Merging (leavesOf hist) (buildArena hist).1 (buildArena hist).2 := by
  have h : Merging (leavesOf hist) (buildArena hist).1 (buildArena hist).2 := by
    rw [buildArena_eq hlen]; exact (Merging.initial _).mergeLoop _
  obtain ⟨root, -, hroot, -, -⟩ := buildArena_spans hlen h1
  have hcount := h.count
  have hnewest := h.newest root hroot
  rw [hroot, List.length_singleton, length_leavesOf hlen] at hcount
  have hlast : root = 2 * leafCount hist - 2 := by omega
  exact ⟨by omega, hlast ▸ hroot, h⟩

/-! ## Code tables (R151 to R153) -/

/-- Every bit string that is long enough starts with a path of the tree (R153): its bits lead down to a
leaf. -/
theorem Spans.exists_prefix {node : List Node} {n : Nat} {cs : Paths} (h : Spans node n cs)
    {ds : List Bool} (hds : cs.length ≤ ds.length + 1) : ∃ p ∈ cs, p.2 <+: ds := by
  induction h generalizing ds with
  | leaf => exact ⟨_, List.mem_singleton_self _, List.nil_prefix⟩
  | internal _ hl hr ihl ihr =>
    have hlpos := hl.length_pos
    have hrpos := hr.length_pos
    rw [List.length_append, length_under, length_under] at hds
    match ds with
    | [] => simp at hds; omega
    | false :: ds =>
      obtain ⟨p, hp, hpre⟩ := ihl (ds := ds) (by rw [List.length_cons] at hds; omega)
      exact ⟨(p.1, [false] ++ p.2), List.mem_append_left _ (mem_under.2 ⟨p, hp, rfl⟩),
        List.cons_prefix_cons.2 ⟨rfl, hpre⟩⟩
    | true :: ds =>
      obtain ⟨p, hp, hpre⟩ := ihr (ds := ds) (by rw [List.length_cons] at hds; omega)
      exact ⟨(p.1, [true] ++ p.2), List.mem_append_right _ (mem_under.2 ⟨p, hp, rfl⟩),
        List.cons_prefix_cons.2 ⟨rfl, hpre⟩⟩

theorem leafCount_le (hist : List Nat) : leafCount hist ≤ hist.length := List.length_filter_le _ _

/-- One byte value gets the code 0 (R151). -/
theorem codesOf_of_one {hist : List Nat} {b : Byte} (hlen : hist.length = 256)
    (h : ∀ c : Byte, hist.getD c.toNat 0 ≠ 0 ↔ c = b) :
    codesOf hist = (List.replicate Config.nsym []).set b.toNat [false] := by
  rw [codesOf, buildArena_of_one hlen h]
  rfl

/-- No byte value gets no code (R152). -/
theorem codesOf_of_none {hist : List Nat} (h : ∀ c ∈ hist, c = 0) :
    codesOf hist = List.replicate Config.nsym [] := by
  rw [codesOf, buildArena_of_none h]
  rfl

end Sys2Proof.Safety

open Sys2Proof Sys2Proof.Machine Sys2Proof.Safety

/-- Settles O42: the input bytes are counted one by one, and each adds 1 to one counter. -/
theorem histogramCounts : Obligations.HistogramCounts :=
  fun _ x hx => ⟨computeHistogram_eq hx, sum_histOf x⟩

/-- Settles O44: the queue is cut where its weights pass that of the node. -/
theorem insertionKeepsTheQueueAscending : Obligations.InsertionKeepsTheQueueAscending := by
  intro node n q hq
  obtain ⟨front, back, hsplit, hinsert, hfront, hback⟩ := insertNode_split n hq
  exact ⟨front, back, hsplit, hinsert, hfront, hback, insertNode_ascending n hq⟩

/-- Settles O43: `Merging` holds of the leaves and their queue, and every pass of the merge loop keeps it. -/
theorem treeShape : Obligations.TreeShape := by
  intro w hlen
  refine ⟨initialQueue_sortIds w.hist, ?_, rfl, fun h0 => ?_, fun h1 => ?_⟩
  · have hmerges := (Merging.initial (leavesOf w.hist)).mergesTo
      (fuel := (leavesOf w.hist).length) (by rw [(sortIds_perm _ _).length_eq, List.length_range])
    rwa [← buildArena_eq hlen] at hmerges
  · rw [buildTree, buildArena_of_none (eq_zero_of_leafCount h0)]
    exact ⟨rfl, rfl⟩
  · obtain ⟨hnodes, hqueue, h⟩ := buildArena_merged hlen h1
    have hleaves := length_leavesOf hlen
    refine ⟨hnodes, congrArg List.head? hqueue, ?_, fun id hle hlt => ?_⟩
    · rw [← hleaves]
      exact (List.prefix_iff_eq_take.1 h.prefixed).symm
    · exact h.internals id (hleaves ▸ hle) (hnodes ▸ hlt)

/-- Settles O47: the tree is one leaf, or there is none. -/
theorem degenerateCodeTables : Obligations.DegenerateCodeTables := by
  refine fun hist s hlen => ⟨fun hone => ?_, fun hnone => ?_⟩
  · have hcode : ∀ b, codeOf (codesOf hist) b = if b = s then [false] else [] := fun b => by
      rw [codesOf_of_one hlen hone, codeOf_set (codesLead_empty [] 0).length, codeOf_empty]
    exact ⟨(hcode s).trans (if_pos rfl), fun b hb => (hcode b).trans (if_neg hb)⟩
  · have hzero : ∀ c ∈ hist, c = 0 := fun c hc => by
      obtain ⟨t, ht, rfl⟩ := List.mem_iff_getElem.1 hc
      have hsmall : t < 2 ^ 8 := ht.trans_eq hlen
      have := hnone (BitVec.ofNat 8 t)
      rwa [BitVec.toNat_ofNat, Nat.mod_eq_of_lt hsmall, List.getD_eq_getElem _ _ ht] at this
    rw [codesOf_of_none hzero, codeOf_empty]

/-- Settles O49: the bits lead from the root to a leaf, and a tree of at most 256 leaves is at most 255
deep. -/
theorem codesAreComplete : Obligations.CodesAreComplete := by
  intro hist ds hlen h2 hds
  obtain ⟨root, cs, h⟩ := exists_treeCodes hlen h2
  have hcount := leafCount_le hist
  obtain ⟨p, hp, hpre⟩ := h.spans.exists_prefix (ds := ds) (by rw [h.count]; omega)
  have hne := h.spans.path_ne_nil (h.count ▸ h2) hp
  rw [← h.code p hp] at hne hpre
  exact ⟨p.1, hne, hpre⟩

/-- Settles O46, by evaluation of the arena and of the walk over it. -/
theorem abracadabraTree : Obligations.AbracadabraTree := by
  intro w hw
  have harena : buildArena w.hist = ([.leaf 0x61#8 5, .leaf 0x62#8 2, .leaf 0x63#8 1, .leaf 0x64#8 1,
      .leaf 0x72#8 2, .internal 2 2 3, .internal 4 1 4, .internal 6 5 6, .internal 11 0 7], [8]) := by
    rw [hw]; decide +kernel
  have hcode : (deriveCodes (buildTree w)).code = codesOf w.hist := rfl
  refine ⟨congrArg Prod.fst harena, congrArg (fun t => t.2.head?) harena, ?_⟩
  rw [hcode, codesOf, harena]
  decide +kernel

end

section
/-! The Huffman codec on whole strings (43_huffman_codec.md R172, R177, R183, R185 to R187): the bits of a
packed byte string, the codes of the byte values that occur, and what `huff.dec` makes of the payload of
`huff.enc`. -/

namespace Sys2Proof.Safety

open Sys2Proof.Machine

/-! ## The bits of packed bytes (R57) -/

theorem byteBits_eq_map (b : Byte) : byteBits b = (List.range 8).map fun k => b.getLsbD (7 - k) := rfl

theorem getD_byteBits (b : Byte) {k : Nat} (hk : k < 8) :
    (byteBits b).getD k false = b.getLsbD (7 - k) := by
  simp [byteBits_eq_map, List.getD_eq_getElem?_getD, hk]

/-- A packed byte holds the bits that were packed. -/
theorem prefix_byteBits_packByte {ds : List Bool} (hds : ds.length ≤ 8) :
    ds <+: byteBits (packByte ds) := by
  rw [List.prefix_iff_getElem?]
  intro k hk
  have hbit := getLsbD_packByte hds (j := 7 - k) (by omega)
  rw [Nat.sub_sub_self (by omega), List.getD_eq_getElem _ _ hk] at hbit
  rw [byteBits_eq_map, List.getElem?_map, List.getElem?_range (by omega), Option.map_some, hbit]

theorem byteBits_packByte {ds : List Bool} (hds : ds.length = 8) : byteBits (packByte ds) = ds :=
  ((prefix_byteBits_packByte hds.le).eq_of_length hds).symm

/-- Packed bits are read back in their order; only padding follows them (R84). -/
theorem prefix_bits_packBytes (ds : List Bool) : ds <+: (packBytes ds).flatMap byteBits := by
  rcases Nat.lt_or_ge ds.length 8 with hshort | hlong
  · by_cases hne : ds = []
    · exact hne ▸ List.nil_prefix
    · rw [packBytes_short hne hshort, List.flatMap_singleton]
      exact prefix_byteBits_packByte hshort.le
  · have hbyte : (ds.take 8).length = 8 := List.length_take_of_le hlong
    have hpack := packBytes_byte hbyte (ds.drop 8)
    have hrest := prefix_bits_packBytes (ds.drop 8)
    rw [List.take_append_drop] at hpack
    rw [hpack, List.flatMap_cons, byteBits_packByte hbyte]
    nth_rw 1 [← List.take_append_drop 8 ds]
    exact (List.prefix_append_right_inj _).2 hrest
termination_by ds.length
decreasing_by rw [List.length_drop]; omega

/-! ## The codes of the byte values that occur (R150, R151) -/

/-- With one leaf, the byte value that occurs is the only one. -/
theorem only_of_leafCount_one {hist : List Nat} (hlen : hist.length = 256) (h1 : leafCount hist = 1)
    {b : Byte} (hb : hist.getD b.toNat 0 ≠ 0) (c : Byte) : hist.getD c.toNat 0 ≠ 0 ↔ c = b := by
  have hone : ((leavesOf hist).map nodeSym).length = 1 := by
    rw [List.length_map, length_leavesOf hlen, h1]
  obtain ⟨a, ha⟩ := List.length_eq_one_iff.1 hone
  rw [← mem_leafSyms, ha, List.mem_singleton] at hb ⊢
  rw [hb]

/-- The code of a byte value that occurs has 1 to 255 bits (R87, R151). -/
theorem length_code_bounds {hist : List Nat} (hlen : hist.length = 256) {b : Byte}
    (hb : hist.getD b.toNat 0 ≠ 0) :
    1 ≤ (codeOf (codesOf hist) b).length ∧ (codeOf (codesOf hist) b).length ≤ 255 := by
  rcases Nat.lt_trichotomy (leafCount hist) 1 with h0 | h1 | h2
  · have hmem := mem_leafSyms.2 hb
    have hnone : leavesOf hist = [] :=
      List.eq_nil_of_length_eq_zero (by rw [length_leavesOf hlen]; omega)
    rw [hnone] at hmem
    exact absurd hmem List.not_mem_nil
  · have hcode := ((degenerateCodeTables hist b hlen).1 (only_of_leafCount_one hlen h1 hb)).1
    simp [hcode]
  · obtain ⟨hoccurs, -, hmax, -⟩ := codesArePrefixFree hist hlen h2
    have hleaves := leafCount_le hist
    have hle := hmax b
    exact ⟨List.length_pos_iff.2 ((hoccurs b).2 hb), by omega⟩

theorem getD_histOf (x : List Byte) (b : Byte) : (histOf x).getD b.toNat 0 = x.count b := by
  have hb : b.toNat < 256 := b.isLt
  simp [histOf, List.getD_eq_getElem?_getD, hb]

/-- The codes of a string whose byte values all occur: 1 to 255 bits for each byte (R187). -/
theorem length_codeBits_bounds {hist : List Nat} (hlen : hist.length = 256) {x : List Byte}
    (hx : ∀ b ∈ x, hist.getD b.toNat 0 ≠ 0) :
    x.length ≤ (codeBits hist x).length ∧ (codeBits hist x).length ≤ 255 * x.length := by
  induction x with
  | nil => exact ⟨Nat.le_refl _, Nat.le_refl _⟩
  | cons b x ih =>
    obtain ⟨hmin, hmax⟩ := ih fun c hc => hx c (List.mem_cons_of_mem b hc)
    obtain ⟨hpos, hle⟩ := length_code_bounds hlen (hx b List.mem_cons_self)
    have hsplit : codeBits hist (b :: x) = codeOf (codesOf hist) b ++ codeBits hist x := rfl
    rw [hsplit, List.length_append, List.length_cons]
    omega

theorem histOf_ne_zero {x : List Byte} {b : Byte} (hb : b ∈ x) : (histOf x).getD b.toNat 0 ≠ 0 := by
  rw [getD_histOf]; exact (List.count_pos_iff.2 hb).ne'

/-! ## The payload read back (R80 to R84) -/

theorem headerCounts_payloadOf {x : List Byte} (hx : x.length < 2 ^ 32) :
    headerCounts (payloadOf x) = histOf x := by
  rw [payloadOf_eq]
  refine headerCounts_header _ _ _ (length_histOf x) fun c hc => ?_
  obtain ⟨s, -, rfl⟩ := List.mem_map.1 hc
  exact List.count_le_length.trans_lt hx

theorem headerSymbols_payloadOf {x : List Byte} (hx : x.length < 2 ^ 32) :
    headerSymbols (payloadOf x) = x.length := by
  rw [payloadOf_eq]
  exact headerSymbols_header _ _ _ (length_histOf x) hx

theorem codeBits_prefix_payloadBits (x : List Byte) :
    codeBits (histOf x) x <+: payloadBits (payloadOf x) := by
  rw [payloadOf_eq, payloadBits_header _ _ _ (length_histOf x)]
  exact prefix_bits_packBytes _

end Sys2Proof.Safety

namespace Sys2Proof.Machine

open Sys2Proof.Safety

/-! ## One nonzero count (R183) -/

/-- Every bit stands for the byte value `b`. -/
def oneSymbol (b : Byte) (ds : List Bool) : List (Byte × List Bool) := ds.map fun d => (b, [d])

theorem length_oneSymbol (b : Byte) (ds : List Bool) : (oneSymbol b ds).length = ds.length :=
  List.length_map _

theorem oneSymbol_fst (b : Byte) (ds : List Bool) :
    (oneSymbol b ds).map Prod.fst = List.replicate ds.length b := by
  rw [oneSymbol, List.map_map]; exact List.map_const' ..

theorem oneSymbol_bits (b : Byte) (ds : List Bool) : (oneSymbol b ds).flatMap Prod.snd = ds := by
  rw [oneSymbol, List.flatMap_map, ← List.map_eq_flatMap, List.map_id']

section
variable {p : List Byte} {b : Byte} (hone : ∀ c : Byte, (headerCounts p).getD c.toNat 0 ≠ 0 ↔ c = b)
include hone

/-- The bit of a symbol is not looked at. -/
theorem headerSymbolBits_of_one (d : Bool) : HeaderSymbolBits p b [d] := by
  rw [HeaderSymbolBits, buildArena_of_one (by simp [headerCounts]) hone]
  exact .leaf rfl rfl rfl

theorem oneSymbol_taken (ds : List Bool) : ∀ q ∈ oneSymbol b ds, HeaderSymbolBits p q.1 q.2 := by
  intro q hq
  obtain ⟨d, -, rfl⟩ := List.mem_map.1 hq
  exact headerSymbolBits_of_one hone d

/-- `huff.dec` completes with as many times `b` as the count says. -/
theorem huffDecode_oneSymbol {cap : Cap} {s : State} (hx : StartsWith s p) (hp : 1028 ≤ p.length)
    (hc : headerSymbols p ≤ cap.bytes) (hbits : headerSymbols p ≤ 8 * (p.length - 1028)) :
    ∃ r, huffDecode cap (startCommand s) = .ok r ∧ Coding cap s r ∧
      Wrote (List.replicate (headerSymbols p) b) r := by
  by_cases hn : headerSymbols p = 0
  · rw [hn]
    exact huffDecode_codes hx hp (Nat.zero_le _) hn (by simp) List.nil_prefix
  · have htake : ((payloadBits p).take (headerSymbols p)).length = headerSymbols p :=
      List.length_take_of_le (by rwa [length_payloadBits])
    have hlen := (length_oneSymbol b _).trans htake
    obtain ⟨r, he, hr⟩ := huffDecode_symbols (cap := cap) (n := 0) hx hp hn
      (headerSymbolBits_of_one hone true).root_ne_none
      (oneSymbol_taken hone ((payloadBits p).take (headerSymbols p)))
      (by rw [oneSymbol_bits, List.take_append_drop]) (by omega) (by omega)
    have hwrote := hr.wrote
    rw [oneSymbol_fst, htake] at hwrote
    exact ⟨r, he, hr.coding, hwrote⟩

/-- The first `BUF_CAP` bits fill `OBUF`, and the symbol of the next bit does not fit. -/
theorem huffDecode_oneSymbol_overflow {cap : Cap} {s : State} (hx : StartsWith s p)
    (hp : 1028 ≤ p.length) (hc : cap.bytes < headerSymbols p)
    (hbits : cap.bytes < 8 * (p.length - 1028)) :
    huffDecode cap (startCommand s) = .ended (raiseFault .outOvf (1028 + (cap.bytes + 1) / 8)
      (startCommand s).s) := by
  rw [← length_payloadBits] at hbits
  have htake : ((payloadBits p).take cap.bytes).length = cap.bytes := List.length_take_of_le hbits.le
  have hlen := (length_oneSymbol b _).trans htake
  have hend := huffDecode_overflow hx hp (oneSymbol_taken hone ((payloadBits p).take cap.bytes))
    (headerSymbolBits_of_one hone (payloadBits p)[cap.bytes]) (post := (payloadBits p).drop (cap.bytes + 1))
    (by rw [oneSymbol_bits, List.append_assoc, List.singleton_append, List.getElem_cons_drop,
      List.take_append_drop]) hlen (by omega)
  rwa [oneSymbol_bits, List.length_append, htake, List.length_singleton] at hend

end

end Sys2Proof.Machine

open Sys2Proof Sys2Proof.Machine Sys2Proof.Safety

/-- Settles O59: the header of the payload holds the counts and the length of `x`, so `huff.dec` has the code
table of `huff.enc`, and the packed bits begin with the codes of `x`. -/
theorem huffmanRoundTrip : Obligations.HuffmanRoundTrip := by
  intro s x hx hf hl hfits
  have hcap := cap_bounds Config.bufCap
  have hx32 : x.length < 2 ^ 32 := by omega
  have hpay := length_payloadOf x
  have hcounts := headerCounts_payloadOf hx32
  have henc := huffEncWritesThePayload s x hx hf hl (by omega)
  have hout := outputIs_doneWith 0x03#8 s (y := payloadOf x) (by omega)
  obtain ⟨t, hxchg, hdone, hin⟩ := execXchg_inputIs (by simp [doneWith]) (hx.1 ▸ hl) hout
  have hcodes : ∀ b ∈ x, codeOf (codesOf (headerCounts (payloadOf x))) b ≠ [] := fun b hb => by
    rw [hcounts]
    exact List.length_pos_iff.1 (length_code_bounds (length_histOf x) (histOf_ne_zero hb)).1
  have hdec := huffDecWritesTheSymbols.1 t (payloadOf x) x hin (by simp [hdone]) (by omega) (by omega) hl
    (headerSymbols_payloadOf hx32) hcodes (by rw [hcounts]; exact codeBits_prefix_payloadBits x)
  exact ⟨_, t, _, henc, rfl, hout, hxchg, hin, hdec, rfl, outputIs_doneWith _ _ hl⟩

/-- Settles O54: every code of a byte of `x` has 1 to 255 bits. -/
theorem payloadSize : Obligations.PayloadSize := fun x =>
  ⟨length_payloadOf x, length_codeBits_bounds (length_histOf x) fun _ hb => histOf_ne_zero hb⟩

/-- Settles O55: it is the case of no symbols of `huffDecWritesTheSymbols`. -/
theorem huffDecOfZeroSymbols : Obligations.HuffDecOfZeroSymbols := fun s p hx hf hp hl hn =>
  huffDecWritesTheSymbols.1 s p [] hx hf hp hl (Nat.zero_le _) hn (by simp) List.nil_prefix

/-- Settles O57: the tree is the leaf of `b`, and every bit is a symbol. -/
theorem huffDecOfOneSymbol : Obligations.HuffDecOfOneSymbol := by
  refine ⟨fun s p b hx hf hp hl hc hone hbits => ?_, fun _ => rfl,
    fun cap s p b hx hf hp hl hc hone hbits => ?_⟩
  · obtain ⟨r, hrun, hcoding, hwrote⟩ := huffDecode_oneSymbol (cap := Config.bufCap)
      (s := { s with cmd := 0x04#8 }) hone (.of_inputIs hx) hp hc hbits
    exact (issueCoder_done hf (hx.1 ▸ hl) hrun).trans
      (congrArg Host.Outcome.next (finishCommand_of_wrote hcoding hwrote))
  · exact issueCoder_faults hf (hx.1 ▸ hl) (huffDecode_oneSymbol_overflow
      (s := { s with cmd := 0x04#8 }) hone (.of_inputIs hx) hp hc hbits)

/-- Settles O51: bit 7 − k of a byte is the bit number k, first bit first. -/
theorem getBitReadsTheNextBit : Obligations.GetBitReadsTheNextBit := by
  refine fun r b => ⟨fun hend => if_pos hend, fun hleft hread => ?_⟩
  rw [getBit, if_neg (by exact Nat.not_le.2 hleft), input_some (by exact hread), Flow.bind_ok,
    getD_byteBits b (Nat.mod_lt _ (by decide))]
  rfl

end

section
/-! The control family (44_control.md): what a coding command leaves (R202, R204, R233), the exchange of
`xchg` (R201, R206), the two resets as the only way back to IDLE (R205, R207, R209), and the chains of R211. -/

namespace Sys2Proof.Machine

open Sys2Proof.Safety

/-! ## The coding commands (R200 to R204) -/

theorem Memory.isSome_read_iff (m : Memory) (a : Nat) : (m.read a).isSome ↔ a ∈ m.map Prod.fst := by
  induction m with
  | nil => simp
  | cons x rest ih =>
    obtain ⟨c, b⟩ := x
    by_cases h : c = a
    · simp [Memory.read_cons, h]
    · rw [Memory.read_cons, if_neg h, ih, List.map_cons, List.mem_cons, or_iff_right (Ne.symm h)]

/-- Each of the commands 0x01 to 0x04 is issued with a coder that keeps `Coding`. -/
theorem exists_coder {i : Instr} {op : Byte} (hi : (i, op) ∈ coders) :
    ∃ coder, exec i = issueCoder op Config.bufCap coder ∧
      ∀ s, (coder (startCommand s)).All (Coding Config.bufCap s) (Faulted s) := by
  simp only [coders, List.mem_cons, List.not_mem_nil, or_false, Prod.mk.injEq] at hi
  obtain ⟨rfl, rfl⟩ | ⟨rfl, rfl⟩ | ⟨rfl, rfl⟩ | ⟨rfl, rfl⟩ := hi
  · exact ⟨_, rfl, rle0Encode_coding _⟩
  · exact ⟨_, rfl, rle0Decode_coding _⟩
  · exact ⟨_, rfl, huffEncode_coding _⟩
  · exact ⟨_, rfl, huffDecode_coding _⟩

/-- Everything that a coding command can leave. -/
theorem exec_coder_next {i : Instr} {op : Byte} {s t : State} (hi : (i, op) ∈ coders)
    (h : exec i s = .next t) :
    (s.status = .fault ∧ t = s) ∨
    (s.status ≠ .fault ∧ s.inLen.toNat ≤ Config.bufCap.bytes ∧ ∃ r,
      Coding Config.bufCap { s with cmd := op } r ∧ t = finishCommand r) ∨
    (s.status ≠ .fault ∧ ∃ code pos, code ≠ FaultCode.none ∧
      t = raiseFault code pos { s with cmd := op }) := by
  obtain ⟨coder, he, hcoder⟩ := exists_coder hi
  exact issueCoder_next hcoder (he ▸ h)

/-! ## xchg (R201, R206) -/

theorem execXchg_ignored {s : State} (hf : s.status = .fault) : exec .xchg s = .next s :=
  issue_fault hf

theorem execXchg_tooLong {s : State} (hf : s.status ≠ .fault)
    (hl : Config.bufCap.bytes < s.inLen.toNat) : exec .xchg s = .next (faultWith 0x05#8 .inLen 0 s) :=
  (issue_of_ne hf).trans (checkLength_fault (s := { s with cmd := 0x05#8 }) hl)

theorem execXchg_exchanges {s : State} (hf : s.status ≠ .fault)
    (hl : s.inLen.toNat ≤ Config.bufCap.bytes) :
    exec .xchg s = .next (exchange { s with cmd := 0x05#8 }) :=
  (issue_of_ne hf).trans (checkLength_ok (s := { s with cmd := 0x05#8 }) hl)

/-- Everything that `xchg` can leave. -/
theorem execXchg_next {s t : State} (h : exec .xchg s = .next t) :
    (s.status = .fault ∧ t = s) ∨
    (s.status ≠ .fault ∧ Config.bufCap.bytes < s.inLen.toNat ∧ t = faultWith 0x05#8 .inLen 0 s) ∨
    (s.status ≠ .fault ∧ s.inLen.toNat ≤ Config.bufCap.bytes ∧
      t = exchange { s with cmd := 0x05#8 }) := by
  by_cases hf : s.status = .fault
  · rw [execXchg_ignored hf] at h
    cases h
    exact .inl ⟨hf, rfl⟩
  · rcases Nat.lt_or_ge Config.bufCap.bytes s.inLen.toNat with hl | hl
    · rw [execXchg_tooLong hf hl] at h
      cases h
      exact .inr (.inl ⟨hf, hl, rfl⟩)
    · rw [execXchg_exchanges hf hl] at h
      cases h
      exact .inr (.inr ⟨hf, hl, rfl⟩)

/-! ## No command but srst comes to IDLE (R205) -/

theorem exec_coder_ne_idle {i : Instr} {op : Byte} {s t : State} (hi : (i, op) ∈ coders)
    (h : exec i s = .next t) : t.status ≠ .idle := by
  obtain ⟨hf, rfl⟩ | ⟨-, -, r, -, rfl⟩ | ⟨-, code, pos, -, rfl⟩ := exec_coder_next hi h
  · simp [hf]
  · simp
  · simp

theorem execXchg_ne_idle {s t : State} (h : exec .xchg s = .next t) : t.status ≠ .idle := by
  obtain ⟨hf, rfl⟩ | ⟨-, -, rfl⟩ | ⟨-, -, rfl⟩ := execXchg_next h
  · simp [hf]
  · simp [faultWith]
  · simp

theorem execReserved_ne_idle {op : Byte} {s t : State} (h : execReserved op s = .next t) :
    t.status ≠ .idle := by
  unfold execReserved at h
  by_cases hf : s.status = .fault
  · rw [issue_fault hf] at h
    cases h
    simp [hf]
  · rw [issue_of_ne hf] at h
    cases h
    simp

theorem exec_ne_idle {i : Instr} {s t : State} (hi : isToken i = false) (hr : i ≠ .srst)
    (h : exec i s = .next t) : t.status ≠ .idle := by
  cases i with
  | rle0Enc => exact exec_coder_ne_idle (op := 0x01#8) (by decide) h
  | rle0Dec => exact exec_coder_ne_idle (op := 0x02#8) (by decide) h
  | huffEnc => exact exec_coder_ne_idle (op := 0x03#8) (by decide) h
  | huffDec => exact exec_coder_ne_idle (op := 0x04#8) (by decide) h
  | xchg => exact execXchg_ne_idle h
  | srst => exact absurd rfl hr
  | reserved op => exact execReserved_ne_idle h
  | copy b => cases hi
  | escLit => cases hi
  | run bits ending => cases hi

/-! ## The two resets (R205, R207, R209) -/

theorem decodeCommand_srst_iff (v : Word) : decodeCommand v = .srst ↔ opOf v = 0xFF#8 := by
  refine ⟨fun h => ?_, fun h => by simp [decodeCommand, h]⟩
  by_contra hne
  simp only [decodeCommand, if_neg hne] at h
  repeat' split at h
  all_goals cases h

/-- The host's next access is one of the two resets: the reset input, or a write of a word with `OP` = 0xFF
to `CMD`. -/
def ResetNext (s : State) : Prop :=
  ∃ rest, s.pending = .reset :: rest ∨ ∃ v, s.pending = .regWrite 0 v :: rest ∧ opOf v = 0xFF#8

/-- The reset input is taken in every state, also while a command runs (70_reset_and_hazards.md R260). -/
theorem step_resetInput {s : State} {rest : List Access} (hp : s.pending = .reset :: rest) :
    step s = .next (resetBlock { s with pending := rest }) := by
  unfold step transition
  rw [if_pos ((resetComes_iff s).2 ⟨rest, hp⟩), hostStep_cons hp]
  rfl

theorem step_resetNext {s t : State} (hb : s.status ≠ .busy) (hr : ResetNext s) (h : step s = .next t) :
    ∃ s', t = resetBlock s' := by
  obtain ⟨rest, hp | ⟨v, hp, hv⟩⟩ := hr
  · rw [step_resetInput hp] at h
    cases h
    exact ⟨_, rfl⟩
  · rw [step_access hb hp, access, regWrite_command, (decodeCommand_srst_iff v).2 hv] at h
    cases h
    exact ⟨_, rfl⟩

theorem ibufWrite_status (cap : Cap) (a : Nat) (b : Byte) (s : State) :
    (ibufWrite cap a b s).status = s.status := by
  unfold ibufWrite
  repeat' split
  all_goals rfl

theorem ibufRead_status (cap : Cap) (a : Nat) (s : State) : (ibufRead cap a s).status = s.status := by
  unfold ibufRead
  repeat' split
  all_goals rfl

theorem obufRead_status (a : Nat) (s : State) : (obufRead a s).status = s.status := by
  unfold obufRead
  repeat' split
  all_goals rfl

theorem regWrite_idle {n : Nat} {v : Word} {s t : State} (h : regWrite n v s = .next t)
    (ht : t.status = .idle) : s.status = .idle ∨ (n = 0 ∧ opOf v = 0xFF#8) := by
  by_cases h0 : n = 0
  · subst h0
    rw [regWrite_command] at h
    by_contra hno
    have hne : decodeCommand v ≠ .srst := fun hd => hno (.inr ⟨rfl, (decodeCommand_srst_iff v).1 hd⟩)
    exact exec_ne_idle (isToken_decodeCommand v) hne h ht
  · left
    by_cases h4 : n = 4
    · subst h4
      rw [regWrite_inLen] at h
      cases h
      split at ht <;> exact ht
    · rw [regWrite_ignored v s h0 h4] at h
      cases h
      exact ht

/-- A step of the host's comes to IDLE from IDLE or by a reset. -/
theorem hostStep_idle {s t : State} (h : hostStep s = .next t) (ht : t.status = .idle) :
    s.status = .idle ∨ ResetNext s := by
  unfold hostStep at h
  split at h
  · cases h; exact .inl ht
  · next x rest hp =>
    cases x with
    | regRead n => cases h; exact .inl ht
    | regWrite n v =>
      refine (regWrite_idle h ht).imp_right fun ⟨hn, hv⟩ => ⟨rest, .inr ⟨v, ?_, hv⟩⟩
      rw [hp, hn]
    | ibufWrite a b => cases h; exact .inl (by rwa [ibufWrite_status] at ht)
    | ibufRead a => cases h; exact .inl (by rwa [ibufRead_status] at ht)
    | obufRead a => cases h; exact .inl (by rwa [obufRead_status] at ht)
    | reset => exact .inr ⟨rest, .inl hp⟩

theorem HostMove.ne_busy {s t : State} (hb : s.status ≠ .busy) (m : HostMove s t) : t.status ≠ .busy := by
  cases m with
  | outside _ _ => exact hb
  | setInLen _ _ => exact hb
  | writeIbuf _ _ _ => exact hb
  | reset => simp
  | takeFault _ _ _ _ => simp
  | finish _ _ => simp
  | swap _ _ => simp

/-- In the FAULT state a move of the host's leaves the block as it is or resets it. -/
theorem HostMove.of_fault {s t : State} (hf : s.status = .fault) (m : HostMove s t) :
    (∃ replies draws, t = { s with replies := replies, draws := draws }) ∨ t = resetBlock s := by
  cases m with
  | outside replies draws => exact .inl ⟨replies, draws, rfl⟩
  | reset => exact .inr rfl
  | setInLen hn _ => exact absurd hf hn
  | writeIbuf hn _ _ => exact absurd hf hn
  | takeFault hn _ _ _ => exact absurd hf hn
  | finish hn _ => exact absurd hf hn
  | swap hn _ => exact absurd hf hn

end Sys2Proof.Machine

open Sys2Proof Sys2Proof.Machine Sys2Proof.Safety

/-- Settles O31: a coder keeps `Coding`, so where it ran to its end exactly the bytes below `OUT_LEN` are
defined. -/
theorem coderFrame : Obligations.CoderFrame := by
  intro s t i op hi h
  obtain hs | ⟨hf, -, r, hr, rfl⟩ | ⟨hf, code, pos, hc, rfl⟩ := exec_coder_next hi h
  · exact .inl hs
  · have hdefined : ∀ a, (r.s.obuf.read a).isSome ↔ a < r.s.outLen.toNat := fun a => by
      rw [Memory.isSome_read_iff, hr.filled, List.mem_range]
    exact .inr ⟨hf, hr.cmd, hr.inLen, hr.ibuf, rfl, hr.pending, hr.replies, hr.draws,
      .inl ⟨rfl, hr.fault, hr.faultPos, hr.fits, hdefined⟩⟩
  · exact .inr ⟨hf, rfl, rfl, rfl, rfl, rfl, rfl, rfl, .inr ⟨rfl, hc, rfl, fun _ => rfl⟩⟩

/-- Settles O19: a move of the host's in the FAULT state that is no reset changes only its own side, since a
reset comes to IDLE. -/
theorem faultStateIgnoresAllButReset : Obligations.FaultStateIgnoresAllButReset := by
  intro s t hf h
  have hb : s.status ≠ .busy := by simp [hf]
  refine ⟨fun hr => ?_, fun hr => ?_⟩
  · obtain ⟨s', rfl⟩ := step_resetNext hb hr h
    rfl
  · rw [step_of_ne_busy hb] at h
    obtain ⟨rest, hm⟩ := hostStep_hostMove h
    obtain ⟨replies, draws, rfl⟩ | rfl := hm.of_fault (by exact hf)
    · rfl
    · obtain hi | hn := hostStep_idle h rfl
      · simp [hf] at hi
      · exact absurd hn hr

/-- Settles O21: the step is the host's, which runs a command to its end and comes to IDLE by a reset
only. -/
theorem onlyResetLeadsToIdle : Obligations.OnlyResetLeadsToIdle := by
  intro s t hb h
  rw [step_of_ne_busy hb] at h
  obtain ⟨rest, hm⟩ := hostStep_hostMove h
  exact ⟨hm.ne_busy (by exact hb), hostStep_idle h⟩

/-- Settles O18: both are `resetBlock`. -/
theorem softResetIsHardwareReset : Obligations.SoftResetIsHardwareReset :=
  fun _ _ => ⟨rfl, step_resetInput⟩

/-- Settles O22: the length check comes before the coder and before the exchange. -/
theorem lengthCheckFaults : Obligations.LengthCheckFaults := by
  intro s i op hi hf hl
  rcases List.mem_append.1 hi with hi | hi
  · obtain ⟨coder, he, -⟩ := exists_coder hi
    rw [he]
    exact issueCoder_tooLong hf hl
  · obtain ⟨rfl, rfl⟩ := Prod.mk.inj (List.mem_singleton.1 hi)
    exact execXchg_tooLong hf hl

/-- Settles O24: an exchange of an exchange gives everything back but `CMD` and `STATE`. -/
theorem xchgExchanges : Obligations.XchgExchanges := by
  refine fun s => ⟨execXchg_ignored, execXchg_tooLong, execXchg_exchanges, fun t hf hin hout h => ?_,
    fun t hs hinv h ht => ?_⟩
  · rw [execXchg_exchanges hf hin] at h
    cases h
    exact execXchg_exchanges (by simp) hout
  · obtain ⟨hf, -⟩ | ⟨-, -, rfl⟩ | ⟨-, -, rfl⟩ := execXchg_next h
    · simp [hs] at hf
    · cases ht
    · exact (hinv.idleClean hs).1

end

section
/-! The chains of R211: a coding command that ends in DONE wrote its coding, and it does so from every state
that holds the same input string. -/

namespace Sys2Proof.Safety

open Sys2Proof.Machine

/-- `rle0.enc` ends in DONE only where the coding fits (R112, R55). -/
theorem execRle0Enc_done {s t : State} {x : List Byte} (hx : InputIs s x) (hf : s.status ≠ .fault)
    (hl : x.length ≤ Config.bufCap.bytes) (h : exec .rle0Enc s = .next t) (ht : t.status = .done) :
    (rle0Of x).length ≤ Config.bufCap.bytes ∧ t = doneWith 0x01#8 (rle0Of x) s := by
  rcases Nat.lt_or_ge Config.bufCap.bytes (rle0Of x).length with hlong | hfits
  · obtain ⟨a, u, c, -, -, -, -, he⟩ := rle0EncOverflows s x hx hf hl hlong
    rw [he] at h
    cases h
    cases ht
  · rw [rle0EncWritesTheCoding s x hx hf hl hfits] at h
    cases h
    exact ⟨hfits, rfl⟩

/-- `huff.enc` ends in DONE only where the payload fits (R175, R55). -/
theorem execHuffEnc_done {s t : State} {x : List Byte} (hx : InputIs s x) (hf : s.status ≠ .fault)
    (hl : x.length ≤ Config.bufCap.bytes) (h : exec .huffEnc s = .next t) (ht : t.status = .done) :
    (payloadOf x).length ≤ Config.bufCap.bytes ∧ t = doneWith 0x03#8 (payloadOf x) s := by
  rcases Nat.lt_or_ge Config.bufCap.bytes (payloadOf x).length with hlong | hfits
  · have hfaults : ∃ pos, exec .huffEnc s = .next (faultWith 0x03#8 .outOvf pos s) := by
      obtain ⟨-, he⟩ | ⟨a, b, c, -, -, -, he⟩ := huffEncOverflows.2 Config.bufCap s x hx hf hl hlong
      · exact ⟨_, he⟩
      · exact ⟨_, he⟩
    obtain ⟨pos, he⟩ := hfaults
    rw [he] at h
    cases h
    cases ht
  · rw [huffEncWritesThePayload s x hx hf hl hfits] at h
    cases h
    exact ⟨hfits, rfl⟩

theorem status_of_coder_done {i : Instr} {op : Byte} {s t : State} (hi : (i, op) ∈ coders)
    (h : exec i s = .next t) (ht : t.status = .done) : s.status ≠ .fault := by
  obtain ⟨hf, rfl⟩ | ⟨hf, -⟩ := coderFrame s t i op hi h
  · simp [ht]
  · exact hf

/-- What a coding command wrote from one state, it writes from every state with the same input string. -/
theorem exec_coder_transfers {i : Instr} {op : Byte} {s t u : State} {x y : List Byte}
    (hi : (i, op) ∈ coders) (h : exec i s = .next t) (ht : t.status = .done) (hy : OutputIs t y)
    (hs : InputIs s x) (hu : InputIs u x) (hf : u.status ≠ .fault) :
    ∃ t', exec i u = .next t' ∧ t'.status = .done ∧ OutputIs t' y := by
  obtain ⟨hslen, hsread⟩ := hs
  obtain ⟨hulen, huread⟩ := hu
  obtain ⟨t', he, hstatus, hout, hobuf, -⟩ := resultDependsOnTheInputOnly s u t i op hi
    (status_of_coder_done hi h ht) hf (BitVec.eq_of_toNat_eq (hslen.trans hulen.symm))
    (fun a ha => (hsread a (hslen ▸ ha)).trans (huread a (hslen ▸ ha)).symm) h
  exact ⟨t', he, hstatus.trans ht, by rw [OutputIs, hout, hobuf]; exact hy⟩

/-- `compress`, where none of its commands faults (R211). -/
theorem compress_done {s t₁ t₂ t₃ : State} {x : List Byte} (hx : InputIs s x) (hf : s.status ≠ .fault)
    (hl : x.length ≤ Config.bufCap.bytes) (h₁ : exec .rle0Enc s = .next t₁) (hd₁ : t₁.status = .done)
    (h₂ : exec .xchg t₁ = .next t₂) (h₃ : exec .huffEnc t₂ = .next t₃) (hd₃ : t₃.status = .done) :
    (rle0Of x).length ≤ Config.bufCap.bytes ∧
      (payloadOf (rle0Of x)).length ≤ Config.bufCap.bytes ∧ OutputIs t₃ (payloadOf (rle0Of x)) := by
  obtain ⟨hcoded, rfl⟩ := execRle0Enc_done hx hf hl h₁ hd₁
  obtain ⟨t, hxchg, hdone, hin⟩ :=
    execXchg_inputIs (by simp [doneWith]) (hx.1 ▸ hl) (outputIs_doneWith 0x01#8 s hcoded)
  rw [h₂] at hxchg
  cases hxchg
  obtain ⟨hpayload, rfl⟩ := execHuffEnc_done hin (by simp [hdone]) hcoded h₃ hd₃
  exact ⟨hcoded, hpayload, outputIs_doneWith _ _ hpayload⟩

/-- `expand` on a state that holds what `compress` makes of `x` (R211): each decoder does what it does in its
own round trip. -/
theorem expand_done {s u : State} {x : List Byte} (hx : InputIs s x) (hf : s.status ≠ .fault)
    (hl : x.length ≤ Config.bufCap.bytes) (hcoded : (rle0Of x).length ≤ Config.bufCap.bytes)
    (hpayload : (payloadOf (rle0Of x)).length ≤ Config.bufCap.bytes)
    (hu : InputIs u (payloadOf (rle0Of x))) (hfu : u.status ≠ .fault) :
    ∃ u₁ u₂ u₃, exec .huffDec u = .next u₁ ∧ u₁.status = .done ∧ exec .xchg u₁ = .next u₂ ∧
      exec .rle0Dec u₂ = .next u₃ ∧ u₃.status = .done ∧ OutputIs u₃ x := by
  have hrle : (Instr.rle0Dec, 0x02#8) ∈ coders := by decide
  have hhuff : (Instr.huffDec, 0x04#8) ∈ coders := by decide
  obtain ⟨-, c, d, -, -, -, -, hc, hcd, hd, hdx⟩ := rle0RoundTrip s x hx hf hl hcoded
  obtain ⟨-, p, e, -, -, -, -, hp, hpe, he, hey⟩ := huffmanRoundTrip c (rle0Of x) hc
    (status_of_coder_done hrle hcd hd) hcoded (by rwa [← length_payloadOf])
  obtain ⟨u₁, h₁, hd₁, hy₁⟩ := exec_coder_transfers hhuff hpe he hey hp hu hfu
  have hlen : u₁.inLen.toNat ≤ Config.bufCap.bytes := by
    obtain ⟨hf', -⟩ | ⟨-, -, hin, -⟩ := coderFrame u u₁ _ _ hhuff h₁
    · exact absurd hf' hfu
    · rw [hin, hu.1]; exact hpayload
  obtain ⟨u₂, h₂, hd₂, hin₂⟩ := execXchg_inputIs (by simp [hd₁]) hlen hy₁
  obtain ⟨u₃, h₃, hd₃, hx₃⟩ := exec_coder_transfers hrle hcd hd hdx hc hin₂ (by simp [hd₂])
  exact ⟨u₁, u₂, u₃, h₁, hd₁, h₂, h₃, hd₃, hx₃⟩

end Sys2Proof.Safety

open Sys2Proof Sys2Proof.Machine Sys2Proof.Safety

/-- Settles O60: where no command of `compress` faults both codings fit, so the two round trips give what
`expand` does. -/
theorem compressThenExpand : Obligations.CompressThenExpand := by
  refine ⟨fun s t₁ t₂ t₃ x hx hf hl h₁ hd₁ h₂ h₃ hd₃ => ?_, fun t hf =>
    ⟨issue_fault hf, issue_fault hf, issue_fault hf⟩⟩
  obtain ⟨hcoded, hpayload, hout⟩ := compress_done hx hf hl h₁ hd₁ h₂ h₃ hd₃
  exact ⟨hout, fun u => expand_done hx hf hl hcoded hpayload⟩

end

section
/-! The FAULT state over any number of steps: the host's moves take accesses off its list and put none on it,
so that a list without a reset stays one, and each step leaves the block as it is. -/

namespace Sys2Proof.Safety

open Sys2Proof.Machine

theorem sameBlock_refl (s : State) : SameBlock s s := rfl

theorem SameBlock.trans {s t u : State} (hst : SameBlock s t) (htu : SameBlock t u) : SameBlock s u := by
  unfold SameBlock at htu
  rw [← htu] at hst
  exact hst

theorem SameBlock.status {s t : State} (h : SameBlock s t) : t.status = s.status :=
  (congrArg State.status h :)

theorem SameBlock.fault {s t : State} (h : SameBlock s t) : t.fault = s.fault :=
  (congrArg State.fault h :)

theorem SameBlock.faultPos {s t : State} (h : SameBlock s t) : t.faultPos = s.faultPos :=
  (congrArg State.faultPos h :)

end Sys2Proof.Safety

namespace Sys2Proof.Machine

open Sys2Proof.Safety

/-- An access changes nothing in the list of those yet to make. -/
theorem HostMove.pending {s t : State} (m : HostMove s t) : t.pending = s.pending := by
  cases m with
  | outside _ _ => rfl
  | setInLen _ _ => rfl
  | writeIbuf _ _ _ => rfl
  | reset => rfl
  | takeFault _ _ _ _ => rfl
  | finish _ hr => exact hr.pending
  | swap _ _ => rfl

theorem hostStep_pending {s t : State} (h : hostStep s = .next t) : t.pending = s.pending.tail := by
  cases hp : s.pending with
  | nil =>
    simp only [hostStep, hp] at h
    cases h
    exact hp
  | cons x rest =>
    rw [hostStep_cons hp] at h
    exact (access_hostMove h).pending

/-- No access of the list is one of the two resets, the reset input and a write of a word with `OP` = 0xFF
to `CMD` (60_exceptions.md R239). -/
def NoReset (xs : List Access) : Prop :=
  ∀ x ∈ xs, x ≠ .reset ∧ ∀ v, x = .regWrite 0 v → opOf v ≠ 0xFF#8

theorem NoReset.tail {xs : List Access} (h : NoReset xs) : NoReset xs.tail :=
  fun x hx => h x (List.mem_of_mem_tail hx)

theorem NoReset.not_resetNext {s : State} (h : NoReset s.pending) : ¬ ResetNext s := by
  rintro ⟨rest, hp | ⟨v, hp, hv⟩⟩
  · exact (h .reset (by simp [hp])).1 rfl
  · exact (h (.regWrite 0 v) (by simp [hp])).2 v rfl hv

/-- One step of R240: the block stays as it is, and the list stays without a reset. -/
theorem step_fault_noReset {s t : State} (hf : s.status = .fault) (hr : NoReset s.pending)
    (h : step s = .next t) : SameBlock s t ∧ NoReset t.pending := by
  refine ⟨(faultStateIgnoresAllButReset s t hf h).2 hr.not_resetNext, ?_⟩
  rw [step_of_ne_busy (by simp [hf])] at h
  rw [hostStep_pending h]
  exact hr.tail

theorem exists_step_of_run_succ {M : Host.Core} {n : Nat} {s t : M.State} (h : M.run (n + 1) s = .next t) :
    ∃ u, M.step s = .next u ∧ M.run n u = .next t := by
  rw [Host.Core.run] at h
  split at h
  · next u hu => exact ⟨u, hu, h⟩
  · cases h
  · cases h

/-- Any number of steps from FAULT without a reset leave the block as it is (R240). -/
theorem run_fault_sameBlock {n : Nat} {s t : State} (hf : s.status = .fault) (hr : NoReset s.pending)
    (h : core.run n s = .next t) : SameBlock s t := by
  induction n generalizing s with
  | zero =>
    cases h
    exact sameBlock_refl _
  | succ n ih =>
    obtain ⟨u, hstep, hrun⟩ := exists_step_of_run_succ h
    obtain ⟨hsame, hr'⟩ := step_fault_noReset hf hr hstep
    exact hsame.trans (ih (hsame.status.trans hf) hr' hrun)

end Sys2Proof.Machine

open Sys2Proof Sys2Proof.Machine Sys2Proof.Safety

/-- Settles O20: the whole block stays as it is, by induction on the number of steps, and `STATE`, the code
and the position with it. -/
theorem faultIsKeptUntilReset : Obligations.FaultIsKeptUntilReset := by
  intro n s t hf hr h
  have hsame : SameBlock s t := run_fault_sameBlock hf hr h
  exact ⟨hsame.status.trans hf, hsame.fault, hsame.faultPos, hsame⟩

/-- Settles O17: a raise ends the command whatever was to follow it, and the fields are those `raiseFault`
writes and leaves. -/
theorem faultEntry : Obligations.FaultEntry := by
  intro r code pos f
  have hend : endCommand ((r.raise code pos : Flow Running).bind f) = .next (raiseFault code pos r.s) := by
    rw [Running.bind_raise]
    rfl
  have hobuf (a : Nat) : (raiseFault code pos r.s).obuf.read a = none := by
    rw [raiseFault_obuf]
    rfl
  exact ⟨hend, raiseFault_status .., raiseFault_fault .., raiseFault_faultPos .., raiseFault_outLen .., hobuf,
    raiseFault_work .., raiseFault_cmd .., raiseFault_inLen .., raiseFault_ibuf ..⟩

end
